-- ==== Sys2Proof/Word.lean ====
section
/-! DEFINITION. The word types of HUFFCORE (00_scope.md R6, R7, R9, R10): every value the spec gives a width of
its own. Arithmetic on them is that of core's BitVec. -/

namespace Sys2Proof

/-- A byte, which is also a symbol of the alphabet (R6, R12). -/
abbrev Byte := BitVec 8

/-- A 32-bit word: a host access, a count, a weight, a length, a payload word (R6, R7). -/
abbrev Word := BitVec 32

/-- A token of the serialized tree, 16 bits, signed (R6, R10, R95). -/
abbrev Token := BitVec 16

/-- A 64-bit register, `TOK_COUNT`, `BIT_COUNT` or `ERRINFO` (R21). -/
abbrev Quad := BitVec 64

/-- An arena index as a register or a node field holds it: 9 bits (R35, R45). -/
abbrev NodeIx := BitVec 9

end Sys2Proof
end

