-- ==== Sys2Proof/Config.lean ====
section
/-! DEFINITION. The parameters of HUFFCORE (00_scope.md R6, R7, R8), and the one value the spec leaves free that
no field of the state can hold: what a buffer cell that nothing has written reads as (93_implementation_defined.md U2). -/

namespace Sys2Proof

/-- The number of symbols, one per byte value (R6). -/
def alphabet : Nat := 256

/-- The most tokens the block accepts or produces, `TOK_CAP` (R7). -/
def tokCap : Nat := 511

/-- The entries of the node arena, `NODE_CAP` (R7). -/
def nodeCap : Nat := 511

/-- The upper bound R8 puts on each of the open capacities. -/
def capLimit : Nat := 2 ^ 20

/-- The open parameters that are fixed for one implementation (R8): the capacities of the three buffers.
They are a field of the state that no step changes, so that a statement about every state is one about every
implementation (log 5). `PAD_BITS`, which may vary from word to word, is the state's list `padChoices` (log 3). -/
structure Config where
  /-- bytes of `IN_BUF` -/
  inCap : Nat
  /-- bytes of `OUT_BUF` -/
  outCap : Nat
  /-- 32-bit words of `PAY_BUF` -/
  payCap : Nat
  deriving DecidableEq, Repr

/-- The defaults of R8, which are those of HUFFCORE-1. -/
def Config.huffcore1 : Config := { inCap := 2 ^ 20, outCap := 2 ^ 20, payCap := 2 ^ 20 }

/-- What the byte at a host address reads as when neither the host nor the block has written it since the last
hard reset (R81, U2): a free value, with no body, of the number of hard resets so far and the address (log 4). -/
opaque Config.unwrittenByte : Nat → Nat → Byte

end Sys2Proof
end

