-- ==== Sys2Proof/Syntax.lean ====
section
/-! DEFINITION. The commands of HUFFCORE, one constructor per row of spec/opcode_table.json (30_encoding.md R91).
No command has an operand: what it reads and writes is fixed (R93). -/

namespace Sys2Proof

inductive Instr where
  /-- `NOP`, R230 -/
  | nop
  /-- `FREQ`, R135 -/
  | freq
  /-- `BUILD`, R150 -/
  | build
  /-- `GENCODES`, R165 -/
  | gencodes
  /-- `SERIALIZE`, R180 -/
  | serialize
  /-- `DESERIALIZE`, R185 -/
  | deserialize
  /-- `ENCODE`, R200 -/
  | encode
  /-- `DECODE`, R215 -/
  | decode
  /-- `RESET`, R231 -/
  | reset
  deriving DecidableEq, Repr

end Sys2Proof
end

