-- ==== Sys2Proof/WellFormed.lean ====
section
/-! DEFINITION. What is well formed: a command word (30_encoding.md R90 to R92) and the open parameters (00_scope.md R8).
A command has no fields (R93), so every `Instr` is well formed; the checks are on the word and on the parameters. -/

namespace Sys2Proof

/-- Bits 31:8 of a command word, `RSVD`, which must be 0 (R90). -/
def rsvdField (c : Word) : BitVec 24 := c.extractLsb' 8 24

/-- Bits 7:0 of a command word, `OPCODE` (R90). -/
def opcodeField (c : Word) : BitVec 8 := c.extractLsb' 0 8

/-- A word selects a command exactly when its `RSVD` is 0 and its `OPCODE` is in R91's table, 0x00 to 0x08. -/
def legalWord (c : Word) : Bool := rsvdField c == 0 && decide (opcodeField c ≤ 0x08)

/-- R8's constraint on `IN_CAP` and on `OUT_CAP`: a multiple of 4, from 4 to 2^20. -/
def byteCapOk (n : Nat) : Bool := n % 4 == 0 && decide (4 ≤ n) && decide (n ≤ capLimit)

/-- R8's constraint on `PAY_CAP`: from 1 to 2^20. -/
def wordCapOk (n : Nat) : Bool := decide (1 ≤ n) && decide (n ≤ capLimit)

/-- The open parameters meet R8's constraints. -/
def Config.wf (c : Config) : Bool := byteCapOk c.inCap && byteCapOk c.outCap && wordCapOk c.payCap

end Sys2Proof
end

