-- ==== Sys2Proof/Decode.lean ====
section
/-! DEFINITION. The command decoder, total on every 32-bit word, and the encoder (30_encoding.md R90 to R92, R94). -/

namespace Sys2Proof

/-- Why a word is no command (R92): both are IllegalCommandError on the machine. -/
inductive Reject where
  /-- bits 31:8 are not all 0 -/
  | reservedBits
  /-- bits 7:0 are 0x09 to 0xFF -/
  | reservedOpcode
  deriving DecidableEq, Repr

/-- R91's table, by `OPCODE`. -/
def opcodeMap (op : BitVec 8) : Except Reject Instr :=
  match op.toNat with
  | 0x00 => .ok .nop
  | 0x01 => .ok .freq
  | 0x02 => .ok .build
  | 0x03 => .ok .gencodes
  | 0x04 => .ok .serialize
  | 0x05 => .ok .deserialize
  | 0x06 => .ok .encode
  | 0x07 => .ok .decode
  | 0x08 => .ok .reset
  | _ => .error .reservedOpcode

/-- The command a word selects (R90, R91), or why it selects none (R92). -/
def decode (c : Word) : Except Reject Instr :=
  if rsvdField c = 0 then opcodeMap (opcodeField c) else .error .reservedBits

/-- The word of a command: the column "word" of R91's table. -/
def encode : Instr → Word
  | .nop => 0x00000000
  | .freq => 0x00000001
  | .build => 0x00000002
  | .gencodes => 0x00000003
  | .serialize => 0x00000004
  | .deserialize => 0x00000005
  | .encode => 0x00000006
  | .decode => 0x00000007
  | .reset => 0x00000008

/-- The 32-bit command word whose low `nbits` bits are those of `w`, the bits above being 0. Commands are one
word (R94), so there is nothing to lay out in memory. -/
def tableWord (nbits w : Nat) : Word := BitVec.ofNat 32 (w % 2 ^ nbits)

/-- What the decoder reads from a row of spec/opcode_table.json. -/
def decodeTableWord (nbits w : Nat) : Option Instr :=
  match decode (tableWord nbits w) with
  | .ok i => some i
  | .error _ => none

end Sys2Proof
end

