-- ==== Sys2Proof/Machine/State.lean ====
section
/-! DEFINITION. The state of HUFFCORE as plain data (10_state.md), its reset value, and the reasons a step may stop.
INVENTORY.md, under State, lists every field with its rule and its reset value. -/

namespace Sys2Proof.Machine

/-- One cell of the node arena (R12, R45): a tagged variant; an index field is a 9-bit arena index. -/
inductive Node where
  | leaf (sym : Byte) (weight : Word)
  | internal (weight : Word) (left right : NodeIx)
  deriving DecidableEq, Repr

/-- One cell of the code table (R46): `bits` holds the path, first step in bit 0, and 0 from `len` on. -/
structure CodeEntry where
  valid : Bool
  len : BitVec 9
  bits : BitVec 256
  deriving DecidableEq, Repr

/-- The fields of `STATUS` (R23) but for `BUSY`, whose home is the run state. `partialEnd` is `PARTIAL`. -/
structure Flags where
  done : Bool
  err : Bool
  freqValid : Bool
  treeValid : Bool
  codesValid : Bool
  partialEnd : Bool
  deriving DecidableEq, Repr

/-- The run state (R20 (d), R127): idle, or busy with the command word `cmd`, `left` more steps of the machine
passing before the command completes (log 2). -/
inductive RunState where
  | idle
  | busy (cmd : Word) (left : Nat)
  deriving DecidableEq, Repr

/-- A transaction of the host port (R62). The address is a natural number: R63 (c) speaks of those beyond 23 bits. -/
inductive Access where
  | read (a : Nat)
  | write (a : Nat) (v : Word)
  deriving DecidableEq, Repr

/-- What the world outside the block does to it: a host access (R62) or the platform's hard reset (R275). -/
inductive HostEvent where
  | access (x : Access)
  | hardReset
  deriving DecidableEq, Repr

/-- How a host access completes (R13, R62): a read with `OK` and its word, a write with `OK`, or either with `ERR`. -/
inductive Reply where
  | okRead (v : Word)
  | okWrite
  | err
  deriving DecidableEq, Repr

/-- The byte storage of the four buffers, at their host addresses: addresses strictly rising. An address that is
not listed holds no value of the model's (nothing has written it since the hard reset). -/
abbrev Memory := List Host.Cell

/-- The whole state (R20). -/
structure State where
  /-- the open parameters (R8); no step changes them -/
  cfg : Config
  /-- the run state and `STATUS.BUSY` (R20 (d), R23) -/
  run : RunState
  /-- the other fields of `STATUS` (R23) -/
  flags : Flags
  /-- `ERRCODE`, bits 3:0 (R24) -/
  errCode : BitVec 4
  /-- `ERRINFO` (R25) -/
  errInfo : Quad
  /-- `LASTCMD` (R26) -/
  lastCmd : Word
  /-- `IN_LEN` (R27) -/
  inLen : Word
  /-- `OUT_LEN` (R31) -/
  outLen : Word
  /-- `TOK_COUNT` (R28) -/
  tokCount : Quad
  /-- `BIT_COUNT` (R29) -/
  bitCount : Quad
  /-- `PAY_WORDS` (R30) -/
  payWords : Word
  /-- `TOTAL` (R32) -/
  total : Word
  /-- `LEAF_COUNT`, bits 8:0 (R33) -/
  leafCount : BitVec 9
  /-- `NODE_COUNT`, bits 8:0 (R34) -/
  nodeCount : BitVec 9
  /-- `ROOT`, bits 8:0 (R35) -/
  root : NodeIx
  /-- `COUNT` (R44): 256 cells, absent (the empty list) while `FREQ_VALID` is 0 (R47, log 6) -/
  count : List Word
  /-- `NODE[0 .. NODE_COUNT-1]` (R45), absent while `TREE_VALID` is 0 (R47, log 6) -/
  node : List Node
  /-- `CODE` (R46): 256 cells, absent while `CODES_VALID` is 0 (R47, log 6) -/
  code : List CodeEntry
  /-- `IN_BUF`, `OUT_BUF`, `TOK_BUF`, `PAY_BUF` (R40 to R43) -/
  mem : Memory
  /-- the model's own: how many hard resets have happened (log 4) -/
  powerCycle : Nat
  /-- the model's own: `PAD_BITS` at the partial last words still to be written (R206, log 3) -/
  padChoices : List Word
  /-- the model's own: the durations of the commands still to be issued (U3, log 2) -/
  durationChoices : List Nat
  /-- the access the host is waiting on while the block is busy (R73) -/
  held : Option Access
  /-- what the outside world is still to do, in order (R75, log 1) -/
  port : List HostEvent
  /-- how the host's accesses completed, oldest first (R62, log 1) -/
  replies : List Reply
  deriving DecidableEq, Repr

/-- Why the machine stops. Both reasons are raised only in states that break an invariant the spec states of
every run; no state that meets `State.Inv` raises either (log 7). -/
inductive Fault where
  /-- Raised by BUILD when no count is nonzero although `FREQ_VALID` is 1, against R136: the queue is empty at
  R150's step 3. Safe: the spec gives no node to extract. -/
  | emptyQueue
  /-- Raised by GENCODES, SERIALIZE and DECODE when a walk meets an index outside the arena or does not end,
  against R54. Safe: the spec gives such an arena no meaning. -/
  | brokenArena
  deriving DecidableEq, Repr

/-- Why an instruction is refused. No arm of this model refuses. -/
inductive Refusal where
  /-- Raised by an arm of exec that has no meaning yet, by the table's mnemonic; no arm of this model raises it. Safe. -/
  | notModelled (mnemonic : String)
  deriving DecidableEq, Repr

/-- Every flag of `STATUS` at 0. -/
def Flags.clear : Flags :=
  { done := false, err := false, freqValid := false, treeValid := false, codesValid := false, partialEnd := false }

/-- The state right after the hard reset (R275, R276, R55): every register 0, the block idle, the tables absent,
no cell of a buffer written; the parameters at R8's defaults, and the outside world with nothing to do yet. -/
def State.reset : State :=
  { cfg := Config.huffcore1
    run := .idle
    flags := Flags.clear
    errCode := 0
    errInfo := 0
    lastCmd := 0
    inLen := 0
    outLen := 0
    tokCount := 0
    bitCount := 0
    payWords := 0
    total := 0
    leafCount := 0
    nodeCount := 0
    root := 0
    count := []
    node := []
    code := []
    mem := []
    powerCycle := 0
    padChoices := []
    durationChoices := []
    held := none
    port := []
    replies := [] }

end Sys2Proof.Machine
end

