-- ==== Sys2Proof/Machine/Ops.lean ====
section
/-! DEFINITION. The shared operations of the machine: the byte memory and its one byte order (20_memory.md R65 to R68),
the start of a command, its two completions, and the recording of an error (40_command_dispatch.md R121, R125, R126). -/

namespace Sys2Proof.Machine

/-! ### The byte memory -/

/-- The canonical form: addresses strictly rising. An unlisted address has no value, so no entry can equal one. -/
abbrev Memory.wf (m : Memory) : Prop := (m.map Prod.fst).Pairwise (· < ·)

/-- The byte listed at an address, if one is. -/
def Memory.get : Memory → Nat → Option Byte
  | [], _ => none
  | (k, b) :: m, a => if a = k then some b else Memory.get m a

/-- Write one byte, keeping the addresses rising. -/
def Memory.setByte : Memory → Nat → Byte → Memory
  | [], a, b => [(a, b)]
  | (k, c) :: m, a, b =>
    if a < k then (a, b) :: (k, c) :: m
    else if a = k then (a, b) :: m
    else (k, c) :: Memory.setByte m a b

/-- Byte `n` of a word, counted from the least significant (R65). -/
def byteOf (v : Word) (n : Nat) : Byte := v.extractLsb' (8 * n) 8

/-- The word of four bytes, `b0` the least significant (R65). -/
def wordOf (b3 b2 b1 b0 : Byte) : Word := b3 ++ b2 ++ b1 ++ b0

/-- Write a 16-bit token, low byte at the lower address (R67). -/
def Memory.setHalf (m : Memory) (a : Nat) (v : Token) : Memory :=
  (m.setByte a (v.extractLsb' 0 8)).setByte (a + 1) (v.extractLsb' 8 8)

/-- Write a 32-bit word, least significant byte at the lowest address (R65, R68). -/
def Memory.setWord (m : Memory) (a : Nat) (v : Word) : Memory :=
  (((m.setByte a (byteOf v 0)).setByte (a + 1) (byteOf v 1)).setByte (a + 2) (byteOf v 2)).setByte (a + 3) (byteOf v 3)

/-- Read one byte of the buffers' storage: what was written last, or the free value where nothing was (R81). -/
def State.byteAt (s : State) (a : Nat) : Byte := (s.mem.get a).getD (Config.unwrittenByte s.powerCycle a)

/-- Read a 16-bit token (R67). -/
def State.halfAt (s : State) (a : Nat) : Token := s.byteAt (a + 1) ++ s.byteAt a

/-- Read a 32-bit word (R65, R68). -/
def State.wordAt (s : State) (a : Nat) : Word :=
  wordOf (s.byteAt (a + 3)) (s.byteAt (a + 2)) (s.byteAt (a + 1)) (s.byteAt a)

/-! ### Start, completion and failure of a command -/

/-- The nine errors (60_exceptions.md R246). -/
inductive Err where
  | emptyInput
  | malformedTree
  | truncatedData
  | invalidPath
  | singleSymbol
  | sequence
  | illegalCommand
  | noCode
  | capacity
  deriving DecidableEq, Repr

/-- The code of each error in `ERRCODE` (R246). -/
def Err.code : Err → BitVec 4
  | .emptyInput => 1
  | .malformedTree => 2
  | .truncatedData => 3
  | .invalidPath => 4
  | .singleSymbol => 5
  | .sequence => 6
  | .illegalCommand => 7
  | .noCode => 8
  | .capacity => 9

/-- The start actions of every command word, legal or not (R121), which are also what clears the record of the
last error (R261: there is no return from an error but this). The block becomes busy with `c`; `left` is how many
steps pass before it completes. -/
def startCommand (c : Word) (left : Nat) (s : State) : State :=
  { s with
    run := .busy c left
    flags := { s.flags with done := false, err := false }
    errCode := 0
    errInfo := 0
    lastCmd := c }

/-- Successful completion (R125). -/
def completeCommand (s : State) : State :=
  { s with run := .idle, flags := { s.flags with done := true } }

/-- TAKING AN ERROR: failing completion (R126, R258). The code and the information value are recorded, `ERR` and
`DONE` are set and the block becomes idle; the command word is in `LASTCMD` since the start; no mode changes and
control goes nowhere. -/
def raiseError (e : Err) (info : Quad) (s : State) : State :=
  { s with
    run := .idle
    flags := { s.flags with done := true, err := true }
    errCode := e.code
    errInfo := info }

/-- How a command's body ends (R124 to R126): normally, by a `raise` with the state written so far, or in a state
the spec rules out. -/
inductive Body where
  | done (s : State)
  | raise (e : Err) (info : Quad) (s : State)
  | stuck (f : Fault)

/-- The completion that follows a body (R125, R126). -/
def Body.finish : Body → Host.Outcome State Fault Refusal
  | .done s => .next (completeCommand s)
  | .raise e info s => .next (raiseError e info s)
  | .stuck f => .fault f

/-- How a loop of a body ends: normally or by a `raise`, with the loop's local state, or in a state the spec rules out. -/
inductive LoopEnd (α : Type) where
  | ended (x : α)
  | failed (e : Err) (info : Nat) (x : α)
  | stuck (f : Fault)

end Sys2Proof.Machine
end

