-- ==== Sys2Proof/Machine/Flags.lean ====
section
/-! DEFINITION. The flags: the `STATUS` word (10_state.md R23, 40_command_dispatch.md R127) and the prerequisite check, the
one place where the block reads its flags (R38, R123). -/

namespace Sys2Proof.Machine

/-- A flag at its place in a word. -/
def flagBit (b : Bool) (n : Nat) : Word := if b then 1#32 <<< n else 0

/-- `STATUS` as an idle block shows it: `DONE` 1, `ERR` 2, `FREQ_VALID` 3, `TREE_VALID` 4, `CODES_VALID` 5,
`PARTIAL` 6, the rest 0 (R23). -/
def Flags.toWord (f : Flags) : Word :=
  flagBit f.done 1 ||| flagBit f.err 2 ||| flagBit f.freqValid 3 ||| flagBit f.treeValid 4
    ||| flagBit f.codesValid 5 ||| flagBit f.partialEnd 6

/-- What a host read of `STATUS` returns: exactly 1 while the block is busy (R127). -/
def State.statusWord (s : State) : Word :=
  match s.run with
  | .busy _ _ => 1
  | .idle => s.flags.toWord

/-- R123's table: the `STATUS` bit number of the flag a command requires, when that flag is 0. -/
def missingFlag (i : Instr) (f : Flags) : Option Quad :=
  match i with
  | .build => if f.freqValid then none else some 3
  | .gencodes | .serialize | .decode => if f.treeValid then none else some 4
  | .encode => if f.codesValid then none else some 5
  | .nop | .freq | .deserialize | .reset => none

/-- A whole command as the host sees it, one atomic event (R120): start, prerequisite check, body, completion. The
decode check (R122) has passed, since there is an `Instr`. -/
def runCommand (i : Instr) (body : State → Body) (s : State) : Host.Outcome State Fault Refusal :=
  let s1 := startCommand (encode i) 0 s
  match missingFlag i s1.flags with
  | some b => .next (raiseError .sequence b s1)
  | none => (body s1).finish

/-- FREQ's start (R135): the flag it is about to set, and the results that go with it, are cleared. -/
def State.clearFreq (s : State) : State :=
  { s with flags := { s.flags with freqValid := false }, total := 0, count := [] }

/-- GENCODES' start (R165). -/
def State.clearCodes (s : State) : State :=
  { s with flags := { s.flags with codesValid := false }, code := [] }

/-- BUILD's and DESERIALIZE's start (R150, R185): a new tree also invalidates the code table (R282). -/
def State.clearTree (s : State) : State :=
  { s with
    flags := { s.flags with treeValid := false, codesValid := false }
    leafCount := 0
    nodeCount := 0
    root := 0
    node := []
    code := [] }

/-- What BUILD and DESERIALIZE write on success (R150, R185): the arena, its registers, the flag. -/
def State.installTree (node : List Node) (leaves root : Nat) (s : State) : State :=
  { s with
    flags := { s.flags with treeValid := true }
    leafCount := BitVec.ofNat 9 leaves
    nodeCount := BitVec.ofNat 9 node.length
    root := BitVec.ofNat 9 root
    node := node }

end Sys2Proof.Machine
end

