-- ==== Sys2Proof/Machine/Operands.lean ====
section
/-! DEFINITION. The operands of the commands (30_encoding.md R93): the elements of the buffers by index (20_memory.md R60, R80),
the tokens (R95, R96), the cells of the arena and of the code table and their host words (R98, R99). -/

namespace Sys2Proof.Machine

/-! ### Where the buffers stand (R61) -/

def tokBase : Nat := 0x008000
def inBase : Nat := 0x100000
def outBase : Nat := 0x200000
def payBase : Nat := 0x400000

/-! ### The elements of the buffers, by index -/

/-- `IN_BUF[j]` (R40). -/
def State.inByte (s : State) (j : Nat) : Byte := s.byteAt (inBase + j)

/-- `IN_BUF[0 .. IN_LEN-1]`, the input (R27). -/
def State.input (s : State) : List Byte := (List.range s.inLen.toNat).map s.inByte

/-- `OUT_BUF[j]` as stored (R41); the host sees it through the gate of R66. -/
def State.outByte (s : State) (j : Nat) : Byte := s.byteAt (outBase + j)

/-- `OUT_BUF[0 .. OUT_LEN-1]`, the output (R31). -/
def State.output (s : State) : List Byte := (List.range s.outLen.toNat).map s.outByte

/-- `TOK_BUF[t]` (R42). -/
def State.token (s : State) (t : Nat) : Token := s.halfAt (tokBase + 2 * t)

/-- `TOK_BUF[0 .. TOK_COUNT-1]`, the serialized tree (R28). -/
def State.tokens (s : State) : List Token := (List.range s.tokCount.toNat).map s.token

/-- `PAY_BUF[w]` (R43). -/
def State.payWord (s : State) (w : Nat) : Word := s.wordAt (payBase + 4 * w)

/-- Payload bit `i`: bit `i mod 32` of word `i div 32`, bit 0 the least significant (R101, R216). -/
def State.payBit (s : State) (i : Nat) : Bool := (s.payWord (i / 32)).getLsbD (i % 32)

/-- `OUT_BUF[j] <- b`. -/
def Memory.setOut (m : Memory) (j : Nat) (b : Byte) : Memory := m.setByte (outBase + j) b

/-- `TOK_BUF[t] <- v`. There are 511 cells: a write to a further one is dropped (R42, R67). -/
def Memory.setToken (m : Memory) (t : Nat) (v : Token) : Memory :=
  if t < tokCap then m.setHalf (tokBase + 2 * t) v else m

/-- Consecutive tokens from cell `t` upward. -/
def Memory.setTokens : Memory → Nat → List Token → Memory
  | m, _, [] => m
  | m, t, v :: vs => Memory.setTokens (m.setToken t v) (t + 1) vs

/-- `PAY_BUF[w] <- v`. -/
def Memory.setPay (m : Memory) (w : Nat) (v : Word) : Memory := m.setWord (payBase + 4 * w) v

/-! ### Tokens -/

/-- What a token stands for (R95, R96). -/
inductive TokenKind where
  | leaf (sym : Byte)
  | sentinel
  | reserved
  deriving DecidableEq, Repr

/-- R186: by its signed value, 0 to 255 a leaf, -1 the sentinel, anything else reserved. -/
def classify (v : Token) : TokenKind :=
  if 0 ≤ v.toInt ∧ v.toInt ≤ 255 then .leaf (v.setWidth 8)
  else if v.toInt = -1 then .sentinel
  else .reserved

/-- The token of a leaf: its byte, zero-extended (R95, R180). -/
def leafToken (sym : Byte) : Token := sym.setWidth 16

/-- The token of an internal node, value -1 (R95). -/
def sentinelToken : Token := 0xFFFF

/-! ### Nodes -/

/-- `NODE[k].WEIGHT`. -/
def Node.weight : Node → Word
  | .leaf _ w => w
  | .internal w _ _ => w

/-- `NODE[k].KIND == Leaf`. -/
def Node.isLeaf : Node → Bool
  | .leaf _ _ => true
  | .internal _ _ _ => false

/-- Word 0 of a node entry (R98). -/
def Node.word0 (n : Node) : Word := n.weight

/-- Word 1 of a node entry (R98): `KIND` 31, `RIGHT` 25:17, `LEFT` 16:8, `SYM` 7:0. -/
def Node.word1 : Node → Word
  | .leaf sym _ => sym.setWidth 32
  | .internal _ left right => (1#32 <<< 31) ||| (right.setWidth 32 <<< 17) ||| (left.setWidth 32 <<< 8)

/-! ### Code entries -/

/-- The entry of a symbol without a leaf (R46). -/
def CodeEntry.absent : CodeEntry := { valid := false, len := 0, bits := 0 }

/-- A path as a number, its first step in bit 0 (R99). -/
def pathNumber : List Bool → Nat
  | [] => 0
  | b :: p => b.toNat + 2 * pathNumber p

/-- The entry that records a path (R165, R167): `LEN` its length, `BITS[k]` its `k`-th step and 0 beyond. -/
def CodeEntry.ofPath (p : List Bool) : CodeEntry :=
  { valid := true, len := BitVec.ofNat 9 p.length, bits := BitVec.ofNat 256 (pathNumber p) }

/-- The path an entry holds: `BITS[0 .. LEN-1]`. -/
def CodeEntry.path (e : CodeEntry) : List Bool := (List.range e.len.toNat).map e.bits.getLsbD

/-- The word `m` of a code entry (R99): 0 the header, 1 to 8 the bits, 9 to 15 zero. -/
def CodeEntry.word (e : CodeEntry) (m : Nat) : Word :=
  if m = 0 then flagBit e.valid 31 ||| e.len.setWidth 32
  else if m ≤ 8 then e.bits.extractLsb' (32 * (m - 1)) 32
  else 0

/-- `CODE[s]`. -/
def State.codeOf (s : State) (sym : Byte) : CodeEntry := s.code.getD sym.toNat CodeEntry.absent

end Sys2Proof.Machine
end

