-- ==== Sys2Proof/Machine/CodeTable.lean ====
section
/-! DEFINITION. GENCODES, the code table generator (43_code_table.md). -/

namespace Sys2Proof.Machine

/-- `walk(k)` (R165, R166): depth first, left before right; `path` is `PATH[PLEN-1:0]`, first step first; each leaf
records a copy of the path, so the last leaf of a byte wins (R169). `fuel` bounds the depth: on an arena that R54
allows the number of nodes is enough. `none` when the walk leaves the arena or does not end. -/
def walkCodes (node : List Node) : Nat → Nat → List Bool → List CodeEntry → Option (List CodeEntry)
  | 0, _, _, _ => none
  | fuel + 1, k, path, code =>
    match node[k]? with
    | none => none
    | some (.leaf sym _) => some (code.set sym.toNat (CodeEntry.ofPath path))
    | some (.internal _ left right) =>
      match walkCodes node fuel left.toNat (path ++ [false]) code with
      | none => none
      | some code' => walkCodes node fuel right.toNat (path ++ [true]) code'

/-- The code table of a tree: no entry valid, then the walk from the root (R165). -/
def codeTableOf (node : List Node) (root : Nat) : Option (List CodeEntry) :=
  walkCodes node node.length root [] (List.replicate alphabet CodeEntry.absent)

/-- GENCODES' body (R165). A single-leaf tree is rejected (R168). -/
def gencodesBody (s : State) : Body :=
  let s1 := s.clearCodes
  match s.node[s.root.toNat]? with
  | none => .stuck .brokenArena
  | some (.leaf sym _) => .raise .singleSymbol (sym.setWidth 64) s1
  | some (.internal _ _ _) =>
    match codeTableOf s.node s.root.toNat with
    | none => .stuck .brokenArena
    | some code => .done { s1 with code := code, flags := { s1.flags with codesValid := true } }

/-- `GENCODES` (R165 to R169). -/
def execGencodes (s : State) : Host.Outcome State Fault Refusal := runCommand .gencodes gencodesBody s

end Sys2Proof.Machine
end

