-- ==== Sys2Proof/Machine/Control.lean ====
section
/-! DEFINITION. NOP, RESET and the illegal command words (47_control.md). -/

namespace Sys2Proof.Machine

/-- `NOP` (R230): an empty body; the common start clears the record of the last error. -/
def execNop (s : State) : Host.Outcome State Fault Refusal := runCommand .nop .done s

/-- Every register of R21 at 0, the block idle and the tables absent; the read-write buffers, and what is not the
block's own, as they were (R231, R278). -/
def resetRegisters (s : State) : State :=
  { s with
    run := .idle
    flags := Flags.clear
    errCode := 0
    errInfo := 0
    lastCmd := 0
    inLen := 0
    outLen := 0
    tokCount := 0
    bitCount := 0
    payWords := 0
    total := 0
    leafCount := 0
    nodeCount := 0
    root := 0
    count := []
    node := []
    code := [] }

/-- `RESET` (R231): its completion leaves `DONE` and `LASTCMD` at 0 (R125). -/
def execReset (s : State) : Host.Outcome State Fault Refusal :=
  .next (resetRegisters (startCommand (encode .reset) 0 s))

/-- A word that is no command (R122, R232): IllegalCommandError with the word, and nothing else changes. -/
def execIllegal (c : Word) (s : State) : Host.Outcome State Fault Refusal :=
  .next (raiseError .illegalCommand (c.setWidth 64) (startCommand c 0 s))

/-- The hard reset (R275, R277): the state of RESET with every cell of the buffers unwritten again, under fresh
free values; a running command is abandoned and a held access is dropped. -/
def hardReset (s : State) : State :=
  { resetRegisters s with mem := [], powerCycle := s.powerCycle + 1, held := none }

end Sys2Proof.Machine
end

