-- ==== Sys2Proof/Machine/Decoder.lean ====
section
/-! DEFINITION. DECODE, the bit-stream decoder (46_decode.md). -/

namespace Sys2Proof.Machine

/-- The locals of DECODE (R52): the memory with the bytes emitted so far, their number `OUT_LEN`, the cursor `CUR`. -/
structure DecodeLocals where
  mem : Memory
  outLen : Nat
  cur : NodeIx
  deriving DecidableEq, Repr

/-- Arriving at node `k` (R218, R222): at a leaf its byte is emitted and the cursor returns to the root, unless
`OUT_BUF` is full; elsewhere the cursor stays there. -/
def arrive (s : State) (i : Nat) (k : NodeIx) (d : DecodeLocals) : LoopEnd DecodeLocals :=
  match s.node[k.toNat]? with
  | none => .stuck .brokenArena
  | some (.internal _ _ _) => .ended { d with cur := k }
  | some (.leaf sym _) =>
    if s.cfg.outCap ≤ d.outLen then .failed .capacity i { d with cur := k }
    else .ended { mem := d.mem.setOut d.outLen sym, outLen := d.outLen + 1, cur := s.root }

/-- One bit position (R215): truncation first, then the bit is read, then the path check, then the move (R257). -/
def decodeStep (s : State) (i : Nat) (d : DecodeLocals) : LoopEnd DecodeLocals :=
  if s.payWords.toNat ≤ i / 32 then .failed .truncatedData i d
  else
    match s.node[d.cur.toNat]? with
    | none => .stuck .brokenArena
    | some (.leaf _ _) => .failed .invalidPath i d
    | some (.internal _ left right) => arrive s i (if s.payBit i then right else left) d

/-- The loop over the bit positions, `todo` of them left, `i` the next one (R215, R219). -/
def decodeLoop (s : State) : Nat → Nat → DecodeLocals → LoopEnd DecodeLocals
  | 0, _, d => .ended d
  | todo + 1, i, d =>
    match decodeStep s i d with
    | .ended d' => decodeLoop s todo (i + 1) d'
    | stop => stop

/-- How many bit positions the loop meets at most (R128): `BIT_COUNT`, or one more than the words hold, where
TruncatedDataError ends it (R220). -/
def State.bitsToRead (s : State) : Nat := min s.bitCount.toNat (32 * s.payWords.toNat + 1)

/-- `finish` (R223): what the loop leaves, and whether the cursor is away from the root. -/
def finishDecode (s1 : State) (d : DecodeLocals) : State :=
  { s1 with
    mem := d.mem
    outLen := BitVec.ofNat 32 d.outLen
    flags := { s1.flags with partialEnd := d.cur != s1.root } }

/-- DECODE's body (R215). -/
def decodeBody (s : State) : Body :=
  let s1 := { s with outLen := 0, flags := { s.flags with partialEnd := false } }
  if s.cfg.payCap < s.payWords.toNat then .raise .capacity (s.payWords.setWidth 64) s1
  else
    match decodeLoop s s.bitsToRead 0 { mem := s.mem, outLen := 0, cur := s.root } with
    | .stuck f => .stuck f
    | .failed e i d => .raise e (BitVec.ofNat 64 i) (finishDecode s1 d)
    | .ended d => .done (finishDecode s1 d)

/-- `DECODE` (R215 to R225). -/
def execDecode (s : State) : Host.Outcome State Fault Refusal := runCommand .decode decodeBody s

end Sys2Proof.Machine
end

