-- ==== Sys2Proof/Machine/Encoder.lean ====
section
/-! DEFINITION. ENCODE, the bit-stream encoder (45_encode.md). -/

namespace Sys2Proof.Machine

/-- The locals of ENCODE (R51): the memory with the words written so far, the word accumulator `ACC`, the bit
position `P`, the word index `W`. -/
structure EncodeLocals where
  mem : Memory
  acc : Word
  p : Nat
  w : Nat
  deriving DecidableEq, Repr

/-- `v[i] <- b`. -/
def setBit (v : Word) (i : Nat) (b : Bool) : Word :=
  if b then v ||| (1#32 <<< i) else v &&& ~~~(1#32 <<< i)

/-- Append one bit (R200 to R202). A word that is full is written, if `PAY_BUF` has room for it; the error
carries the locals as they are when the room is missing. -/
def pushBit (payCap : Nat) (b : Bool) (e : EncodeLocals) : Except EncodeLocals EncodeLocals :=
  let acc := setBit e.acc (e.p % 32) b
  let p := e.p + 1
  if p % 32 = 0 then
    if payCap ≤ e.w then .error e
    else .ok { mem := e.mem.setPay e.w acc, acc := 0, p := p, w := e.w + 1 }
  else .ok { e with acc := acc, p := p }

/-- Append the bits of a code in path order (R201). -/
def pushBits (payCap : Nat) : List Bool → EncodeLocals → Except EncodeLocals EncodeLocals
  | [], e => .ok e
  | b :: bs, e =>
    match pushBit payCap b e with
    | .error e' => .error e'
    | .ok e' => pushBits payCap bs e'

/-- The loop over the input bytes, `todo` of them left, `j` the index of the next (R200, R205, R207). -/
def encodeLoop (s : State) : Nat → Nat → EncodeLocals → LoopEnd EncodeLocals
  | 0, _, e => .ended e
  | todo + 1, j, e =>
    let entry := s.codeOf (s.inByte j)
    if entry.valid then
      match pushBits s.cfg.payCap entry.path e with
      | .error e' => .failed .capacity j e'
      | .ok e' => encodeLoop s todo (j + 1) e'
    else .failed .noCode j e

/-- The low `m` bits of a word set, the others clear. -/
def lowMask (m : Nat) : Word := BitVec.ofNat 32 (2 ^ m - 1)

/-- `pad(ACC, m)` (R206): bits `m-1:0` from the accumulator, bits `31:m` from the padding. -/
def padWord (acc : Word) (m : Nat) (padding : Word) : Word := (acc &&& lowMask m) ||| (padding &&& ~~~(lowMask m))

/-- `PAD_BITS` for the next partial last word: the next choice, or HUFFCORE-1's zeros (R8, R206, log 3). -/
def State.padBits (s : State) : Word := s.padChoices.headD 0

/-- After the loop (R203, R206, R207): a partly filled word is written, padded; then the counts. -/
def encodeEnd (s1 : State) (e : EncodeLocals) : Body :=
  if e.p % 32 = 0 then
    .done { s1 with mem := e.mem, bitCount := BitVec.ofNat 64 e.p, payWords := BitVec.ofNat 32 e.w }
  else if s1.cfg.payCap ≤ e.w then .raise .capacity (s1.inLen.setWidth 64) { s1 with mem := e.mem }
  else
    .done { s1 with
      mem := e.mem.setPay e.w (padWord e.acc (e.p % 32) s1.padBits)
      padChoices := s1.padChoices.tail
      bitCount := BitVec.ofNat 64 e.p
      payWords := BitVec.ofNat 32 (e.w + 1) }

/-- ENCODE's body (R200). -/
def encodeBody (s : State) : Body :=
  let s1 := { s with bitCount := 0, payWords := 0 }
  if s.cfg.inCap < s.inLen.toNat then .raise .capacity (s.inLen.setWidth 64) s1
  else
    match encodeLoop s s.inLen.toNat 0 { mem := s.mem, acc := 0, p := 0, w := 0 } with
    | .stuck f => .stuck f
    | .failed e j x => .raise e (BitVec.ofNat 64 j) { s1 with mem := x.mem }
    | .ended x => encodeEnd s1 x

/-- `ENCODE` (R200 to R209). -/
def execEncode (s : State) : Host.Outcome State Fault Refusal := runCommand .encode encodeBody s

end Sys2Proof.Machine
end

