-- ==== Sys2Proof/Machine/Frequency.lean ====
section
/-! DEFINITION. FREQ, the frequency counter (41_frequency.md). -/

namespace Sys2Proof.Machine

/-- One step of the count: `COUNT[s] <- COUNT[s] + 1` (R135). -/
def countStep (count : List Word) (b : Byte) : List Word := count.set b.toNat (count.getD b.toNat 0 + 1)

/-- The counts of a byte sequence: 256 zeros, then one step per byte in order (R135, R140). -/
def countBytes (x : List Byte) : List Word := x.foldl countStep (List.replicate alphabet 0)

/-- FREQ's body (R135). -/
def freqBody (s : State) : Body :=
  let s1 := s.clearFreq
  if s.cfg.inCap < s.inLen.toNat then .raise .capacity (s.inLen.setWidth 64) s1
  else if s.inLen = 0 then .raise .emptyInput 0 s1
  else .done { s1 with count := countBytes s.input, total := s.inLen, flags := { s1.flags with freqValid := true } }

/-- `FREQ` (R135 to R140). -/
def execFreq (s : State) : Host.Outcome State Fault Refusal := runCommand .freq freqBody s

end Sys2Proof.Machine
end

