-- ==== Sys2Proof/Machine/Serializer.lean ====
section
/-! DEFINITION. SERIALIZE and DESERIALIZE, the tree as a post-order token stream (44_serialize.md). -/

namespace Sys2Proof.Machine

/-- `emit(k)` (R180, R181): the tokens of the left subtree, of the right subtree, then the node's own. `fuel` bounds
the depth, as in GENCODES; `none` when the walk leaves the arena or does not end. -/
def emitTokens (node : List Node) : Nat → Nat → Option (List Token)
  | 0, _ => none
  | fuel + 1, k =>
    match node[k]? with
    | none => none
    | some (.leaf sym _) => some [leafToken sym]
    | some (.internal _ left right) =>
      match emitTokens node fuel left.toNat with
      | none => none
      | some l =>
        match emitTokens node fuel right.toNat with
        | none => none
        | some r => some (l ++ r ++ [sentinelToken])

/-- SERIALIZE's body (R180): the tokens go to the cells from 0 upward, the others keep their contents. -/
def serializeBody (s : State) : Body :=
  match emitTokens s.node s.node.length s.root.toNat with
  | none => .stuck .brokenArena
  | some toks => .done { s with mem := s.mem.setTokens 0 toks, tokCount := BitVec.ofNat 64 toks.length }

/-- `SERIALIZE` (R180 to R182). -/
def execSerialize (s : State) : Host.Outcome State Fault Refusal := runCommand .serialize serializeBody s

/-- The locals of DESERIALIZE (R49, R185): the arena so far (`n` is its length), the stack, its top first, and the
number of leaves. -/
structure DeserializeLocals where
  node : List Node
  stk : List Nat
  leaves : Nat
  deriving DecidableEq, Repr

/-- One token (R185 to R187, R189): a leaf is pushed; the sentinel pops the right child, then the left, and pushes
their parent. `none` where the token is malformed; nothing is popped then. -/
def deserializeStep (v : Token) (d : DeserializeLocals) : Option DeserializeLocals :=
  match classify v with
  | .leaf sym =>
    some { node := d.node ++ [.leaf sym 0], stk := d.node.length :: d.stk, leaves := d.leaves + 1 }
  | .sentinel =>
    match d.stk with
    | r :: l :: rest =>
      some { node := d.node ++ [.internal 0 (BitVec.ofNat 9 l) (BitVec.ofNat 9 r)], stk := d.node.length :: rest, leaves := d.leaves }
    | _ => none
  | .reserved => none

/-- The loop over the tokens, `t` the index of the next one (R185). -/
def deserializeLoop : List Token → Nat → DeserializeLocals → LoopEnd DeserializeLocals
  | [], _, d => .ended d
  | v :: vs, t, d =>
    match deserializeStep v d with
    | none => .failed .malformedTree t d
    | some d' => deserializeLoop vs (t + 1) d'

/-- DESERIALIZE's body (R185, R188, R190). -/
def deserializeBody (s : State) : Body :=
  let s1 := s.clearTree
  if tokCap < s.tokCount.toNat then .raise .capacity s.tokCount s1
  else
    match deserializeLoop s.tokens 0 { node := [], stk := [], leaves := 0 } with
    | .stuck f => .stuck f
    | .failed e t _ => .raise e (BitVec.ofNat 64 t) s1
    | .ended d =>
      match d.stk with
      | [r] => .done (s1.installTree d.node d.leaves r)
      | _ => .raise .malformedTree s.tokCount s1

/-- `DESERIALIZE` (R185 to R190). -/
def execDeserialize (s : State) : Host.Outcome State Fault Refusal := runCommand .deserialize deserializeBody s

end Sys2Proof.Machine
end

