-- ==== Sys2Proof/Machine/TreeBuild.lean ====
section
/-! DEFINITION. BUILD, the Huffman tree builder (42_tree_build.md). -/

namespace Sys2Proof.Machine

/-- Step 1 (R151): one leaf per byte value with a nonzero count, in ascending byte value, its weight the count. -/
def leavesOf (count : List Word) : List Node :=
  (List.range alphabet).filterMap fun sym =>
    if count.getD sym 0 = 0 then none else some (.leaf (BitVec.ofNat 8 sym) (count.getD sym 0))

/-- The weight of the node at an arena index. -/
def weightAt (node : List Node) (k : Nat) : Word := ((node[k]?).map Node.weight).getD 0

/-- The priority order (R152): by weight, then by arena index. -/
def precedes (node : List Node) (x y : Nat) : Bool :=
  decide ((weightAt node x).toNat < (weightAt node y).toNat)
    || (weightAt node x == weightAt node y && decide (x < y))

/-- The member of the queue that precedes all others. -/
def minMember (node : List Node) : List Nat → Option Nat
  | [] => none
  | x :: pq =>
    match minMember node pq with
    | none => some x
    | some y => if precedes node x y then some x else some y

/-- `extract_min` (R48, R152): the least member, and the queue without it. -/
def extractMin (node : List Node) (pq : List Nat) : Option (Nat × List Nat) :=
  (minMember node pq).map fun m => (m, pq.erase m)

/-- One merge (R153): the two least members become the left and the right child of a new node, which joins the
queue. `none` when there are not two. -/
def mergeStep (node : List Node) (pq : List Nat) : Option (List Node × List Nat) :=
  match extractMin node pq with
  | none => none
  | some (a, pq1) =>
    match extractMin node pq1 with
    | none => none
    | some (b, pq2) =>
      some (node ++ [.internal (weightAt node a + weightAt node b) (BitVec.ofNat 9 a) (BitVec.ofNat 9 b)],
        pq2 ++ [node.length])

/-- Step 2 (R153): while more than one member remains, merge. Each merge leaves one member fewer, so `fuel`, the
number of members at the start, bounds the merges (R128). -/
def mergeLoop : Nat → List Node → List Nat → List Node × List Nat
  | 0, node, pq => (node, pq)
  | fuel + 1, node, pq =>
    match mergeStep node pq with
    | none => (node, pq)
    | some (node', pq') => mergeLoop fuel node' pq'

/-- BUILD's body (R150). -/
def buildBody (s : State) : Body :=
  let s1 := s.clearTree
  let leaves := leavesOf s.count
  let merged := mergeLoop leaves.length leaves (List.range leaves.length)
  match extractMin merged.1 merged.2 with
  | none => .stuck .emptyQueue
  | some (r, _) => .done (s1.installTree merged.1 leaves.length r)

/-- `BUILD` (R150 to R157). -/
def execBuild (s : State) : Host.Outcome State Fault Refusal := runCommand .build buildBody s

end Sys2Proof.Machine
end

