-- ==== Sys2Proof/Machine/HostPort.lean ====
section
/-! DEFINITION. The host port (20_memory.md): the address map, reads and writes with their gates, the issue of a command,
the hold while the block is busy, and what each step does with the outside world's list. -/

namespace Sys2Proof.Machine

/-! ### The address map (R61) -/

/-- The register words of R21, in address order. -/
inductive Reg where
  | cmd | status | errCode | lastCmd | errInfoLo | errInfoHi | inLen | outLen | tokCountLo | tokCountHi
  | bitCountLo | bitCountHi | payWords | total | leafCount | nodeCount | root
  deriving DecidableEq, Repr

/-- R21's table: register word `n` is at byte address `4n`. -/
def regTable : List Reg :=
  [.cmd, .status, .errCode, .lastCmd, .errInfoLo, .errInfoHi, .inLen, .outLen, .tokCountLo, .tokCountHi,
    .bitCountLo, .bitCountHi, .payWords, .total, .leafCount, .nodeCount, .root]

/-- The address of `CMD` (R22). -/
def cmdAddr : Nat := 0x000000

/-- The address of `STATUS` (R23). -/
def statusAddr : Nat := 0x000004

/-- What a mapped, aligned address is (R61): a register; word 0 or 1 of a node entry; word `m` of a code entry; the
`k`-th word of a byte or token buffer; a payload word. -/
inductive Place where
  | reg (r : Reg)
  | count (sym : Nat)
  | node (k : Nat) (word : Nat)
  | code (sym : Nat) (m : Nat)
  | tok (k : Nat)
  | inBuf (k : Nat)
  | outBuf (k : Nat)
  | pay (w : Nat)
  deriving DecidableEq, Repr

/-- `a` lies in the `size` bytes from `base`. -/
def inWindow (a base size : Nat) : Bool := decide (base ≤ a) && decide (a < base + size)

/-- The place of an address, or `none`: misaligned, beyond 23 bits or unmapped (R61, R63). -/
def locate (cfg : Config) (a : Nat) : Option Place :=
  if a % 4 ≠ 0 ∨ 2 ^ 23 ≤ a then none
  else if a < 0x001000 then (regTable[a / 4]?).map .reg
  else if inWindow a 0x001000 0x400 then some (.count ((a - 0x001000) / 4))
  else if inWindow a 0x002000 0x1000 then some (.node ((a - 0x002000) / 8) ((a - 0x002000) % 8 / 4))
  else if inWindow a 0x004000 0x4000 then some (.code ((a - 0x004000) / 64) ((a - 0x004000) % 64 / 4))
  else if inWindow a tokBase 0x400 then some (.tok ((a - tokBase) / 4))
  else if inWindow a inBase cfg.inCap then some (.inBuf ((a - inBase) / 4))
  else if inWindow a outBase cfg.outCap then some (.outBuf ((a - outBase) / 4))
  else if inWindow a payBase (4 * cfg.payCap) then some (.pay ((a - payBase) / 4))
  else none

/-! ### Reads -/

/-- A host read of a register word (R21 to R35); `CMD` reads as 0 (R22). -/
def regRead (s : State) : Reg → Word
  | .cmd => 0
  | .status => s.statusWord
  | .errCode => s.errCode.setWidth 32
  | .lastCmd => s.lastCmd
  | .errInfoLo => s.errInfo.extractLsb' 0 32
  | .errInfoHi => s.errInfo.extractLsb' 32 32
  | .inLen => s.inLen
  | .outLen => s.outLen
  | .tokCountLo => s.tokCount.extractLsb' 0 32
  | .tokCountHi => s.tokCount.extractLsb' 32 32
  | .bitCountLo => s.bitCount.extractLsb' 0 32
  | .bitCountHi => s.bitCount.extractLsb' 32 32
  | .payWords => s.payWords
  | .total => s.total
  | .leafCount => s.leafCount.setWidth 32
  | .nodeCount => s.nodeCount.setWidth 32
  | .root => s.root.setWidth 32

/-- `COUNT[sym]` through its gate (R69). -/
def readCount (s : State) (sym : Nat) : Word := if s.flags.freqValid then s.count.getD sym 0 else 0

/-- A word of `NODE[k]` through its gate (R70). -/
def readNode (s : State) (k word : Nat) : Word :=
  if s.flags.treeValid && decide (k < s.nodeCount.toNat) then
    match s.node[k]? with
    | none => 0
    | some n => if word = 0 then n.word0 else n.word1
  else 0

/-- A word of `CODE[sym]` through its gate (R71). -/
def readCode (s : State) (sym m : Nat) : Word :=
  if s.flags.codesValid then (s.code.getD sym CodeEntry.absent).word m else 0

/-- A word of `TOK_BUF` (R67): tokens `2k` and `2k+1`; slot 511 does not exist and reads as 0. -/
def readTok (s : State) (k : Nat) : Word :=
  (if 2 * k + 1 < tokCap then s.token (2 * k + 1) else (0 : Token)) ++ s.token (2 * k)

/-- One byte of `OUT_BUF` through its gate (R66). -/
def readOutByte (s : State) (j : Nat) : Byte := if j < s.outLen.toNat then s.outByte j else 0

/-- A word of `OUT_BUF`, each byte gated (R66). -/
def readOut (s : State) (k : Nat) : Word :=
  wordOf (readOutByte s (4 * k + 3)) (readOutByte s (4 * k + 2)) (readOutByte s (4 * k + 1)) (readOutByte s (4 * k))

/-- A host read of a place. No read changes anything (R72). -/
def readPlace (s : State) : Place → Word
  | .reg r => regRead s r
  | .count sym => readCount s sym
  | .node k word => readNode s k word
  | .code sym m => readCode s sym m
  | .tok k => readTok s k
  | .inBuf k => s.wordAt (inBase + 4 * k)
  | .outBuf k => readOut s k
  | .pay w => s.payWord w

/-- `HostRead(a)` of an idle block (R62): `OK` with a word, or `ERR` (R63). -/
def hostRead (s : State) (a : Nat) : Option Word := (locate s.cfg a).map (readPlace s)

/-! ### Writes -/

/-- A 64-bit register with its low word replaced (R21). -/
def withLo (q : Quad) (v : Word) : Quad := q.extractLsb' 32 32 ++ v

/-- A 64-bit register with its high word replaced (R21). -/
def withHi (q : Quad) (v : Word) : Quad := v ++ q.extractLsb' 0 32

/-- Issue a command (R120, R121): the block becomes busy, for as long as the next duration choice says (U3, log 2). -/
def issueCommand (c : Word) (s : State) : State :=
  { startCommand c (s.durationChoices.headD 0) s with durationChoices := s.durationChoices.tail }

/-- A host write of a register word: read-write registers store it (R64), `CMD` issues it (R22), a write to a
read-only register is ignored (R64). -/
def regWrite (s : State) (v : Word) : Reg → State
  | .cmd => issueCommand v s
  | .inLen => { s with inLen := v }
  | .tokCountLo => { s with tokCount := withLo s.tokCount v }
  | .tokCountHi => { s with tokCount := withHi s.tokCount v }
  | .bitCountLo => { s with bitCount := withLo s.bitCount v }
  | .bitCountHi => { s with bitCount := withHi s.bitCount v }
  | .payWords => { s with payWords := v }
  | .status | .errCode | .lastCmd | .errInfoLo | .errInfoHi | .outLen | .total | .leafCount | .nodeCount | .root => s

/-- A host write of a place: the read-write buffers store it (R65, R67, R68), the read-only windows ignore it (R64). -/
def writePlace (s : State) (v : Word) : Place → State
  | .reg r => regWrite s v r
  | .count _ => s
  | .node _ _ => s
  | .code _ _ => s
  | .outBuf _ => s
  | .tok k =>
    { s with mem := (s.mem.setToken (2 * k) (v.extractLsb' 0 16)).setToken (2 * k + 1) (v.extractLsb' 16 16) }
  | .inBuf k => { s with mem := s.mem.setWord (inBase + 4 * k) v }
  | .pay w => { s with mem := s.mem.setPay w v }

/-- `HostWrite(a, v)` to an idle block (R62): `OK` with the state it leaves, or `ERR` (R63). -/
def hostWrite (s : State) (a : Nat) (v : Word) : Option State := (locate s.cfg a).map (writePlace s v)

/-! ### The port -/

/-- The port answers an access. -/
def answer (r : Reply) (s : State) : State := { s with replies := s.replies ++ [r] }

/-- An access to an idle block takes effect and completes (R62, R75). A bus error changes nothing else (R63). -/
def performAccess (x : Access) (s : State) : State :=
  match x with
  | .read a =>
    match hostRead s a with
    | some v => answer (.okRead v) s
    | none => answer .err s
  | .write a v =>
    match hostWrite s a v with
    | some s' => answer .okWrite s'
    | none => answer .err s

/-- A step of an idle block: an access that was held completes first, as if issued now (R73); else the next thing
the outside world does; with nothing to do the block waits and keeps its state (R266). -/
def idleStep (s : State) : State :=
  match s.held with
  | some x => performAccess x { s with held := none }
  | none =>
    match s.port with
    | [] => s
    | .hardReset :: rest => hardReset { s with port := rest }
    | .access x :: rest => performAccess x { s with port := rest }

/-- A step of a block busy with `c` that does not complete it yet, `left` more to come: a hard reset abandons the
command (R277); a `STATUS` read gets exactly 1 (R127); any other access is held, and the host waits on it (R73). -/
def busyStep (c : Word) (left : Nat) (s : State) : State :=
  match s.port with
  | .hardReset :: rest => hardReset { s with port := rest }
  | .access x :: rest =>
    match s.held with
    | some _ => { s with run := .busy c left }
    | none =>
      if x = .read statusAddr then answer (.okRead 1) { s with run := .busy c left, port := rest }
      else { s with run := .busy c left, port := rest, held := some x }
  | [] => { s with run := .busy c left }

end Sys2Proof.Machine
end

