-- ==== Sys2Proof/Machine/Step.lean ====
section
/-! DEFINITION. One step of the machine: the block completes the command it is busy with, or the outside world acts
(40_command_dispatch.md R120, R127). There is no program counter (10_state.md R37): the block's next instruction is the command
word it is busy with. -/

namespace Sys2Proof.Machine

/-- The whole of a command word (R120): the decode check (R122), then the command. -/
def execWord (c : Word) (s : State) : Host.Outcome State Fault Refusal :=
  match decode c with
  | .ok i => exec i s
  | .error _ => execIllegal c s

/-- One step. A busy block whose time is up runs its command, whole; otherwise one thing happens at the port. -/
def step (s : State) : Host.Outcome State Fault Refusal :=
  match s.run with
  | .busy c 0 => execWord c s
  | .busy c (left + 1) => .next (busyStep c left s)
  | .idle => .next (idleStep s)

/-- The state whose very next step runs the command word of a table row: the block is busy with it and its time is
up, as after the host's write of the word to `CMD` (log 8). -/
def State.withFetchWord (s : State) (nbits w : Nat) : State := { s with run := .busy (tableWord nbits w) 0 }

end Sys2Proof.Machine
end

