-- ==== Sys2Proof/Machine/HostSequences.lean ====
section
/-! DEFINITION. What the host does with the block (47_control.md): the notation of host programs (30_encoding.md R105), the
sequences COMPRESS and DECOMPRESS (R236, R237) and the compressed file (R103, R238, R239). -/

namespace Sys2Proof.Machine

/-! ### Host programs (R105) -/

/-- One line of a host program (R105). A mnemonic line also polls `STATUS` until `BUSY` is 0. -/
inductive HostLine where
  | wr (a : Nat) (v : Word)
  | rd (a : Nat)
  | command (i : Instr)
  deriving DecidableEq, Repr

/-- The first accesses of a line: a mnemonic is the write of its word to `CMD` (R91, R105) and a read of `STATUS`,
which the host repeats while it reads 1. -/
def HostLine.accesses : HostLine → List Access
  | .wr a v => [.write a v]
  | .rd a => [.read a]
  | .command i => [.write cmdAddr (encode i), .read statusAddr]

/-- A line carried out on an idle block. A command runs from its issue to its completion; the polls of `STATUS`
change nothing (R72) and are left out of the replies. -/
def runLine (l : HostLine) (s : State) : Host.Outcome State Fault Refusal :=
  match l with
  | .wr a v => .next (performAccess (.write a v) s)
  | .rd a => .next (performAccess (.read a) s)
  | .command i => exec i (answer .okWrite (issueCommand (encode i) s))

/-- A command line has failed: the host reads `ERR` after its completion (R236). -/
def HostLine.failed (l : HostLine) (s : State) : Bool :=
  match l with
  | .command _ => s.flags.err
  | .wr _ _ | .rd _ => false

/-- The host carries out the lines in order and stops after a command that failed (R236). -/
def runLines : List HostLine → State → Host.Outcome State Fault Refusal
  | [], s => .next s
  | l :: ls, s =>
    match runLine l s with
    | .next s' => if l.failed s' then .next s' else runLines ls s'
    | stop => stop

/-- Four bytes to a word, the first in the low bits, a last partial word filled with zero elements (R65, R105). -/
def packBytes : List Byte → List Word
  | [] => []
  | [b0] => [wordOf 0 0 0 b0]
  | [b0, b1] => [wordOf 0 0 b1 b0]
  | [b0, b1, b2] => [wordOf 0 b2 b1 b0]
  | b0 :: b1 :: b2 :: b3 :: bs => wordOf b3 b2 b1 b0 :: packBytes bs

/-- Two tokens to a word, the first in the low half (R67, R105). -/
def packTokens : List Token → List Word
  | [] => []
  | [t0] => [(0 : Token) ++ t0]
  | t0 :: t1 :: ts => (t1 ++ t0) :: packTokens ts

/-- `LOAD` of words from an address upward (R105). -/
def loadLines (base : Nat) (ws : List Word) : List HostLine := ws.mapIdx fun k w => .wr (base + 4 * k) w

/-- `WR` of a 64-bit register, `_LO` then `_HI` (R105). -/
def quadLines (a : Nat) (q : Quad) : List HostLine := [.wr a (q.extractLsb' 0 32), .wr (a + 4) (q.extractLsb' 32 32)]

def inLenAddr : Nat := 0x000018
def tokCountAddr : Nat := 0x000020
def bitCountAddr : Nat := 0x000028
def payWordsAddr : Nat := 0x000030

/-- A number of elements as the host writes it to a 32-bit register, `IN_LEN` (R27) or `PAY_WORDS` (R30). Of a number
that 32 bits do not hold the host writes the largest value they do: it lies above every capacity, so that the command
still fails with CapacityError, as R236 and R30 say. Which value is written then is the model's choice (log 18). -/
def lengthWord (n : Nat) : Word := BitVec.ofNat 32 (min n 0xFFFFFFFF)

/-- The expansion of `COMPRESS(x)` (R236). The host loads the elements `IN_BUF` has cells for (log 18); the length it
writes is that of `x`. -/
def compressLines (cfg : Config) (x : List Byte) : List HostLine :=
  loadLines inBase (packBytes (x.take cfg.inCap)) ++ [.wr inLenAddr (lengthWord x.length)]
    ++ [.command .freq, .command .build, .command .gencodes, .command .serialize, .command .encode]

/-! ### The compressed file (R103) -/

/-- The fields of the file, each in its own width (R103, R104). -/
structure CompressedFile where
  treeTokenCount : Quad
  treeTokens : List Token
  totalBitCount : Quad
  packedWords : List Word
  deriving DecidableEq, Repr

/-- The first `n` bytes of a number, least significant first (R103). -/
def leBytes : Nat → Nat → List Byte
  | 0, _ => []
  | n + 1, v => BitVec.ofNat 8 v :: leBytes n (v / 256)

/-- The number whose bytes, least significant first, these are (R103). -/
def leNumber : List Byte → Nat
  | [] => 0
  | b :: bs => b.toNat + 256 * leNumber bs

/-- The file's bytes in order (R103). -/
def CompressedFile.bytes (f : CompressedFile) : List Byte :=
  leBytes 8 f.treeTokenCount.toNat ++ f.treeTokens.flatMap (fun t => leBytes 2 t.toNat)
    ++ leBytes 8 f.totalBitCount.toNat ++ f.packedWords.flatMap (fun w => leBytes 4 w.toNat)

/-- What the host writes after a successful COMPRESS (R238): the two counts, the first `2 × TOK_COUNT` bytes of the
token window, the first `4 × PAY_WORDS` bytes of the payload window. -/
def fileOf (s : State) : CompressedFile :=
  { treeTokenCount := s.tokCount
    treeTokens := s.tokens
    totalBitCount := s.bitCount
    packedWords := (List.range s.payWords.toNat).map s.payWord }

/-- `n` complete elements of `size` bytes each, or as many as there are. -/
def splitElements (size : Nat) : Nat → List Byte → List Nat
  | 0, _ => []
  | n + 1, bs => if bs.length < size then [] else leNumber (bs.take size) :: splitElements size n (bs.drop size)

/-- The number of words of a payload of so many bits (R102). -/
def wordsFor (bits : Nat) : Nat := (bits + 31) / 32

/-- How the host reads a file (R239). A file cut before the packed words is none (log 12); of the packed words the
host takes as many complete ones as the file holds, at most `ceil(totalBitCount/32)`. -/
def parseFile (bs : List Byte) : Option CompressedFile :=
  if bs.length < 8 then none
  else
    let count := leNumber (bs.take 8)
    let rest := bs.drop 8
    if rest.length < 2 * count + 8 then none
    else
      let bits := leNumber ((rest.drop (2 * count)).take 8)
      some
        { treeTokenCount := BitVec.ofNat 64 count
          treeTokens := (splitElements 2 count rest).map (BitVec.ofNat 16)
          totalBitCount := BitVec.ofNat 64 bits
          packedWords := (splitElements 4 (wordsFor bits) (rest.drop (2 * count + 8))).map (BitVec.ofNat 32) }

/-- The expansion of `DECOMPRESS(file)` (R237, R239). Of a file with more than 511 tokens the host loads the first
511 and lets DESERIALIZE report the count (log 12); of more words than `PAY_BUF` has cells it loads those that fit, and
lets DECODE report the number, which is `lengthWord`'s when 32 bits do not hold it (log 18). -/
def decompressLines (cfg : Config) (f : CompressedFile) : List HostLine :=
  loadLines tokBase (packTokens (f.treeTokens.take tokCap)) ++ quadLines tokCountAddr f.treeTokenCount
    ++ [.command .deserialize] ++ loadLines payBase (f.packedWords.take cfg.payCap) ++ quadLines bitCountAddr f.totalBitCount
    ++ [.wr payWordsAddr (lengthWord f.packedWords.length), .command .decode]

/-- The file of `COMPRESS(x)`: none when a stage failed (R236). -/
def compress (x : List Byte) (s : State) : Option (List Byte) :=
  match runLines (compressLines s.cfg x) s with
  | .next t => if t.flags.err then none else some (fileOf t).bytes
  | _ => none

/-- The output of `DECOMPRESS(file)`: none when a stage failed, since no partial output may pass for the whole
(R237, R267). -/
def decompress (bs : List Byte) (s : State) : Option (List Byte) :=
  match parseFile bs with
  | none => none
  | some f =>
    match runLines (decompressLines s.cfg f) s with
    | .next t => if t.flags.err then none else some t.output
    | _ => none

end Sys2Proof.Machine
end

