-- ==== Sys2Proof/Safety.lean ====
section
/-! DEFINITION. The terms claims are stated in: the tree as a value (00_scope.md R12) with its serialization, codes and
decoding, the invariants of a valid arena (10_state.md R54), and `State.Inv`, which holds at reset and which every
step keeps. -/

namespace Sys2Proof.Machine

/-! ### The tree as a value -/

/-- A Huffman tree without its numbering and weights: what the token stream carries (R12, R97). -/
inductive HTree where
  | leaf (sym : Byte)
  | node (left right : HTree)
  deriving DecidableEq, Repr

/-- `ser` of R97: post-order, left subtree first, the sentinel for an internal node. -/
def HTree.ser : HTree → List Token
  | .leaf sym => [leafToken sym]
  | .node l r => l.ser ++ r.ser ++ [sentinelToken]

/-- The leaves, left to right, each with the path to it below `path`, first step first (R166). -/
def HTree.leafPaths : HTree → List Bool → List (Byte × List Bool)
  | .leaf sym, path => [(sym, path)]
  | .node l r, path => l.leafPaths (path ++ [false]) ++ r.leafPaths (path ++ [true])

/-- Where a path leads, bit 0 = left, bit 1 = right (R12, R166). -/
def HTree.follow : HTree → List Bool → Option HTree
  | t, [] => some t
  | .leaf _, _ :: _ => none
  | .node l r, b :: p => (if b then r else l).follow p

/-- The code of a byte in a tree (R169): the path to the last of its leaves, in the order of the traversal. -/
def HTree.codeOf (t : HTree) (sym : Byte) : Option (List Bool) :=
  (((t.leafPaths []).filter fun x => x.1 == sym).getLast?).map Prod.snd

/-- The height of DESERIALIZE's stack after reading tokens from height `n` (R185): a leaf adds one, a sentinel takes
two and adds one. `none` when a token is malformed: reserved (R186), or a sentinel over fewer than two (R187). -/
def tokenDepth : List Token → Nat → Option Nat
  | [], n => some n
  | v :: vs, n =>
    match classify v with
    | .leaf _ => tokenDepth vs (n + 1)
    | .sentinel => if 2 ≤ n then tokenDepth vs (n - 1) else none
    | .reserved => none

/-- The number of leaves. -/
def HTree.leafCount : HTree → Nat
  | .leaf _ => 1
  | .node l r => l.leafCount + r.leafCount

/-- Whether the tree is a single leaf (R156, R168). -/
def HTree.isLeaf : HTree → Bool
  | .leaf _ => true
  | .node _ _ => false

/-- Decode bits from a cursor below `root` (R215 to R219): the bytes emitted, and where the cursor ends. A cursor on
a leaf takes no step (R221). -/
def HTree.decodeFrom (root : HTree) : HTree → List Bool → List Byte × HTree
  | cur, [] => ([], cur)
  | .leaf sym, _ :: _ => ([], .leaf sym)
  | .node l r, b :: bs =>
    match if b then r else l with
    | .leaf sym => (sym :: (root.decodeFrom root bs).1, (root.decodeFrom root bs).2)
    | .node l' r' => root.decodeFrom (.node l' r') bs

/-- Read the tree below an arena index. `fuel` bounds the depth; `none` when the arena holds no tree there. -/
def treeFrom (node : List Node) : Nat → Nat → Option HTree
  | 0, _ => none
  | fuel + 1, k =>
    match node[k]? with
    | none => none
    | some (.leaf sym _) => some (.leaf sym)
    | some (.internal _ left right) =>
      match treeFrom node fuel left.toNat, treeFrom node fuel right.toNat with
      | some l, some r => some (.node l r)
      | _, _ => none

/-- The tree an arena holds below its root. -/
def treeOf (node : List Node) (root : Nat) : Option HTree := treeFrom node node.length root

/-- The tree now in the block. -/
def State.tree (s : State) : Option HTree := treeOf s.node s.root.toNat

/-- The payload bits of a byte sequence under the code table now in the block: the codes in order, each in path
order (R101, R201). -/
def State.codeBits (s : State) (x : List Byte) : List Bool := x.flatMap fun b => (s.codeOf b).path

/-- The first `n` payload bits, in the order they are consumed (R216). -/
def State.payBits (s : State) (n : Nat) : List Bool := (List.range n).map s.payBit

/-! ### The two ends of a command -/

/-- `s` after the command `i` has succeeded without writing anything of its own (R121, R125). -/
def State.succeeded (i : Instr) (s : State) : State :=
  { s with
    run := .idle
    flags := { s.flags with done := true, err := false }
    errCode := 0
    errInfo := 0
    lastCmd := encode i }

/-- `s` after the command `i` has failed with `e` and `info` without writing anything of its own (R121, R126). -/
def State.failed (i : Instr) (e : Err) (info : Quad) (s : State) : State :=
  { s with
    run := .idle
    flags := { s.flags with done := true, err := true }
    errCode := e.code
    errInfo := info
    lastCmd := encode i }

/-- What R55 says of the state after either reset: the block idle, every register of R21 0, and the tables and
`OUT_BUF` reading as 0 everywhere through their gates. -/
def State.AtReset (s : State) : Prop :=
  s.run = .idle ∧ (∀ r, regRead s r = 0) ∧ (∀ sym, readCount s sym = 0) ∧ (∀ k word, readNode s k word = 0) ∧
    (∀ sym m, readCode s sym m = 0) ∧ ∀ k, readOut s k = 0

/-! ### The invariants of a valid arena (R54) -/

/-- The arena indices a node names as children. -/
def Node.children : Node → List Nat
  | .leaf _ _ => []
  | .internal _ left right => [left.toNat, right.toNat]

/-- The token a node stands for (R97). -/
def Node.token : Node → Token
  | .leaf sym _ => leafToken sym
  | .internal _ _ _ => sentinelToken

/-- Every index named as a child, once per naming. -/
def childList (node : List Node) : List Nat := node.flatMap Node.children

/-- R54 (b) and (d) at index `k`: the children come before their parent and differ, and its weight is their sum. -/
def nodeOk (node : List Node) (k : Nat) : Bool :=
  match node[k]? with
  | some (.internal w left right) =>
    decide (left.toNat < k) && decide (right.toNat < k) && left != right
      && w == weightAt node left.toNat + weightAt node right.toNat
  | _ => true

/-- R54 (a) to (d). Single ownership (c) is that the children named, counted with repetition, are exactly the
indices other than the root. -/
structure ArenaOk (node : List Node) (leafCount nodeCount root : Nat) : Prop where
  size : node.length = nodeCount
  rootLast : root + 1 = nodeCount
  leaves : leafCount = node.countP Node.isLeaf
  twice : nodeCount + 1 = 2 * leafCount
  bound : leafCount ≤ alphabet
  nodes : ∀ k, k < node.length → nodeOk node k = true
  owner : (childList node).Perm (List.range root)

/-- The members of BUILD's queue when `NODE[k]` is created (R48): the nodes before it that are no child yet. -/
def queueAt (node : List Node) (k : Nat) : List Nat :=
  (List.range k).filter fun x => !(childList (node.take k)).contains x

/-- The merge that created `NODE[k]`, if it is internal, is the greedy one (R152, R153): its left child precedes every
other member of the queue, its right child every member but the left one. -/
def mergeOk (node : List Node) (k : Nat) : Prop :=
  match node[k]? with
  | some (.internal _ left right) =>
    left.toNat ∈ queueAt node k ∧ right.toNat ∈ queueAt node k ∧ left ≠ right ∧
      (∀ x ∈ queueAt node k, x ≠ left.toNat → precedes node left.toNat x = true) ∧
      (∀ x ∈ queueAt node k, x ≠ left.toNat → x ≠ right.toNat → precedes node right.toNat x = true)
  | _ => True

/-! ### The invariant of every run -/

/-- A byte address is in the storage of one of the four buffers (R61; `TOK_BUF` has 511 cells). -/
def inStorage (cfg : Config) (a : Nat) : Bool :=
  inWindow a tokBase (2 * tokCap) || inWindow a inBase cfg.inCap || inWindow a outBase cfg.outCap
    || inWindow a payBase (4 * cfg.payCap)

/-- The listed ranges of R61. -/
def mapped (cfg : Config) (a : Nat) : Prop :=
  a < 0x000044 ∨ (0x001000 ≤ a ∧ a < 0x001400) ∨ (0x002000 ≤ a ∧ a < 0x003000) ∨ (0x004000 ≤ a ∧ a < 0x008000) ∨
    (0x008000 ≤ a ∧ a < 0x008400) ∨ (0x100000 ≤ a ∧ a < 0x100000 + cfg.inCap) ∨
    (0x200000 ≤ a ∧ a < 0x200000 + cfg.outCap) ∨ (0x400000 ≤ a ∧ a < 0x400000 + 4 * cfg.payCap)

/-- `COUNT` and `TOTAL` while `FREQ_VALID` is 1 (R136). -/
structure CountsOk (count : List Word) (total inCap : Nat) : Prop where
  size : count.length = alphabet
  sum : (count.map BitVec.toNat).sum = total
  pos : 1 ≤ total
  bound : total ≤ inCap

/-- What holds of the block in every state a run reaches. -/
structure State.Inv (s : State) : Prop where
  /-- the parameters meet R8 -/
  params : s.cfg.wf = true
  /-- the memory is in its canonical form -/
  memory : s.mem.wf
  /-- nothing outside the four buffers was ever written -/
  storage : ∀ a, (s.mem.get a).isSome = true → inStorage s.cfg a = true
  /-- a busy block shows neither completion nor error, and `LASTCMD` is its command (R121) -/
  busy : ∀ c left, s.run = .busy c left → s.flags.done = false ∧ s.flags.err = false ∧ s.lastCmd = c
  /-- `ERRCODE` is nonzero exactly when `ERR` is 1 (R24) -/
  errFlag : s.errCode ≠ 0 ↔ s.flags.err = true
  /-- `ERRCODE` is 0 to 9 (R246) -/
  errRange : s.errCode ≤ 9
  /-- `ERRINFO` is 0 when `ERRCODE` is (R25) -/
  errInfo : s.errCode = 0 → s.errInfo = 0
  /-- `OUT_LEN` stays within `OUT_BUF` (R222) -/
  outBound : s.outLen.toNat ≤ s.cfg.outCap
  /-- the counts while they are valid (R136) -/
  counts : s.flags.freqValid = true → CountsOk s.count s.total.toNat s.cfg.inCap
  /-- no counts, and `TOTAL` 0, while they are not (R32, R47) -/
  noCounts : s.flags.freqValid = false → s.count = [] ∧ s.total = 0
  /-- the arena while the tree is valid (R54) -/
  arena : s.flags.treeValid = true → ArenaOk s.node s.leafCount.toNat s.nodeCount.toNat s.root.toNat
  /-- no arena, and its registers 0, while it is not (R33 to R35, R47) -/
  noArena : s.flags.treeValid = false → s.node = [] ∧ s.leafCount = 0 ∧ s.nodeCount = 0 ∧ s.root = 0
  /-- while the code table is valid it is the one derived from the tree now in `NODE` (R23), which has two leaves
  or more (R168) -/
  codes : s.flags.codesValid = true →
    s.flags.treeValid = true ∧ codeTableOf s.node s.root.toNat = some s.code ∧ 2 ≤ s.leafCount.toNat
  /-- no code table while it is not valid (R47) -/
  noCodes : s.flags.codesValid = false → s.code = []

end Sys2Proof.Machine
end

