-- ==== Sys2Proof/Certificates/Slice0/Obligations.lean ====
section
/-! DEFINITION. The statements for the provers, from the numbered rules of spec/, file by file. A statement about a
command gives its whole next state, so that what the command leaves alone is stated with what it writes; where it
stores to a buffer, the bytes it leaves alone are named through `State.byteAt`. -/

open Sys2Proof Sys2Proof.Machine

/-! ### The command word (30_encoding.md) -/

/-- R91: a word selects a command exactly when bits 31:8 are 0 and bits 7:0 are in the table, and then the table's. -/
def Obligations.CommandWordsSelectTheirCommands : Prop :=
  ∀ (c : Word) (i : Instr), decode c = .ok i ↔
    c.extractLsb' 8 24 = 0 ∧ (c.extractLsb' 0 8, i) ∈
      [(0x00#8, Instr.nop), (0x01#8, .freq), (0x02#8, .build), (0x03#8, .gencodes), (0x04#8, .serialize),
        (0x05#8, .deserialize), (0x06#8, .encode), (0x07#8, .decode), (0x08#8, .reset)]

/-- R91, R94: every command has one word, and a word that decodes is the word of what it decodes to. -/
def Obligations.EncodeAndDecodeAgree : Prop :=
  (∀ i, decode (encode i) = .ok i) ∧ ∀ c i, decode c = .ok i → encode i = c

/-! ### The registers and the windows (10_state.md, 20_memory.md) -/

/-- R23 and R127: the bits of `STATUS` on an idle block, and exactly 1 on a busy one. -/
def Obligations.StatusWordLayout : Prop :=
  (∀ s : State, s.run = .idle → s.statusWord =
    0#25 ++ BitVec.ofBool s.flags.partialEnd ++ BitVec.ofBool s.flags.codesValid ++ BitVec.ofBool s.flags.treeValid ++
      BitVec.ofBool s.flags.freqValid ++ BitVec.ofBool s.flags.err ++ BitVec.ofBool s.flags.done ++ 0#1) ∧
  ∀ (s : State) c left, s.run = .busy c left → s.statusWord = 0x00000001

/-- R21, R22, R24 to R35: what a host read of each register address returns. -/
def Obligations.RegisterReadsShowTheRegisters : Prop :=
  ∀ s : State,
    hostRead s 0x000000 = some 0 ∧
    hostRead s 0x000004 = some s.statusWord ∧
    hostRead s 0x000008 = some (0#28 ++ s.errCode) ∧
    hostRead s 0x00000C = some s.lastCmd ∧
    hostRead s 0x000010 = some (s.errInfo.extractLsb' 0 32) ∧
    hostRead s 0x000014 = some (s.errInfo.extractLsb' 32 32) ∧
    hostRead s 0x000018 = some s.inLen ∧
    hostRead s 0x00001C = some s.outLen ∧
    hostRead s 0x000020 = some (s.tokCount.extractLsb' 0 32) ∧
    hostRead s 0x000024 = some (s.tokCount.extractLsb' 32 32) ∧
    hostRead s 0x000028 = some (s.bitCount.extractLsb' 0 32) ∧
    hostRead s 0x00002C = some (s.bitCount.extractLsb' 32 32) ∧
    hostRead s 0x000030 = some s.payWords ∧
    hostRead s 0x000034 = some s.total ∧
    hostRead s 0x000038 = some (0#23 ++ s.leafCount) ∧
    hostRead s 0x00003C = some (0#23 ++ s.nodeCount) ∧
    hostRead s 0x000040 = some (0#23 ++ s.root)

/-- R63: an access completes with `ERR`, and changes nothing, exactly when it is misaligned, unmapped or beyond 23 bits. -/
def Obligations.BusErrorExactlyWhereUnmapped : Prop :=
  ∀ (s : State) (a : Nat) (v : Word),
    (¬ (a % 4 = 0 ∧ a < 2 ^ 23 ∧ mapped s.cfg a) →
      performAccess (.read a) s = { s with replies := s.replies ++ [.err] } ∧
      performAccess (.write a v) s = { s with replies := s.replies ++ [.err] }) ∧
    (a % 4 = 0 ∧ a < 2 ^ 23 ∧ mapped s.cfg a →
      (∃ w, performAccess (.read a) s = { s with replies := s.replies ++ [.okRead w] }) ∧
      ∃ t, hostWrite s a v = some t ∧ performAccess (.write a v) s = { t with replies := t.replies ++ [.okWrite] })

/-- R64: a write to a read-only register or window completes and changes nothing; a read-write register stores all 32
bits of its word, and nothing else changes; `CMD` reads as 0. -/
def Obligations.WritesStoreOnlyWhereWritable : Prop :=
  ∀ (s : State) (v : Word), s.cfg.wf = true →
    (∀ a ∈ [0x04, 0x08, 0x0C, 0x10, 0x14, 0x1C, 0x34, 0x38, 0x3C, 0x40], hostWrite s a v = some s) ∧
    (∀ a, a % 4 = 0 → (0x001000 ≤ a ∧ a < 0x001400) ∨ (0x002000 ≤ a ∧ a < 0x003000) ∨ (0x004000 ≤ a ∧ a < 0x008000) ∨
      (0x200000 ≤ a ∧ a < 0x200000 + s.cfg.outCap) → hostWrite s a v = some s) ∧
    hostWrite s 0x18 v = some { s with inLen := v } ∧
    hostWrite s 0x20 v = some { s with tokCount := s.tokCount.extractLsb' 32 32 ++ v } ∧
    hostWrite s 0x24 v = some { s with tokCount := v ++ s.tokCount.extractLsb' 0 32 } ∧
    hostWrite s 0x28 v = some { s with bitCount := s.bitCount.extractLsb' 32 32 ++ v } ∧
    hostWrite s 0x2C v = some { s with bitCount := v ++ s.bitCount.extractLsb' 0 32 } ∧
    hostWrite s 0x30 v = some { s with payWords := v } ∧
    hostRead s 0x00 = some 0

/-- R65: the word view of `IN_BUF`, little-endian, for reads and for writes; every other byte stays. -/
def Obligations.InBufWordView : Prop :=
  ∀ (s : State) (k : Nat), s.cfg.wf = true → 4 * k + 3 < s.cfg.inCap →
    hostRead s (0x100000 + 4 * k) =
      some (s.inByte (4 * k + 3) ++ s.inByte (4 * k + 2) ++ s.inByte (4 * k + 1) ++ s.inByte (4 * k)) ∧
    ∀ v : Word, ∃ t, hostWrite s (0x100000 + 4 * k) v = some t ∧ t = { s with mem := t.mem } ∧
      t.inByte (4 * k) = v.extractLsb' 0 8 ∧ t.inByte (4 * k + 1) = v.extractLsb' 8 8 ∧
      t.inByte (4 * k + 2) = v.extractLsb' 16 8 ∧ t.inByte (4 * k + 3) = v.extractLsb' 24 8 ∧
      ∀ a, a < 0x100000 + 4 * k ∨ 0x100000 + 4 * k + 4 ≤ a → t.byteAt a = s.byteAt a

/-- R67: the word view of `TOK_BUF`; slot 511 reads as 0 and drops writes; token `i` lies at byte offsets `2i` and
`2i + 1`; every other byte stays. -/
def Obligations.TokBufWordView : Prop :=
  ∀ (s : State) (k : Nat), k < 256 →
    hostRead s (0x008000 + 4 * k) = some ((if k = 255 then (0 : Token) else s.token (2 * k + 1)) ++ s.token (2 * k)) ∧
    (∀ i, s.token i = s.byteAt (0x008000 + 2 * i + 1) ++ s.byteAt (0x008000 + 2 * i)) ∧
    ∀ v : Word, ∃ t, hostWrite s (0x008000 + 4 * k) v = some t ∧ t = { s with mem := t.mem } ∧
      t.token (2 * k) = v.extractLsb' 0 16 ∧ (k < 255 → t.token (2 * k + 1) = v.extractLsb' 16 16) ∧
      ∀ a, a < 0x008000 + 4 * k ∨ 0x008000 + 4 * k + (if k = 255 then 2 else 4) ≤ a → t.byteAt a = s.byteAt a

/-- R68: the word view of `PAY_BUF`: the whole word, bit `b` of word `w` being payload bit `32w + b`, and in the byte
view the least significant byte first; every other byte stays. -/
def Obligations.PayBufWordView : Prop :=
  ∀ (s : State) (w : Nat), s.cfg.wf = true → w < s.cfg.payCap →
    hostRead s (0x400000 + 4 * w) = some (s.payWord w) ∧
    (∀ b, b < 32 → s.payBit (32 * w + b) = (s.payWord w).getLsbD b) ∧
    s.payWord w = s.byteAt (0x400000 + 4 * w + 3) ++ s.byteAt (0x400000 + 4 * w + 2) ++
      s.byteAt (0x400000 + 4 * w + 1) ++ s.byteAt (0x400000 + 4 * w) ∧
    ∀ v : Word, ∃ t, hostWrite s (0x400000 + 4 * w) v = some t ∧ t = { s with mem := t.mem } ∧ t.payWord w = v ∧
      ∀ a, a < 0x400000 + 4 * w ∨ 0x400000 + 4 * w + 4 ≤ a → t.byteAt a = s.byteAt a

/-- R66: the word view of `OUT_BUF`, each byte gated by `OUT_LEN`; writes are ignored. -/
def Obligations.OutBufReadsGatedByOutLen : Prop :=
  ∀ (s : State) (k : Nat) (v : Word), s.cfg.wf = true → 4 * k + 3 < s.cfg.outCap →
    (∃ w, hostRead s (0x200000 + 4 * k) = some w ∧ ∀ n, n < 4 →
      w.extractLsb' (8 * n) 8 = if 4 * k + n < s.outLen.toNat then s.outByte (4 * k + n) else 0) ∧
    hostWrite s (0x200000 + 4 * k) v = some s

/-- R69: the `COUNT` window. -/
def Obligations.CountWindowGated : Prop :=
  ∀ (s : State) (sym : Nat), sym < 256 →
    hostRead s (0x001000 + 4 * sym) = some (if s.flags.freqValid then s.count.getD sym 0 else 0)

/-- R70 and R98: the `NODE` window, its gate and the fields of an entry. -/
def Obligations.NodeWindowLayout : Prop :=
  ∀ (s : State) (k : Nat), k < 512 →
    (¬ (s.flags.treeValid = true ∧ k < s.nodeCount.toNat) →
      hostRead s (0x002000 + 8 * k) = some 0 ∧ hostRead s (0x002000 + 8 * k + 4) = some 0) ∧
    (s.flags.treeValid = true → k < s.nodeCount.toNat →
      (∀ sym w, s.node[k]? = some (.leaf sym w) →
        hostRead s (0x002000 + 8 * k) = some w ∧ hostRead s (0x002000 + 8 * k + 4) = some (0#24 ++ sym)) ∧
      ∀ w left right, s.node[k]? = some (.internal w left right) →
        hostRead s (0x002000 + 8 * k) = some w ∧
        hostRead s (0x002000 + 8 * k + 4) = some (1#1 ++ 0#5 ++ right ++ left ++ 0#8))

/-- R71 and R99: the `CODE` window, its gate and the words of an entry. -/
def Obligations.CodeWindowLayout : Prop :=
  ∀ (s : State) (sym : Byte),
    (s.flags.codesValid = false → ∀ m, m < 16 → hostRead s (0x004000 + 64 * sym.toNat + 4 * m) = some 0) ∧
    (s.flags.codesValid = true →
      hostRead s (0x004000 + 64 * sym.toNat) = some (BitVec.ofBool (s.codeOf sym).valid ++ 0#22 ++ (s.codeOf sym).len) ∧
      (∀ k, k < 256 → ∃ w, hostRead s (0x004000 + 64 * sym.toNat + 4 * (1 + k / 32)) = some w ∧
        w.getLsbD (k % 32) = (s.codeOf sym).bits.getLsbD k) ∧
      ∀ m, 9 ≤ m → m < 16 → hostRead s (0x004000 + 64 * sym.toNat + 4 * m) = some 0)

/-- R72: a read changes nothing but what the port has answered; a write to `CMD` issues a command; any other write
stores into a buffer or a read-write register, at most, and is idempotent. -/
def Obligations.OnlyCmdWritesHaveSideEffects : Prop :=
  (∀ (s : State) (a : Nat), ∃ r, performAccess (.read a) s = { s with replies := s.replies ++ [r] } ∧
    ∀ b, hostRead (performAccess (.read a) s) b = hostRead s b) ∧
  (∀ (s : State) (c : Word), ∃ t left, hostWrite s 0 c = some t ∧ t.run = .busy c left) ∧
  ∀ (s t : State) (a : Nat) (v : Word), s.mem.wf → a ≠ 0 → hostWrite s a v = some t →
    t = { s with
      mem := t.mem, inLen := t.inLen, tokCount := t.tokCount, bitCount := t.bitCount, payWords := t.payWords } ∧
      hostWrite t a v = some t

/-! ### Issue, hold, completion (40_command_dispatch.md, 20_memory.md) -/

/-- The link from a run to the statements about `exec`: a block whose command is due runs the command its word decodes
to, or fails with the word where it is none (R120, R122), and nothing else happens in that step: a hard reset that comes
next comes after it, which is the model's choice (log 10). The busy count and `withFetchWord` are the model's (logs 2 and
8). -/
def Obligations.StepRunsTheDecodedCommand : Prop :=
  (∀ (s : State) (c : Word) (i : Instr), s.run = .busy c 0 → decode c = .ok i → step s = exec i s) ∧
  (∀ (s : State) (c : Word) (e : Reject), s.run = .busy c 0 → decode c = .error e → step s = execIllegal c s) ∧
  ∀ (s : State) (nbits w : Nat) (i : Instr), decodeTableWord nbits w = some i →
    step (s.withFetchWord nbits w) = exec i (s.withFetchWord nbits w)

/-- R121: the start actions of every command word, legal or not; no other part of the block changes. For how many steps
the block stays busy is left open here (U3); the count and the list it comes from are the model's own (log 2). -/
def Obligations.CmdWriteStartsTheCommand : Prop :=
  ∀ (s : State) (c : Word) (rest : List HostEvent), s.run = .idle → s.held = none →
    s.port = .access (.write 0x000000 c) :: rest →
    ∃ left durations, step s = .next { s with
      run := .busy c left
      flags := { s.flags with done := false, err := false }
      errCode := 0
      errInfo := 0
      lastCmd := c
      port := rest
      replies := s.replies ++ [.okWrite]
      durationChoices := durations }

/-- R73: an access to a busy block, other than a read of `STATUS`, is held: it has no answer and no effect until the
block is idle, and then it completes as if issued at that moment, before anything else. A read of `STATUS` is answered
at once. The completion of the command itself does nothing at the port. That the completion, and then the held access,
come before a hard reset which the port holds next is the model's choice (log 10), and the busy count `n` is the model's
own (log 2). -/
def Obligations.AccessesAreHeldWhileBusy : Prop :=
  (∀ (s : State) (c : Word) (n : Nat), s.run = .busy c (n + 1) →
    (∀ x rest, s.port = .access x :: rest → x ≠ .read 0x000004 → s.held = none →
      step s = .next { s with run := .busy c n, port := rest, held := some x }) ∧
    (∀ x, s.held = some x → (∀ rest, s.port ≠ .hardReset :: rest) → step s = .next { s with run := .busy c n }) ∧
    (∀ rest, s.port = .access (.read 0x000004) :: rest → s.held = none →
      step s = .next { s with run := .busy c n, port := rest, replies := s.replies ++ [.okRead 1] })) ∧
  (∀ (s : State) (x : Access), s.run = .idle → s.held = some x →
    step s = .next (performAccess x { s with held := none })) ∧
  ∀ (s t : State) (c : Word), s.run = .busy c 0 → step s = .next t →
    t.held = s.held ∧ t.port = s.port ∧ t.replies = s.replies

/-- R75, R266: an idle block carries out the host's accesses one at a time, in the host's order, each completing before
the next; with nothing to do it keeps its state. -/
def Obligations.IdleBlockServesThePortInOrder : Prop :=
  ∀ s : State, s.run = .idle → s.held = none →
    (s.port = [] → step s = .next s) ∧
    ∀ x rest, s.port = .access x :: rest → step s = .next (performAccess x { s with port := rest })

/-- R128: every command completes. A block busy with any word is idle again after the steps its duration gives it and
one more, whatever the host does meanwhile, unless a hard reset is delivered. -/
def Obligations.BusyBlockReturnsToIdle : Prop :=
  ∀ (s : State) (c : Word) (n : Nat), s.Inv → s.run = .busy c n → (∀ e ∈ s.port, e ≠ .hardReset) →
    ∃ t, Host.Core.run Sys2Proof.core (n + 1) s = .next t ∧ t.run = .idle

/-- R252, and R123's table: a command whose required flag is 0 fails with SequenceError (6) and the bit number of the
flag, and changes nothing else. -/
def Obligations.MissingPrerequisiteFails : Prop :=
  ∀ (s : State) (i : Instr) (b : Quad),
    (i = .build ∧ s.flags.freqValid = false ∧ b = 3) ∨
    ((i = .gencodes ∨ i = .serialize ∨ i = .decode) ∧ s.flags.treeValid = false ∧ b = 4) ∨
    (i = .encode ∧ s.flags.codesValid = false ∧ b = 5) →
    exec i s = .next { s with
      run := .idle
      flags := { s.flags with done := true, err := true }
      errCode := 6
      errInfo := b
      lastCmd := encode i }

/-- R129: what a command leaves alone, whatever its outcome. -/
def Obligations.CommandsWriteOnlyTheirOwn : Prop :=
  ∀ (s t : State) (i : Instr), s.cfg.wf = true → exec i s = .next t →
    t.cfg = s.cfg ∧ (i ≠ .reset → t.inLen = s.inLen) ∧ (∀ j, j < s.cfg.inCap → t.inByte j = s.inByte j) ∧
    (i ≠ .serialize → (∀ k, k < 511 → t.token k = s.token k) ∧ (i ≠ .reset → t.tokCount = s.tokCount)) ∧
    (i ≠ .encode → (∀ w, w < s.cfg.payCap → t.payWord w = s.payWord w) ∧
      (i ≠ .reset → t.bitCount = s.bitCount ∧ t.payWords = s.payWords)) ∧
    (i ≠ .decode → (∀ j, j < s.cfg.outCap → t.outByte j = s.outByte j) ∧
      (i ≠ .reset → t.outLen = s.outLen ∧ t.flags.partialEnd = s.flags.partialEnd)) ∧
    (i ≠ .freq → i ≠ .reset → t.count = s.count ∧ t.total = s.total ∧ t.flags.freqValid = s.flags.freqValid) ∧
    (i ≠ .build → i ≠ .deserialize → i ≠ .reset → t.node = s.node ∧ t.root = s.root ∧ t.nodeCount = s.nodeCount ∧
      t.leafCount = s.leafCount ∧ t.flags.treeValid = s.flags.treeValid) ∧
    (i ≠ .gencodes → i ≠ .build → i ≠ .deserialize → i ≠ .reset →
      t.code = s.code ∧ t.flags.codesValid = s.flags.codesValid)

/-! ### NOP, RESET, illegal words, the hard reset (47_control.md, 70_reset_and_hazards.md) -/

/-- R230: the whole effect of NOP. -/
def Obligations.NopOnlyClearsTheRecord : Prop :=
  ∀ s : State, exec .nop s = .next { s with
    run := .idle
    flags := { s.flags with done := true, err := false }
    errCode := 0
    errInfo := 0
    lastCmd := 0 }

/-- R231: RESET gives the reset state and keeps the contents of the buffers, and what is not the block's own. -/
def Obligations.ResetCommandKeepsTheBuffers : Prop :=
  ∀ s : State, ∃ t, exec .reset s = .next t ∧ t.AtReset ∧ (∀ a, t.byteAt a = s.byteAt a) ∧
    t = { State.reset with
      cfg := s.cfg, mem := s.mem, powerCycle := s.powerCycle, padChoices := s.padChoices
      durationChoices := s.durationChoices, held := s.held, port := s.port, replies := s.replies }

/-- R232: a word that is no command fails with IllegalCommandError (7) and the word, and nothing else changes. -/
def Obligations.IllegalWordFails : Prop :=
  ∀ (s : State) (c : Word), c.extractLsb' 8 24 ≠ 0 ∨ 0x08 < (c.extractLsb' 0 8).toNat →
    execWord c s = .next { s with
      run := .idle
      flags := { s.flags with done := true, err := true }
      errCode := 7
      errInfo := c.setWidth 64
      lastCmd := c }

/-- R275: the state after a hard reset. What the read-write buffers hold is left open. -/
def Obligations.HardResetState : Prop := ∀ s : State, (hardReset s).AtReset

/-- R277: a hard reset abandons the running command, drops a held access without an answer, and leaves the reset
state; it may also come to an idle block. -/
def Obligations.HardResetAbandonsTheCommand : Prop :=
  ∀ (s : State) (rest : List HostEvent), s.port = .hardReset :: rest →
    (∃ c n, s.run = .busy c (n + 1)) ∨ (s.run = .idle ∧ s.held = none) →
    ∃ t, step s = .next t ∧ t.AtReset ∧ t.held = none ∧ t.port = rest ∧ t.replies = s.replies ∧ t.cfg = s.cfg

/-- `State.reset` meets the invariant. -/
def Obligations.ResetMeetsTheInvariant : Prop := State.reset.Inv ∧ State.reset.AtReset

/-! ### FREQ (41_frequency.md) -/

/-- R136: a successful FREQ: each count is the number of occurrences of its byte, and they add up to `TOTAL`, the
input length. -/
def Obligations.FreqCountsTheInput : Prop :=
  ∀ s : State, s.cfg.wf = true → 1 ≤ s.inLen.toNat → s.inLen.toNat ≤ s.cfg.inCap →
    ∃ t, exec .freq s = .next t ∧
      t = { s.succeeded .freq with
        flags := { (s.succeeded .freq).flags with freqValid := true }, total := s.inLen, count := t.count } ∧
      t.count.length = 256 ∧ (∀ sym : Byte, (t.count.getD sym.toNat 0).toNat = s.input.count sym) ∧
      (t.count.map BitVec.toNat).sum = t.total.toNat

/-- R137, R138: FREQ on an empty input, which the following BUILD then refuses, and on one longer than the buffer. -/
def Obligations.FreqRejectsEmptyAndTooLong : Prop :=
  ∀ s : State,
    (s.inLen = 0 → ∃ t, exec .freq s = .next t ∧
      t = { s.failed .freq .emptyInput 0 with
        flags := { (s.failed .freq .emptyInput 0).flags with freqValid := false }, total := 0, count := [] } ∧
      exec .build t = .next (t.failed .build .sequence 3)) ∧
    (s.cfg.inCap < s.inLen.toNat → exec .freq s = .next
      { s.failed .freq .capacity (s.inLen.setWidth 64) with
        flags := { (s.failed .freq .capacity (s.inLen.setWidth 64)).flags with freqValid := false }, total := 0, count := [] })

/-! ### BUILD (42_tree_build.md) -/

/-- R151: the first `LEAF_COUNT` cells are the leaves, in ascending byte value, one for each nonzero count. -/
def Obligations.BuildMakesOneLeafPerByte : Prop :=
  ∀ s : State, s.flags.freqValid = true → CountsOk s.count s.total.toNat s.cfg.inCap →
    ∃ t, exec .build s = .next t ∧
      t.node.take t.leafCount.toNat = ((List.range 256).filter fun sym => s.count.getD sym 0 != 0).map
        (fun sym => Node.leaf (BitVec.ofNat 8 sym) (s.count.getD sym 0)) ∧
      ∀ x ∈ t.node.drop t.leafCount.toNat, x.isLeaf = false

/-- R150, R152, R153: BUILD makes a valid arena (R54) by greedy merges: the two members of the queue that come first
in the order (weight, arena index) become the left and the right child of the next node. -/
def Obligations.BuildMergesGreedily : Prop :=
  ∀ s : State, s.flags.freqValid = true → CountsOk s.count s.total.toNat s.cfg.inCap →
    ∃ t, exec .build s = .next t ∧
      t = { s.succeeded .build with
        flags := { (s.succeeded .build).flags with treeValid := true, codesValid := false }
        leafCount := t.leafCount, nodeCount := t.nodeCount, root := t.root, node := t.node, code := [] } ∧
      ArenaOk t.node t.leafCount.toNat t.nodeCount.toNat t.root.toNat ∧ ∀ k, k < t.node.length → mergeOk t.node k

/-- R154, R155: the root is the node created last and weighs `TOTAL`; the sizes of the tree. -/
def Obligations.BuildRootWeighsTotal : Prop :=
  ∀ s : State, s.flags.freqValid = true → CountsOk s.count s.total.toNat s.cfg.inCap →
    ∃ t, exec .build s = .next t ∧ t.root.toNat + 1 = t.nodeCount.toNat ∧ weightAt t.node t.root.toNat = s.total ∧
      t.leafCount.toNat = (List.range 256).countP (fun sym => s.count.getD sym 0 != 0) ∧
      t.nodeCount.toNat + 1 = 2 * t.leafCount.toNat ∧ t.node.length = t.nodeCount.toNat

/-- R156: one distinct byte: BUILD succeeds with the single leaf; SERIALIZE then gives its one token; GENCODES rejects
the tree, and ENCODE then finds no code table. -/
def Obligations.BuildOfOneByteIsASingleLeaf : Prop :=
  ∀ (s : State) (sym : Byte), s.flags.freqValid = true → CountsOk s.count s.total.toNat s.cfg.inCap →
    (∀ b : Byte, s.count.getD b.toNat 0 ≠ 0 ↔ b = sym) →
    ∃ t, exec .build s = .next t ∧
      t = { s.succeeded .build with
        flags := { (s.succeeded .build).flags with treeValid := true, codesValid := false }
        leafCount := 1, nodeCount := 1, root := 0, node := [.leaf sym s.total], code := [] } ∧
      (∃ g, exec .gencodes t = .next g ∧ g = t.failed .gencodes .singleSymbol (sym.setWidth 64) ∧
        exec .encode g = .next (g.failed .encode .sequence 5)) ∧
      ∃ u, exec .serialize t = .next u ∧ u.tokens = [sym.setWidth 16]

/-- R298 in its integer form: no prefix code over the same counts spends fewer bits than the code of BUILD's tree.
(G2: from general knowledge; the spec states it as a property.) -/
def Obligations.BuildCodeIsOptimal : Prop :=
  ∀ (s t : State) (T : HTree) (code : Byte → List Bool), s.flags.freqValid = true →
    CountsOk s.count s.total.toNat s.cfg.inCap → exec .build s = .next t → t.tree = some T →
    (∀ a b : Byte, s.count.getD a.toNat 0 ≠ 0 → s.count.getD b.toNat 0 ≠ 0 → a ≠ b → ¬ code a <+: code b) →
    ((T.leafPaths []).map fun x => x.2.length * (s.count.getD x.1.toNat 0).toNat).sum ≤
      ((T.leafPaths []).map fun x => (code x.1).length * (s.count.getD x.1.toNat 0).toNat).sum

/-! ### GENCODES (43_code_table.md) -/

/-- R167, R169: the entry of a byte records the path to its leaf, the last one in the traversal where there are
several; a byte without a leaf has the empty entry. -/
def Obligations.GencodesRecordsThePaths : Prop :=
  ∀ (s : State) (T : HTree), s.Inv → s.flags.treeValid = true → s.tree = some T → T.isLeaf = false →
    ∃ t, exec .gencodes s = .next t ∧
      t = { s.succeeded .gencodes with
        flags := { (s.succeeded .gencodes).flags with codesValid := true }, code := t.code } ∧
      t.code.length = 256 ∧
      ∀ sym : Byte,
        (∀ p, T.codeOf sym = some p →
          (t.codeOf sym).valid = true ∧ (t.codeOf sym).len.toNat = p.length ∧
            ∀ k, k < 256 → (t.codeOf sym).bits.getLsbD k = p.getD k false) ∧
        (T.codeOf sym = none → t.codeOf sym = { valid := false, len := 0, bits := 0 })

/-- R168: a tree that is a single leaf is rejected with SingleSymbolError and its byte. -/
def Obligations.GencodesRejectsASingleLeaf : Prop :=
  ∀ (s : State) (sym : Byte) (w : Word), s.flags.treeValid = true → s.node[s.root.toNat]? = some (.leaf sym w) →
    exec .gencodes s = .next
      { s.failed .gencodes .singleSymbol (sym.setWidth 64) with
        flags := { (s.failed .gencodes .singleSymbol (sym.setWidth 64)).flags with codesValid := false }, code := [] }

/-- R170 (a), (b) and R46: a valid code table is a prefix code, its codes have 1 to `LEAF_COUNT - 1` bits, and its valid
entries are those of the bytes with a leaf. -/
def Obligations.ValidCodesArePrefixFree : Prop :=
  ∀ (s : State) (T : HTree), s.Inv → s.flags.codesValid = true → s.tree = some T →
    (∀ a b, a ≠ b → (s.codeOf a).valid = true → (s.codeOf b).valid = true → ¬ (s.codeOf a).path <+: (s.codeOf b).path) ∧
    ∀ a, ((s.codeOf a).valid = true ↔ ∃ p, T.follow p = some (.leaf a)) ∧
      ((s.codeOf a).valid = true → 1 ≤ (s.codeOf a).len.toNat ∧ (s.codeOf a).len.toNat + 1 ≤ s.leafCount.toNat)

/-! ### SERIALIZE and DESERIALIZE (44_serialize.md) -/

/-- R181: SERIALIZE writes `ser` of the tree, one token per node, and leaves every other byte alone. -/
def Obligations.SerializeWritesPostOrder : Prop :=
  ∀ (s : State) (T : HTree), s.Inv → s.flags.treeValid = true → s.tree = some T →
    ∃ t, exec .serialize s = .next t ∧
      t = { s.succeeded .serialize with tokCount := s.nodeCount.setWidth 64, mem := t.mem } ∧ t.tokens = T.ser ∧
      ∀ a, a < tokBase ∨ tokBase + 2 * s.nodeCount.toNat ≤ a → t.byteAt a = s.byteAt a

/-- R185, R188, R189: the tokens of a tree rebuild that tree: one node per token, in order, every weight 0, a valid
arena whose root is the last node. -/
def Obligations.DeserializeRebuildsTheTree : Prop :=
  ∀ (s : State) (T : HTree), s.tokCount.toNat ≤ 511 → s.tokens = T.ser →
    ∃ t, exec .deserialize s = .next t ∧
      t = { s.succeeded .deserialize with
        flags := { (s.succeeded .deserialize).flags with treeValid := true, codesValid := false }
        leafCount := t.leafCount, nodeCount := t.nodeCount, root := t.root, node := t.node, code := [] } ∧
      t.tree = some T ∧ ArenaOk t.node t.leafCount.toNat t.nodeCount.toNat t.root.toNat ∧
      t.nodeCount.toNat = s.tokCount.toNat ∧ t.node.map Node.token = s.tokens ∧ ∀ x ∈ t.node, x.weight = 0

/-- R248: DESERIALIZE rejects every other stream of at most 511 tokens: at the first malformed token, with its index, or
after the last, with `TOK_COUNT`, when not exactly one node is left. -/
def Obligations.DeserializeRejectsMalformedStreams : Prop :=
  ∀ s : State, s.tokCount.toNat ≤ 511 →
    ((∃ T : HTree, s.tokens = T.ser) ↔ tokenDepth s.tokens 0 = some 1) ∧
    ∀ info : Quad,
      (∃ n, n < s.tokCount.toNat ∧ (tokenDepth (s.tokens.take n) 0).isSome = true ∧
        tokenDepth (s.tokens.take (n + 1)) 0 = none ∧ info = BitVec.ofNat 64 n) ∨
      (∃ d, tokenDepth s.tokens 0 = some d ∧ d ≠ 1 ∧ info = s.tokCount) →
      exec .deserialize s = .next
        { s.failed .deserialize .malformedTree info with
          flags := { (s.failed .deserialize .malformedTree info).flags with treeValid := false, codesValid := false }
          leafCount := 0, nodeCount := 0, root := 0, node := [], code := [] }

/-- R190: more than 511 tokens are refused before any is read. -/
def Obligations.DeserializeRejectsTooManyTokens : Prop :=
  ∀ s : State, 511 < s.tokCount.toNat → exec .deserialize s = .next
    { s.failed .deserialize .capacity s.tokCount with
      flags := { (s.failed .deserialize .capacity s.tokCount).flags with treeValid := false, codesValid := false }
      leafCount := 0, nodeCount := 0, root := 0, node := [], code := [] }

/-- R191: SERIALIZE, then DESERIALIZE: the same tree, weights 0; the same codes from GENCODES and the same output from
DECODE. Conversely DESERIALIZE, then SERIALIZE: the same tokens, and not a byte changed. -/
def Obligations.TreeRoundTrip : Prop :=
  (∀ s : State, s.Inv → s.flags.treeValid = true →
    ∃ t u, exec .serialize s = .next t ∧ exec .deserialize t = .next u ∧ u.flags.treeValid = true ∧ u.tree = s.tree ∧
      (∀ x ∈ u.node, x.weight = 0) ∧
      (∃ a b, exec .gencodes s = .next a ∧ exec .gencodes u = .next b ∧ a.code = b.code ∧
        a.flags.codesValid = b.flags.codesValid) ∧
      ∃ a b, exec .decode s = .next a ∧ exec .decode u = .next b ∧ a.output = b.output ∧ a.outLen = b.outLen ∧
        a.errCode = b.errCode ∧ a.errInfo = b.errInfo ∧ a.flags.partialEnd = b.flags.partialEnd) ∧
  ∀ s t : State, exec .deserialize s = .next t → t.flags.err = false →
    ∃ u, exec .serialize t = .next u ∧ u.tokCount = s.tokCount ∧ u.tokens = s.tokens ∧ ∀ a, u.byteAt a = s.byteAt a

/-! ### ENCODE (45_encode.md) -/

/-- R201 to R204: ENCODE when every byte has a code and the bits fit: payload bit `i` is bit `i` of the codes in order,
`BIT_COUNT` their exact number, `PAY_WORDS` its words; every byte outside those words stays. The bits above the last
payload bit are the model's next choice of `PAD_BITS` (R206, log 3), which is used up when there are any. -/
def Obligations.EncodePacksTheCodes : Prop :=
  ∀ s : State, s.cfg.wf = true → s.flags.codesValid = true → s.inLen.toNat ≤ s.cfg.inCap →
    (∀ b ∈ s.input, (s.codeOf b).valid = true) → (s.codeBits s.input).length ≤ 32 * s.cfg.payCap →
    ∃ t, exec .encode s = .next t ∧
      t = { s.succeeded .encode with
        bitCount := t.bitCount, payWords := t.payWords, mem := t.mem
        padChoices := if (s.codeBits s.input).length % 32 = 0 then s.padChoices else s.padChoices.tail } ∧
      t.bitCount.toNat = (s.codeBits s.input).length ∧
      t.bitCount.toNat = (s.input.map fun b => (s.codeOf b).len.toNat).sum ∧
      t.payWords.toNat = (t.bitCount.toNat + 31) / 32 ∧
      (∀ i, i < t.bitCount.toNat → t.payBit i = (s.codeBits s.input).getD i false) ∧
      (∀ i, t.bitCount.toNat ≤ i → i < 32 * t.payWords.toNat → t.payBit i = (s.padChoices.headD 0).getLsbD (i % 32)) ∧
      ∀ a, a < payBase ∨ payBase + 4 * t.payWords.toNat ≤ a → t.byteAt a = s.byteAt a

/-- R205, R208: the first byte without a code stops ENCODE with NoCodeError and its index; the complete words of the
codes before it are written, and nothing else. -/
def Obligations.EncodeStopsAtAByteWithoutCode : Prop :=
  ∀ (s : State) (j : Nat), s.cfg.wf = true → s.flags.codesValid = true → s.inLen.toNat ≤ s.cfg.inCap →
    j < s.inLen.toNat → (∀ b ∈ s.input.take j, (s.codeOf b).valid = true) → (s.codeOf (s.inByte j)).valid = false →
    (s.codeBits (s.input.take j)).length / 32 ≤ s.cfg.payCap →
    ∃ t, exec .encode s = .next t ∧
      t = { s.failed .encode .noCode (BitVec.ofNat 64 j) with bitCount := 0, payWords := 0, mem := t.mem } ∧
      (∀ i, i < 32 * ((s.codeBits (s.input.take j)).length / 32) →
        t.payBit i = (s.codeBits (s.input.take j)).getD i false) ∧
      ∀ a, a < payBase ∨ payBase + 4 * ((s.codeBits (s.input.take j)).length / 32) ≤ a → t.byteAt a = s.byteAt a

/-- R207, R208: a word that has no room stops ENCODE with CapacityError: a full word with the index of the byte being
encoded, the last partial word with `IN_LEN`; the `PAY_CAP` words before it are written, and nothing else. -/
def Obligations.EncodeStopsWhenThePayloadIsFull : Prop :=
  ∀ (s : State) (j : Nat), s.cfg.wf = true → s.flags.codesValid = true → s.inLen.toNat ≤ s.cfg.inCap →
    (j < s.inLen.toNat ∧ (∀ b ∈ s.input.take (j + 1), (s.codeOf b).valid = true) ∧
      (s.codeBits (s.input.take j)).length / 32 ≤ s.cfg.payCap ∧
      s.cfg.payCap < (s.codeBits (s.input.take (j + 1))).length / 32) ∨
    (j = s.inLen.toNat ∧ (∀ b ∈ s.input, (s.codeOf b).valid = true) ∧
      (s.codeBits s.input).length / 32 = s.cfg.payCap ∧ (s.codeBits s.input).length % 32 ≠ 0) →
    ∃ t, exec .encode s = .next t ∧
      t = { s.failed .encode .capacity (BitVec.ofNat 64 j) with bitCount := 0, payWords := 0, mem := t.mem } ∧
      (∀ i, i < 32 * s.cfg.payCap → t.payBit i = (s.codeBits s.input).getD i false) ∧
      ∀ a, a < payBase ∨ payBase + 4 * s.cfg.payCap ≤ a → t.byteAt a = s.byteAt a

/-- R209 and R255: ENCODE of an empty input succeeds and writes no word; of one longer than the buffer it fails. -/
def Obligations.EncodeOfEmptyAndOfTooLongInput : Prop :=
  ∀ s : State, s.flags.codesValid = true →
    (s.inLen = 0 → exec .encode s = .next { s.succeeded .encode with bitCount := 0, payWords := 0 }) ∧
    (s.cfg.inCap < s.inLen.toNat → exec .encode s = .next
      { s.failed .encode .capacity (s.inLen.setWidth 64) with bitCount := 0, payWords := 0 })

/-- R297: while the counts are those of the input, the bit count is the sum over the bytes of code length times count. -/
def Obligations.BitCountIsSumOfLengthTimesCount : Prop :=
  ∀ s t : State, s.Inv → s.flags.freqValid = true → s.inLen.toNat ≤ s.cfg.inCap →
    (∀ b : Byte, (s.count.getD b.toNat 0).toNat = s.input.count b) → exec .encode s = .next t → t.flags.err = false →
    t.bitCount.toNat = ((List.range 256).map fun b =>
      (s.codeOf (BitVec.ofNat 8 b)).len.toNat * (s.count.getD b 0).toNat).sum

/-! ### DECODE (46_decode.md) -/

/-- R216 to R219, R223: DECODE of bits that are all there, into a buffer with room: the bytes the tree walk gives, and
`PARTIAL` exactly when the walk ends away from the root; every byte outside the output stays. -/
def Obligations.DecodeWalksTheTree : Prop :=
  ∀ (s : State) (T : HTree), s.Inv → s.flags.treeValid = true → s.tree = some T → T.isLeaf = false →
    s.payWords.toNat ≤ s.cfg.payCap → s.bitCount.toNat ≤ 32 * s.payWords.toNat →
    (T.decodeFrom T (s.payBits s.bitCount.toNat)).1.length ≤ s.cfg.outCap →
    ∃ t, exec .decode s = .next t ∧
      t = { s.succeeded .decode with
        outLen := t.outLen, mem := t.mem
        flags := { (s.succeeded .decode).flags with partialEnd := t.flags.partialEnd } } ∧
      t.output = (T.decodeFrom T (s.payBits s.bitCount.toNat)).1 ∧
      (t.flags.partialEnd = true ↔ (T.decodeFrom T (s.payBits s.bitCount.toNat)).2 ≠ T) ∧
      ∀ a, a < outBase ∨ outBase + t.outLen.toNat ≤ a → t.byteAt a = s.byteAt a

/-- R219: with `BIT_COUNT = 0` DECODE succeeds with no output, whatever the tree and the payload are. -/
def Obligations.DecodeOfNoBits : Prop :=
  ∀ s : State, s.flags.treeValid = true → s.bitCount = 0 → s.payWords.toNat ≤ s.cfg.payCap →
    exec .decode s = .next
      { s.succeeded .decode with outLen := 0, flags := { (s.succeeded .decode).flags with partialEnd := false } }

/-- R220: when the words end before the bit count and nothing stopped the loop earlier, DECODE fails at bit
`32 × PAY_WORDS` with every symbol completed before it written. -/
def Obligations.DecodeOfTruncatedPayload : Prop :=
  ∀ (s : State) (T : HTree), s.Inv → s.flags.treeValid = true → s.tree = some T →
    T.isLeaf = false ∨ s.payWords = 0 → s.payWords.toNat ≤ s.cfg.payCap → 32 * s.payWords.toNat < s.bitCount.toNat →
    (T.decodeFrom T (s.payBits (32 * s.payWords.toNat))).1.length ≤ s.cfg.outCap →
    ∃ t, exec .decode s = .next t ∧
      t = { s.failed .decode .truncatedData (BitVec.ofNat 64 (32 * s.payWords.toNat)) with
        outLen := t.outLen, mem := t.mem
        flags := { (s.failed .decode .truncatedData 0).flags with partialEnd := t.flags.partialEnd } } ∧
      t.output = (T.decodeFrom T (s.payBits (32 * s.payWords.toNat))).1 ∧
      (t.flags.partialEnd = true ↔ (T.decodeFrom T (s.payBits (32 * s.payWords.toNat))).2 ≠ T) ∧
      ∀ a, a < outBase ∨ outBase + t.outLen.toNat ≤ a → t.byteAt a = s.byteAt a

/-- R221: on a single-leaf tree the first bit there is fails with InvalidPathError, at bit 0, with no output; with no
word there it is the truncation that is reported (R257). -/
def Obligations.DecodeOnASingleLeaf : Prop :=
  ∀ (s : State) (sym : Byte) (w : Word), s.flags.treeValid = true → s.node[s.root.toNat]? = some (.leaf sym w) →
    1 ≤ s.bitCount.toNat → s.payWords.toNat ≤ s.cfg.payCap →
    (1 ≤ s.payWords.toNat → exec .decode s = .next
      { s.failed .decode .invalidPath 0 with
        outLen := 0, flags := { (s.failed .decode .invalidPath 0).flags with partialEnd := false } }) ∧
    (s.payWords = 0 → exec .decode s = .next
      { s.failed .decode .truncatedData 0 with
        outLen := 0, flags := { (s.failed .decode .truncatedData 0).flags with partialEnd := false } })

/-- R222, R224: a symbol that completes at bit `i` when `OUT_BUF` is full stops DECODE with CapacityError at `i`; the
`OUT_CAP` symbols before it are written, and `PARTIAL` is 1. -/
def Obligations.DecodeIntoAFullBuffer : Prop :=
  ∀ (s : State) (T : HTree) (i : Nat), s.Inv → s.flags.treeValid = true → s.tree = some T →
    s.payWords.toNat ≤ s.cfg.payCap → i < s.bitCount.toNat → i < 32 * s.payWords.toNat →
    (T.decodeFrom T (s.payBits i)).1.length = s.cfg.outCap →
    (T.decodeFrom T (s.payBits (i + 1))).1.length = s.cfg.outCap + 1 →
    ∃ t, exec .decode s = .next t ∧
      t = { s.failed .decode .capacity (BitVec.ofNat 64 i) with
        outLen := BitVec.ofNat 32 s.cfg.outCap, mem := t.mem
        flags := { (s.failed .decode .capacity 0).flags with partialEnd := true } } ∧
      t.output = (T.decodeFrom T (s.payBits i)).1 ∧
      ∀ a, a < outBase ∨ outBase + s.cfg.outCap ≤ a → t.byteAt a = s.byteAt a

/-- R255: more words than `PAY_BUF` has fail before anything is decoded. -/
def Obligations.DecodeOfTooManyWords : Prop :=
  ∀ s : State, s.flags.treeValid = true → s.cfg.payCap < s.payWords.toNat →
    exec .decode s = .next
      { s.failed .decode .capacity (s.payWords.setWidth 64) with
        outLen := 0, flags := { (s.failed .decode .capacity 0).flags with partialEnd := false } }

/-- R225: no bit at a position from `BIT_COUNT` on has an effect, nor has a `PAY_WORDS` larger than needed: two states
that differ only in these, or in memory outside the bits, give the same result. -/
def Obligations.DecodeNeverReadsThePadding : Prop :=
  ∀ (s : State) (m : Memory) (pw : Word), s.Inv → s.flags.treeValid = true →
    (∀ i, i < s.bitCount.toNat → ({ s with mem := m } : State).payBit i = s.payBit i) →
    (s.bitCount.toNat + 31) / 32 ≤ s.payWords.toNat → s.payWords.toNat ≤ s.cfg.payCap →
    (s.bitCount.toNat + 31) / 32 ≤ pw.toNat → pw.toNat ≤ s.cfg.payCap →
    ∃ a b, exec .decode s = .next a ∧ exec .decode { s with mem := m, payWords := pw } = .next b ∧
      b = { a with mem := b.mem, payWords := pw } ∧ a.output = b.output

/-! ### The whole machine (70_reset_and_hazards.md) -/

/-- R226, R295: an input with two distinct byte values comes back: FREQ, BUILD, GENCODES and ENCODE, then DECODE, at
once or after SERIALIZE and DESERIALIZE. ENCODE succeeds exactly when the payload fits `PAY_BUF` (R207). -/
def Obligations.PayloadRoundTrip : Prop :=
  ∀ s : State, s.Inv → s.inLen.toNat ≤ s.cfg.inCap → s.inLen.toNat ≤ s.cfg.outCap →
    (∃ a ∈ s.input, ∃ b ∈ s.input, a ≠ b) →
    ∃ s1 s2 s3 s4, exec .freq s = .next s1 ∧ exec .build s1 = .next s2 ∧ exec .gencodes s2 = .next s3 ∧
      exec .encode s3 = .next s4 ∧
      (s4.flags.err = false ↔ (s3.codeBits s.input).length ≤ 32 * s.cfg.payCap) ∧
      (s4.flags.err = false →
        (∃ d, exec .decode s4 = .next d ∧ d.flags.err = false ∧ d.flags.partialEnd = false ∧ d.outLen = s.inLen ∧
          d.output = s.input) ∧
        ∃ s5 s6 d, exec .serialize s4 = .next s5 ∧ exec .deserialize s5 = .next s6 ∧ exec .decode s6 = .next d ∧
          d.flags.err = false ∧ d.flags.partialEnd = false ∧ d.outLen = s.inLen ∧ d.output = s.input)

/-- R298 and R141: after FREQ, BUILD, GENCODES and a successful ENCODE the mean code length `A = BIT_COUNT / TOTAL` lies
between the entropy `H` of the counts and `H + 1`. The host computes both; the block holds the integers only. -/
def Obligations.MeanCodeLengthMeetsTheEntropy : Prop :=
  ∀ s : State, s.Inv → s.inLen.toNat ≤ s.cfg.inCap → (∃ a ∈ s.input, ∃ b ∈ s.input, a ≠ b) →
    ∃ s1 s2 s3 s4, exec .freq s = .next s1 ∧ exec .build s1 = .next s2 ∧ exec .gencodes s2 = .next s3 ∧
      exec .encode s3 = .next s4 ∧
      (s4.flags.err = false → ∀ (p : Nat → ℝ) (H A : ℝ),
        (∀ sym, p sym = ((s4.count.getD sym 0).toNat : ℝ) / (s4.total.toNat : ℝ)) →
        H = -∑ sym ∈ (Finset.range 256).filter (fun sym => 0 < p sym), p sym * Real.logb 2 (p sym) →
        A = (s4.bitCount.toNat : ℝ) / (s4.total.toNat : ℝ) → H ≤ A ∧ A < H + 1)

/-- R236: where COMPRESS stops, with no file: at FREQ with EmptyInputError on an empty input and with CapacityError on one
longer than the buffer, of any length; at GENCODES with SingleSymbolError on one of a single byte value. -/
def Obligations.CompressStopsOnWhatItCannotCode : Prop :=
  ∀ (x : List Byte) (s : State), s.Inv → s.run = .idle →
    let stopsAt (i : Instr) (e : Err) : Prop := compress x s = none ∧
      ∃ t, runLines (compressLines s.cfg x) s = .next t ∧ t.flags.err = true ∧ t.errCode = e.code ∧ t.lastCmd = encode i
    (x = [] → stopsAt .freq .emptyInput) ∧
    (s.cfg.inCap < x.length → stopsAt .freq .capacity) ∧
    (x ≠ [] → x.length ≤ s.cfg.inCap → (∀ a ∈ x, ∀ b ∈ x, a = b) → stopsAt .gencodes .singleSymbol)

/-- R103, R236 to R239, R295: the file COMPRESS writes, byte for byte, decompresses on any block that has the room,
whatever its state, to the input; and an input of two distinct bytes or more whose payload must fit has such a file. -/
def Obligations.FileRoundTrip : Prop :=
  ∀ (x : List Byte) (s : State), s.Inv → s.run = .idle → x.length ≤ s.cfg.inCap →
    (∀ (u : State) (f : List Byte), u.Inv → u.run = .idle → x.length ≤ u.cfg.outCap → s.cfg.payCap ≤ u.cfg.payCap →
      compress x s = some f → decompress f u = some x) ∧
    ((∃ a ∈ x, ∃ b ∈ x, a ≠ b) → 255 * x.length ≤ 32 * s.cfg.payCap → ∃ f, compress x s = some f)

/-- Every step keeps the invariant (R24, R25, R54, R136, R282 among it), from every state that meets it. -/
def Obligations.EveryStepKeepsTheInvariant : Prop :=
  ∀ s t : State, s.Inv → step s = .next t → t.Inv

/-- R128, R245: from every state that meets the invariant, every step and every command ends in a next state: nothing
stops the machine. -/
def Obligations.NothingStopsTheMachine : Prop :=
  ∀ s : State, s.Inv → (∃ t, step s = .next t) ∧ ∀ i, ∃ t, exec i s = .next t
end

