-- ==== Sys2Proof/Laws/State.lean ====
section
/-! SUPPORT. What each whole-state update does to each field of the state: one lemma per field per update, true by
rfl, so that no later proof unfolds an update. -/

namespace Sys2Proof.Machine

/-! ### startCommand (R121) -/

@[simp] theorem startCommand_cfg (c : Word) (n : Nat) (s : State) : (startCommand c n s).cfg = s.cfg := rfl
@[simp] theorem startCommand_run (c : Word) (n : Nat) (s : State) : (startCommand c n s).run = .busy c n := rfl
@[simp] theorem startCommand_flags (c : Word) (n : Nat) (s : State) : (startCommand c n s).flags = { s.flags with done := false, err := false } := rfl
@[simp] theorem startCommand_errCode (c : Word) (n : Nat) (s : State) : (startCommand c n s).errCode = 0 := rfl
@[simp] theorem startCommand_errInfo (c : Word) (n : Nat) (s : State) : (startCommand c n s).errInfo = 0 := rfl
@[simp] theorem startCommand_lastCmd (c : Word) (n : Nat) (s : State) : (startCommand c n s).lastCmd = c := rfl
@[simp] theorem startCommand_inLen (c : Word) (n : Nat) (s : State) : (startCommand c n s).inLen = s.inLen := rfl
@[simp] theorem startCommand_outLen (c : Word) (n : Nat) (s : State) : (startCommand c n s).outLen = s.outLen := rfl
@[simp] theorem startCommand_tokCount (c : Word) (n : Nat) (s : State) : (startCommand c n s).tokCount = s.tokCount := rfl
@[simp] theorem startCommand_bitCount (c : Word) (n : Nat) (s : State) : (startCommand c n s).bitCount = s.bitCount := rfl
@[simp] theorem startCommand_payWords (c : Word) (n : Nat) (s : State) : (startCommand c n s).payWords = s.payWords := rfl
@[simp] theorem startCommand_total (c : Word) (n : Nat) (s : State) : (startCommand c n s).total = s.total := rfl
@[simp] theorem startCommand_leafCount (c : Word) (n : Nat) (s : State) : (startCommand c n s).leafCount = s.leafCount := rfl
@[simp] theorem startCommand_nodeCount (c : Word) (n : Nat) (s : State) : (startCommand c n s).nodeCount = s.nodeCount := rfl
@[simp] theorem startCommand_root (c : Word) (n : Nat) (s : State) : (startCommand c n s).root = s.root := rfl
@[simp] theorem startCommand_count (c : Word) (n : Nat) (s : State) : (startCommand c n s).count = s.count := rfl
@[simp] theorem startCommand_node (c : Word) (n : Nat) (s : State) : (startCommand c n s).node = s.node := rfl
@[simp] theorem startCommand_code (c : Word) (n : Nat) (s : State) : (startCommand c n s).code = s.code := rfl
@[simp] theorem startCommand_mem (c : Word) (n : Nat) (s : State) : (startCommand c n s).mem = s.mem := rfl
@[simp] theorem startCommand_powerCycle (c : Word) (n : Nat) (s : State) : (startCommand c n s).powerCycle = s.powerCycle := rfl
@[simp] theorem startCommand_padChoices (c : Word) (n : Nat) (s : State) : (startCommand c n s).padChoices = s.padChoices := rfl
@[simp] theorem startCommand_durationChoices (c : Word) (n : Nat) (s : State) : (startCommand c n s).durationChoices = s.durationChoices := rfl
@[simp] theorem startCommand_held (c : Word) (n : Nat) (s : State) : (startCommand c n s).held = s.held := rfl
@[simp] theorem startCommand_port (c : Word) (n : Nat) (s : State) : (startCommand c n s).port = s.port := rfl
@[simp] theorem startCommand_replies (c : Word) (n : Nat) (s : State) : (startCommand c n s).replies = s.replies := rfl

/-! ### completeCommand (R125) -/

@[simp] theorem completeCommand_cfg (s : State) : (completeCommand s).cfg = s.cfg := rfl
@[simp] theorem completeCommand_run (s : State) : (completeCommand s).run = .idle := rfl
@[simp] theorem completeCommand_flags (s : State) : (completeCommand s).flags = { s.flags with done := true } := rfl
@[simp] theorem completeCommand_errCode (s : State) : (completeCommand s).errCode = s.errCode := rfl
@[simp] theorem completeCommand_errInfo (s : State) : (completeCommand s).errInfo = s.errInfo := rfl
@[simp] theorem completeCommand_lastCmd (s : State) : (completeCommand s).lastCmd = s.lastCmd := rfl
@[simp] theorem completeCommand_inLen (s : State) : (completeCommand s).inLen = s.inLen := rfl
@[simp] theorem completeCommand_outLen (s : State) : (completeCommand s).outLen = s.outLen := rfl
@[simp] theorem completeCommand_tokCount (s : State) : (completeCommand s).tokCount = s.tokCount := rfl
@[simp] theorem completeCommand_bitCount (s : State) : (completeCommand s).bitCount = s.bitCount := rfl
@[simp] theorem completeCommand_payWords (s : State) : (completeCommand s).payWords = s.payWords := rfl
@[simp] theorem completeCommand_total (s : State) : (completeCommand s).total = s.total := rfl
@[simp] theorem completeCommand_leafCount (s : State) : (completeCommand s).leafCount = s.leafCount := rfl
@[simp] theorem completeCommand_nodeCount (s : State) : (completeCommand s).nodeCount = s.nodeCount := rfl
@[simp] theorem completeCommand_root (s : State) : (completeCommand s).root = s.root := rfl
@[simp] theorem completeCommand_count (s : State) : (completeCommand s).count = s.count := rfl
@[simp] theorem completeCommand_node (s : State) : (completeCommand s).node = s.node := rfl
@[simp] theorem completeCommand_code (s : State) : (completeCommand s).code = s.code := rfl
@[simp] theorem completeCommand_mem (s : State) : (completeCommand s).mem = s.mem := rfl
@[simp] theorem completeCommand_powerCycle (s : State) : (completeCommand s).powerCycle = s.powerCycle := rfl
@[simp] theorem completeCommand_padChoices (s : State) : (completeCommand s).padChoices = s.padChoices := rfl
@[simp] theorem completeCommand_durationChoices (s : State) : (completeCommand s).durationChoices = s.durationChoices := rfl
@[simp] theorem completeCommand_held (s : State) : (completeCommand s).held = s.held := rfl
@[simp] theorem completeCommand_port (s : State) : (completeCommand s).port = s.port := rfl
@[simp] theorem completeCommand_replies (s : State) : (completeCommand s).replies = s.replies := rfl

/-! ### raiseError (R126) -/

@[simp] theorem raiseError_cfg (e : Err) (q : Quad) (s : State) : (raiseError e q s).cfg = s.cfg := rfl
@[simp] theorem raiseError_run (e : Err) (q : Quad) (s : State) : (raiseError e q s).run = .idle := rfl
@[simp] theorem raiseError_flags (e : Err) (q : Quad) (s : State) : (raiseError e q s).flags = { s.flags with done := true, err := true } := rfl
@[simp] theorem raiseError_errCode (e : Err) (q : Quad) (s : State) : (raiseError e q s).errCode = e.code := rfl
@[simp] theorem raiseError_errInfo (e : Err) (q : Quad) (s : State) : (raiseError e q s).errInfo = q := rfl
@[simp] theorem raiseError_lastCmd (e : Err) (q : Quad) (s : State) : (raiseError e q s).lastCmd = s.lastCmd := rfl
@[simp] theorem raiseError_inLen (e : Err) (q : Quad) (s : State) : (raiseError e q s).inLen = s.inLen := rfl
@[simp] theorem raiseError_outLen (e : Err) (q : Quad) (s : State) : (raiseError e q s).outLen = s.outLen := rfl
@[simp] theorem raiseError_tokCount (e : Err) (q : Quad) (s : State) : (raiseError e q s).tokCount = s.tokCount := rfl
@[simp] theorem raiseError_bitCount (e : Err) (q : Quad) (s : State) : (raiseError e q s).bitCount = s.bitCount := rfl
@[simp] theorem raiseError_payWords (e : Err) (q : Quad) (s : State) : (raiseError e q s).payWords = s.payWords := rfl
@[simp] theorem raiseError_total (e : Err) (q : Quad) (s : State) : (raiseError e q s).total = s.total := rfl
@[simp] theorem raiseError_leafCount (e : Err) (q : Quad) (s : State) : (raiseError e q s).leafCount = s.leafCount := rfl
@[simp] theorem raiseError_nodeCount (e : Err) (q : Quad) (s : State) : (raiseError e q s).nodeCount = s.nodeCount := rfl
@[simp] theorem raiseError_root (e : Err) (q : Quad) (s : State) : (raiseError e q s).root = s.root := rfl
@[simp] theorem raiseError_count (e : Err) (q : Quad) (s : State) : (raiseError e q s).count = s.count := rfl
@[simp] theorem raiseError_node (e : Err) (q : Quad) (s : State) : (raiseError e q s).node = s.node := rfl
@[simp] theorem raiseError_code (e : Err) (q : Quad) (s : State) : (raiseError e q s).code = s.code := rfl
@[simp] theorem raiseError_mem (e : Err) (q : Quad) (s : State) : (raiseError e q s).mem = s.mem := rfl
@[simp] theorem raiseError_powerCycle (e : Err) (q : Quad) (s : State) : (raiseError e q s).powerCycle = s.powerCycle := rfl
@[simp] theorem raiseError_padChoices (e : Err) (q : Quad) (s : State) : (raiseError e q s).padChoices = s.padChoices := rfl
@[simp] theorem raiseError_durationChoices (e : Err) (q : Quad) (s : State) : (raiseError e q s).durationChoices = s.durationChoices := rfl
@[simp] theorem raiseError_held (e : Err) (q : Quad) (s : State) : (raiseError e q s).held = s.held := rfl
@[simp] theorem raiseError_port (e : Err) (q : Quad) (s : State) : (raiseError e q s).port = s.port := rfl
@[simp] theorem raiseError_replies (e : Err) (q : Quad) (s : State) : (raiseError e q s).replies = s.replies := rfl

/-! ### clearFreq (R135) -/

@[simp] theorem clearFreq_cfg (s : State) : s.clearFreq.cfg = s.cfg := rfl
@[simp] theorem clearFreq_run (s : State) : s.clearFreq.run = s.run := rfl
@[simp] theorem clearFreq_flags (s : State) : s.clearFreq.flags = { s.flags with freqValid := false } := rfl
@[simp] theorem clearFreq_errCode (s : State) : s.clearFreq.errCode = s.errCode := rfl
@[simp] theorem clearFreq_errInfo (s : State) : s.clearFreq.errInfo = s.errInfo := rfl
@[simp] theorem clearFreq_lastCmd (s : State) : s.clearFreq.lastCmd = s.lastCmd := rfl
@[simp] theorem clearFreq_inLen (s : State) : s.clearFreq.inLen = s.inLen := rfl
@[simp] theorem clearFreq_outLen (s : State) : s.clearFreq.outLen = s.outLen := rfl
@[simp] theorem clearFreq_tokCount (s : State) : s.clearFreq.tokCount = s.tokCount := rfl
@[simp] theorem clearFreq_bitCount (s : State) : s.clearFreq.bitCount = s.bitCount := rfl
@[simp] theorem clearFreq_payWords (s : State) : s.clearFreq.payWords = s.payWords := rfl
@[simp] theorem clearFreq_total (s : State) : s.clearFreq.total = 0 := rfl
@[simp] theorem clearFreq_leafCount (s : State) : s.clearFreq.leafCount = s.leafCount := rfl
@[simp] theorem clearFreq_nodeCount (s : State) : s.clearFreq.nodeCount = s.nodeCount := rfl
@[simp] theorem clearFreq_root (s : State) : s.clearFreq.root = s.root := rfl
@[simp] theorem clearFreq_count (s : State) : s.clearFreq.count = [] := rfl
@[simp] theorem clearFreq_node (s : State) : s.clearFreq.node = s.node := rfl
@[simp] theorem clearFreq_code (s : State) : s.clearFreq.code = s.code := rfl
@[simp] theorem clearFreq_mem (s : State) : s.clearFreq.mem = s.mem := rfl
@[simp] theorem clearFreq_powerCycle (s : State) : s.clearFreq.powerCycle = s.powerCycle := rfl
@[simp] theorem clearFreq_padChoices (s : State) : s.clearFreq.padChoices = s.padChoices := rfl
@[simp] theorem clearFreq_durationChoices (s : State) : s.clearFreq.durationChoices = s.durationChoices := rfl
@[simp] theorem clearFreq_held (s : State) : s.clearFreq.held = s.held := rfl
@[simp] theorem clearFreq_port (s : State) : s.clearFreq.port = s.port := rfl
@[simp] theorem clearFreq_replies (s : State) : s.clearFreq.replies = s.replies := rfl

/-! ### clearCodes (R165) -/

@[simp] theorem clearCodes_cfg (s : State) : s.clearCodes.cfg = s.cfg := rfl
@[simp] theorem clearCodes_run (s : State) : s.clearCodes.run = s.run := rfl
@[simp] theorem clearCodes_flags (s : State) : s.clearCodes.flags = { s.flags with codesValid := false } := rfl
@[simp] theorem clearCodes_errCode (s : State) : s.clearCodes.errCode = s.errCode := rfl
@[simp] theorem clearCodes_errInfo (s : State) : s.clearCodes.errInfo = s.errInfo := rfl
@[simp] theorem clearCodes_lastCmd (s : State) : s.clearCodes.lastCmd = s.lastCmd := rfl
@[simp] theorem clearCodes_inLen (s : State) : s.clearCodes.inLen = s.inLen := rfl
@[simp] theorem clearCodes_outLen (s : State) : s.clearCodes.outLen = s.outLen := rfl
@[simp] theorem clearCodes_tokCount (s : State) : s.clearCodes.tokCount = s.tokCount := rfl
@[simp] theorem clearCodes_bitCount (s : State) : s.clearCodes.bitCount = s.bitCount := rfl
@[simp] theorem clearCodes_payWords (s : State) : s.clearCodes.payWords = s.payWords := rfl
@[simp] theorem clearCodes_total (s : State) : s.clearCodes.total = s.total := rfl
@[simp] theorem clearCodes_leafCount (s : State) : s.clearCodes.leafCount = s.leafCount := rfl
@[simp] theorem clearCodes_nodeCount (s : State) : s.clearCodes.nodeCount = s.nodeCount := rfl
@[simp] theorem clearCodes_root (s : State) : s.clearCodes.root = s.root := rfl
@[simp] theorem clearCodes_count (s : State) : s.clearCodes.count = s.count := rfl
@[simp] theorem clearCodes_node (s : State) : s.clearCodes.node = s.node := rfl
@[simp] theorem clearCodes_code (s : State) : s.clearCodes.code = [] := rfl
@[simp] theorem clearCodes_mem (s : State) : s.clearCodes.mem = s.mem := rfl
@[simp] theorem clearCodes_powerCycle (s : State) : s.clearCodes.powerCycle = s.powerCycle := rfl
@[simp] theorem clearCodes_padChoices (s : State) : s.clearCodes.padChoices = s.padChoices := rfl
@[simp] theorem clearCodes_durationChoices (s : State) : s.clearCodes.durationChoices = s.durationChoices := rfl
@[simp] theorem clearCodes_held (s : State) : s.clearCodes.held = s.held := rfl
@[simp] theorem clearCodes_port (s : State) : s.clearCodes.port = s.port := rfl
@[simp] theorem clearCodes_replies (s : State) : s.clearCodes.replies = s.replies := rfl

/-! ### clearTree (R150, R185) -/

@[simp] theorem clearTree_cfg (s : State) : s.clearTree.cfg = s.cfg := rfl
@[simp] theorem clearTree_run (s : State) : s.clearTree.run = s.run := rfl
@[simp] theorem clearTree_flags (s : State) : s.clearTree.flags = { s.flags with treeValid := false, codesValid := false } := rfl
@[simp] theorem clearTree_errCode (s : State) : s.clearTree.errCode = s.errCode := rfl
@[simp] theorem clearTree_errInfo (s : State) : s.clearTree.errInfo = s.errInfo := rfl
@[simp] theorem clearTree_lastCmd (s : State) : s.clearTree.lastCmd = s.lastCmd := rfl
@[simp] theorem clearTree_inLen (s : State) : s.clearTree.inLen = s.inLen := rfl
@[simp] theorem clearTree_outLen (s : State) : s.clearTree.outLen = s.outLen := rfl
@[simp] theorem clearTree_tokCount (s : State) : s.clearTree.tokCount = s.tokCount := rfl
@[simp] theorem clearTree_bitCount (s : State) : s.clearTree.bitCount = s.bitCount := rfl
@[simp] theorem clearTree_payWords (s : State) : s.clearTree.payWords = s.payWords := rfl
@[simp] theorem clearTree_total (s : State) : s.clearTree.total = s.total := rfl
@[simp] theorem clearTree_leafCount (s : State) : s.clearTree.leafCount = 0 := rfl
@[simp] theorem clearTree_nodeCount (s : State) : s.clearTree.nodeCount = 0 := rfl
@[simp] theorem clearTree_root (s : State) : s.clearTree.root = 0 := rfl
@[simp] theorem clearTree_count (s : State) : s.clearTree.count = s.count := rfl
@[simp] theorem clearTree_node (s : State) : s.clearTree.node = [] := rfl
@[simp] theorem clearTree_code (s : State) : s.clearTree.code = [] := rfl
@[simp] theorem clearTree_mem (s : State) : s.clearTree.mem = s.mem := rfl
@[simp] theorem clearTree_powerCycle (s : State) : s.clearTree.powerCycle = s.powerCycle := rfl
@[simp] theorem clearTree_padChoices (s : State) : s.clearTree.padChoices = s.padChoices := rfl
@[simp] theorem clearTree_durationChoices (s : State) : s.clearTree.durationChoices = s.durationChoices := rfl
@[simp] theorem clearTree_held (s : State) : s.clearTree.held = s.held := rfl
@[simp] theorem clearTree_port (s : State) : s.clearTree.port = s.port := rfl
@[simp] theorem clearTree_replies (s : State) : s.clearTree.replies = s.replies := rfl

/-! ### installTree (R150, R185) -/

@[simp] theorem installTree_cfg (t : List Node) (l r : Nat) (s : State) : (s.installTree t l r).cfg = s.cfg := rfl
@[simp] theorem installTree_run (t : List Node) (l r : Nat) (s : State) : (s.installTree t l r).run = s.run := rfl
@[simp] theorem installTree_flags (t : List Node) (l r : Nat) (s : State) : (s.installTree t l r).flags = { s.flags with treeValid := true } := rfl
@[simp] theorem installTree_errCode (t : List Node) (l r : Nat) (s : State) : (s.installTree t l r).errCode = s.errCode := rfl
@[simp] theorem installTree_errInfo (t : List Node) (l r : Nat) (s : State) : (s.installTree t l r).errInfo = s.errInfo := rfl
@[simp] theorem installTree_lastCmd (t : List Node) (l r : Nat) (s : State) : (s.installTree t l r).lastCmd = s.lastCmd := rfl
@[simp] theorem installTree_inLen (t : List Node) (l r : Nat) (s : State) : (s.installTree t l r).inLen = s.inLen := rfl
@[simp] theorem installTree_outLen (t : List Node) (l r : Nat) (s : State) : (s.installTree t l r).outLen = s.outLen := rfl
@[simp] theorem installTree_tokCount (t : List Node) (l r : Nat) (s : State) : (s.installTree t l r).tokCount = s.tokCount := rfl
@[simp] theorem installTree_bitCount (t : List Node) (l r : Nat) (s : State) : (s.installTree t l r).bitCount = s.bitCount := rfl
@[simp] theorem installTree_payWords (t : List Node) (l r : Nat) (s : State) : (s.installTree t l r).payWords = s.payWords := rfl
@[simp] theorem installTree_total (t : List Node) (l r : Nat) (s : State) : (s.installTree t l r).total = s.total := rfl
@[simp] theorem installTree_leafCount (t : List Node) (l r : Nat) (s : State) : (s.installTree t l r).leafCount = BitVec.ofNat 9 l := rfl
@[simp] theorem installTree_nodeCount (t : List Node) (l r : Nat) (s : State) : (s.installTree t l r).nodeCount = BitVec.ofNat 9 t.length := rfl
@[simp] theorem installTree_root (t : List Node) (l r : Nat) (s : State) : (s.installTree t l r).root = BitVec.ofNat 9 r := rfl
@[simp] theorem installTree_count (t : List Node) (l r : Nat) (s : State) : (s.installTree t l r).count = s.count := rfl
@[simp] theorem installTree_node (t : List Node) (l r : Nat) (s : State) : (s.installTree t l r).node = t := rfl
@[simp] theorem installTree_code (t : List Node) (l r : Nat) (s : State) : (s.installTree t l r).code = s.code := rfl
@[simp] theorem installTree_mem (t : List Node) (l r : Nat) (s : State) : (s.installTree t l r).mem = s.mem := rfl
@[simp] theorem installTree_powerCycle (t : List Node) (l r : Nat) (s : State) : (s.installTree t l r).powerCycle = s.powerCycle := rfl
@[simp] theorem installTree_padChoices (t : List Node) (l r : Nat) (s : State) : (s.installTree t l r).padChoices = s.padChoices := rfl
@[simp] theorem installTree_durationChoices (t : List Node) (l r : Nat) (s : State) : (s.installTree t l r).durationChoices = s.durationChoices := rfl
@[simp] theorem installTree_held (t : List Node) (l r : Nat) (s : State) : (s.installTree t l r).held = s.held := rfl
@[simp] theorem installTree_port (t : List Node) (l r : Nat) (s : State) : (s.installTree t l r).port = s.port := rfl
@[simp] theorem installTree_replies (t : List Node) (l r : Nat) (s : State) : (s.installTree t l r).replies = s.replies := rfl

/-! ### finishDecode (R223) -/

@[simp] theorem finishDecode_cfg (s : State) (d : DecodeLocals) : (finishDecode s d).cfg = s.cfg := rfl
@[simp] theorem finishDecode_run (s : State) (d : DecodeLocals) : (finishDecode s d).run = s.run := rfl
@[simp] theorem finishDecode_flags (s : State) (d : DecodeLocals) : (finishDecode s d).flags = { s.flags with partialEnd := d.cur != s.root } := rfl
@[simp] theorem finishDecode_errCode (s : State) (d : DecodeLocals) : (finishDecode s d).errCode = s.errCode := rfl
@[simp] theorem finishDecode_errInfo (s : State) (d : DecodeLocals) : (finishDecode s d).errInfo = s.errInfo := rfl
@[simp] theorem finishDecode_lastCmd (s : State) (d : DecodeLocals) : (finishDecode s d).lastCmd = s.lastCmd := rfl
@[simp] theorem finishDecode_inLen (s : State) (d : DecodeLocals) : (finishDecode s d).inLen = s.inLen := rfl
@[simp] theorem finishDecode_outLen (s : State) (d : DecodeLocals) : (finishDecode s d).outLen = BitVec.ofNat 32 d.outLen := rfl
@[simp] theorem finishDecode_tokCount (s : State) (d : DecodeLocals) : (finishDecode s d).tokCount = s.tokCount := rfl
@[simp] theorem finishDecode_bitCount (s : State) (d : DecodeLocals) : (finishDecode s d).bitCount = s.bitCount := rfl
@[simp] theorem finishDecode_payWords (s : State) (d : DecodeLocals) : (finishDecode s d).payWords = s.payWords := rfl
@[simp] theorem finishDecode_total (s : State) (d : DecodeLocals) : (finishDecode s d).total = s.total := rfl
@[simp] theorem finishDecode_leafCount (s : State) (d : DecodeLocals) : (finishDecode s d).leafCount = s.leafCount := rfl
@[simp] theorem finishDecode_nodeCount (s : State) (d : DecodeLocals) : (finishDecode s d).nodeCount = s.nodeCount := rfl
@[simp] theorem finishDecode_root (s : State) (d : DecodeLocals) : (finishDecode s d).root = s.root := rfl
@[simp] theorem finishDecode_count (s : State) (d : DecodeLocals) : (finishDecode s d).count = s.count := rfl
@[simp] theorem finishDecode_node (s : State) (d : DecodeLocals) : (finishDecode s d).node = s.node := rfl
@[simp] theorem finishDecode_code (s : State) (d : DecodeLocals) : (finishDecode s d).code = s.code := rfl
@[simp] theorem finishDecode_mem (s : State) (d : DecodeLocals) : (finishDecode s d).mem = d.mem := rfl
@[simp] theorem finishDecode_powerCycle (s : State) (d : DecodeLocals) : (finishDecode s d).powerCycle = s.powerCycle := rfl
@[simp] theorem finishDecode_padChoices (s : State) (d : DecodeLocals) : (finishDecode s d).padChoices = s.padChoices := rfl
@[simp] theorem finishDecode_durationChoices (s : State) (d : DecodeLocals) : (finishDecode s d).durationChoices = s.durationChoices := rfl
@[simp] theorem finishDecode_held (s : State) (d : DecodeLocals) : (finishDecode s d).held = s.held := rfl
@[simp] theorem finishDecode_port (s : State) (d : DecodeLocals) : (finishDecode s d).port = s.port := rfl
@[simp] theorem finishDecode_replies (s : State) (d : DecodeLocals) : (finishDecode s d).replies = s.replies := rfl

/-! ### resetRegisters (R231) -/

@[simp] theorem resetRegisters_cfg (s : State) : (resetRegisters s).cfg = s.cfg := rfl
@[simp] theorem resetRegisters_run (s : State) : (resetRegisters s).run = .idle := rfl
@[simp] theorem resetRegisters_flags (s : State) : (resetRegisters s).flags = Flags.clear := rfl
@[simp] theorem resetRegisters_errCode (s : State) : (resetRegisters s).errCode = 0 := rfl
@[simp] theorem resetRegisters_errInfo (s : State) : (resetRegisters s).errInfo = 0 := rfl
@[simp] theorem resetRegisters_lastCmd (s : State) : (resetRegisters s).lastCmd = 0 := rfl
@[simp] theorem resetRegisters_inLen (s : State) : (resetRegisters s).inLen = 0 := rfl
@[simp] theorem resetRegisters_outLen (s : State) : (resetRegisters s).outLen = 0 := rfl
@[simp] theorem resetRegisters_tokCount (s : State) : (resetRegisters s).tokCount = 0 := rfl
@[simp] theorem resetRegisters_bitCount (s : State) : (resetRegisters s).bitCount = 0 := rfl
@[simp] theorem resetRegisters_payWords (s : State) : (resetRegisters s).payWords = 0 := rfl
@[simp] theorem resetRegisters_total (s : State) : (resetRegisters s).total = 0 := rfl
@[simp] theorem resetRegisters_leafCount (s : State) : (resetRegisters s).leafCount = 0 := rfl
@[simp] theorem resetRegisters_nodeCount (s : State) : (resetRegisters s).nodeCount = 0 := rfl
@[simp] theorem resetRegisters_root (s : State) : (resetRegisters s).root = 0 := rfl
@[simp] theorem resetRegisters_count (s : State) : (resetRegisters s).count = [] := rfl
@[simp] theorem resetRegisters_node (s : State) : (resetRegisters s).node = [] := rfl
@[simp] theorem resetRegisters_code (s : State) : (resetRegisters s).code = [] := rfl
@[simp] theorem resetRegisters_mem (s : State) : (resetRegisters s).mem = s.mem := rfl
@[simp] theorem resetRegisters_powerCycle (s : State) : (resetRegisters s).powerCycle = s.powerCycle := rfl
@[simp] theorem resetRegisters_padChoices (s : State) : (resetRegisters s).padChoices = s.padChoices := rfl
@[simp] theorem resetRegisters_durationChoices (s : State) : (resetRegisters s).durationChoices = s.durationChoices := rfl
@[simp] theorem resetRegisters_held (s : State) : (resetRegisters s).held = s.held := rfl
@[simp] theorem resetRegisters_port (s : State) : (resetRegisters s).port = s.port := rfl
@[simp] theorem resetRegisters_replies (s : State) : (resetRegisters s).replies = s.replies := rfl

/-! ### hardReset (R275) -/

@[simp] theorem hardReset_cfg (s : State) : (hardReset s).cfg = s.cfg := rfl
@[simp] theorem hardReset_run (s : State) : (hardReset s).run = .idle := rfl
@[simp] theorem hardReset_flags (s : State) : (hardReset s).flags = Flags.clear := rfl
@[simp] theorem hardReset_errCode (s : State) : (hardReset s).errCode = 0 := rfl
@[simp] theorem hardReset_errInfo (s : State) : (hardReset s).errInfo = 0 := rfl
@[simp] theorem hardReset_lastCmd (s : State) : (hardReset s).lastCmd = 0 := rfl
@[simp] theorem hardReset_inLen (s : State) : (hardReset s).inLen = 0 := rfl
@[simp] theorem hardReset_outLen (s : State) : (hardReset s).outLen = 0 := rfl
@[simp] theorem hardReset_tokCount (s : State) : (hardReset s).tokCount = 0 := rfl
@[simp] theorem hardReset_bitCount (s : State) : (hardReset s).bitCount = 0 := rfl
@[simp] theorem hardReset_payWords (s : State) : (hardReset s).payWords = 0 := rfl
@[simp] theorem hardReset_total (s : State) : (hardReset s).total = 0 := rfl
@[simp] theorem hardReset_leafCount (s : State) : (hardReset s).leafCount = 0 := rfl
@[simp] theorem hardReset_nodeCount (s : State) : (hardReset s).nodeCount = 0 := rfl
@[simp] theorem hardReset_root (s : State) : (hardReset s).root = 0 := rfl
@[simp] theorem hardReset_count (s : State) : (hardReset s).count = [] := rfl
@[simp] theorem hardReset_node (s : State) : (hardReset s).node = [] := rfl
@[simp] theorem hardReset_code (s : State) : (hardReset s).code = [] := rfl
@[simp] theorem hardReset_mem (s : State) : (hardReset s).mem = [] := rfl
@[simp] theorem hardReset_powerCycle (s : State) : (hardReset s).powerCycle = s.powerCycle + 1 := rfl
@[simp] theorem hardReset_padChoices (s : State) : (hardReset s).padChoices = s.padChoices := rfl
@[simp] theorem hardReset_durationChoices (s : State) : (hardReset s).durationChoices = s.durationChoices := rfl
@[simp] theorem hardReset_held (s : State) : (hardReset s).held = none := rfl
@[simp] theorem hardReset_port (s : State) : (hardReset s).port = s.port := rfl
@[simp] theorem hardReset_replies (s : State) : (hardReset s).replies = s.replies := rfl

/-! ### answer (R62) -/

@[simp] theorem answer_cfg (r : Reply) (s : State) : (answer r s).cfg = s.cfg := rfl
@[simp] theorem answer_run (r : Reply) (s : State) : (answer r s).run = s.run := rfl
@[simp] theorem answer_flags (r : Reply) (s : State) : (answer r s).flags = s.flags := rfl
@[simp] theorem answer_errCode (r : Reply) (s : State) : (answer r s).errCode = s.errCode := rfl
@[simp] theorem answer_errInfo (r : Reply) (s : State) : (answer r s).errInfo = s.errInfo := rfl
@[simp] theorem answer_lastCmd (r : Reply) (s : State) : (answer r s).lastCmd = s.lastCmd := rfl
@[simp] theorem answer_inLen (r : Reply) (s : State) : (answer r s).inLen = s.inLen := rfl
@[simp] theorem answer_outLen (r : Reply) (s : State) : (answer r s).outLen = s.outLen := rfl
@[simp] theorem answer_tokCount (r : Reply) (s : State) : (answer r s).tokCount = s.tokCount := rfl
@[simp] theorem answer_bitCount (r : Reply) (s : State) : (answer r s).bitCount = s.bitCount := rfl
@[simp] theorem answer_payWords (r : Reply) (s : State) : (answer r s).payWords = s.payWords := rfl
@[simp] theorem answer_total (r : Reply) (s : State) : (answer r s).total = s.total := rfl
@[simp] theorem answer_leafCount (r : Reply) (s : State) : (answer r s).leafCount = s.leafCount := rfl
@[simp] theorem answer_nodeCount (r : Reply) (s : State) : (answer r s).nodeCount = s.nodeCount := rfl
@[simp] theorem answer_root (r : Reply) (s : State) : (answer r s).root = s.root := rfl
@[simp] theorem answer_count (r : Reply) (s : State) : (answer r s).count = s.count := rfl
@[simp] theorem answer_node (r : Reply) (s : State) : (answer r s).node = s.node := rfl
@[simp] theorem answer_code (r : Reply) (s : State) : (answer r s).code = s.code := rfl
@[simp] theorem answer_mem (r : Reply) (s : State) : (answer r s).mem = s.mem := rfl
@[simp] theorem answer_powerCycle (r : Reply) (s : State) : (answer r s).powerCycle = s.powerCycle := rfl
@[simp] theorem answer_padChoices (r : Reply) (s : State) : (answer r s).padChoices = s.padChoices := rfl
@[simp] theorem answer_durationChoices (r : Reply) (s : State) : (answer r s).durationChoices = s.durationChoices := rfl
@[simp] theorem answer_held (r : Reply) (s : State) : (answer r s).held = s.held := rfl
@[simp] theorem answer_port (r : Reply) (s : State) : (answer r s).port = s.port := rfl
@[simp] theorem answer_replies (r : Reply) (s : State) : (answer r s).replies = s.replies ++ [r] := rfl

/-! ### issueCommand (R120) -/

@[simp] theorem issueCommand_cfg (c : Word) (s : State) : (issueCommand c s).cfg = s.cfg := rfl
@[simp] theorem issueCommand_run (c : Word) (s : State) : (issueCommand c s).run = .busy c (s.durationChoices.headD 0) := rfl
@[simp] theorem issueCommand_flags (c : Word) (s : State) : (issueCommand c s).flags = { s.flags with done := false, err := false } := rfl
@[simp] theorem issueCommand_errCode (c : Word) (s : State) : (issueCommand c s).errCode = 0 := rfl
@[simp] theorem issueCommand_errInfo (c : Word) (s : State) : (issueCommand c s).errInfo = 0 := rfl
@[simp] theorem issueCommand_lastCmd (c : Word) (s : State) : (issueCommand c s).lastCmd = c := rfl
@[simp] theorem issueCommand_inLen (c : Word) (s : State) : (issueCommand c s).inLen = s.inLen := rfl
@[simp] theorem issueCommand_outLen (c : Word) (s : State) : (issueCommand c s).outLen = s.outLen := rfl
@[simp] theorem issueCommand_tokCount (c : Word) (s : State) : (issueCommand c s).tokCount = s.tokCount := rfl
@[simp] theorem issueCommand_bitCount (c : Word) (s : State) : (issueCommand c s).bitCount = s.bitCount := rfl
@[simp] theorem issueCommand_payWords (c : Word) (s : State) : (issueCommand c s).payWords = s.payWords := rfl
@[simp] theorem issueCommand_total (c : Word) (s : State) : (issueCommand c s).total = s.total := rfl
@[simp] theorem issueCommand_leafCount (c : Word) (s : State) : (issueCommand c s).leafCount = s.leafCount := rfl
@[simp] theorem issueCommand_nodeCount (c : Word) (s : State) : (issueCommand c s).nodeCount = s.nodeCount := rfl
@[simp] theorem issueCommand_root (c : Word) (s : State) : (issueCommand c s).root = s.root := rfl
@[simp] theorem issueCommand_count (c : Word) (s : State) : (issueCommand c s).count = s.count := rfl
@[simp] theorem issueCommand_node (c : Word) (s : State) : (issueCommand c s).node = s.node := rfl
@[simp] theorem issueCommand_code (c : Word) (s : State) : (issueCommand c s).code = s.code := rfl
@[simp] theorem issueCommand_mem (c : Word) (s : State) : (issueCommand c s).mem = s.mem := rfl
@[simp] theorem issueCommand_powerCycle (c : Word) (s : State) : (issueCommand c s).powerCycle = s.powerCycle := rfl
@[simp] theorem issueCommand_padChoices (c : Word) (s : State) : (issueCommand c s).padChoices = s.padChoices := rfl
@[simp] theorem issueCommand_durationChoices (c : Word) (s : State) : (issueCommand c s).durationChoices = s.durationChoices.tail := rfl
@[simp] theorem issueCommand_held (c : Word) (s : State) : (issueCommand c s).held = s.held := rfl
@[simp] theorem issueCommand_port (c : Word) (s : State) : (issueCommand c s).port = s.port := rfl
@[simp] theorem issueCommand_replies (c : Word) (s : State) : (issueCommand c s).replies = s.replies := rfl

end Sys2Proof.Machine
end

