-- ==== Sys2Proof/Laws/Tree.lean ====
section
/-! SUPPORT. The arena as a tree: the walks of GENCODES and SERIALIZE are functions of the tree an arena holds, and a
valid arena (R54) holds one, with every node in it. -/

namespace Sys2Proof.Machine

/-! ### Reading a tree out of an arena -/

theorem treeFrom_succ (node : List Node) (fuel k : Nat) :
    treeFrom node (fuel + 1) k =
      match node[k]? with
      | none => none
      | some (.leaf sym _) => some (.leaf sym)
      | some (.internal _ left right) =>
        match treeFrom node fuel left.toNat, treeFrom node fuel right.toNat with
        | some l, some r => some (.node l r)
        | _, _ => none := rfl

/-- What a successful read means. -/
theorem treeFrom_cases {node : List Node} {fuel k : Nat} {t : HTree} (h : treeFrom node (fuel + 1) k = some t) :
    (∃ sym w, node[k]? = some (.leaf sym w) ∧ t = .leaf sym) ∨
    (∃ w left right l r, node[k]? = some (.internal w left right) ∧ treeFrom node fuel left.toNat = some l ∧
      treeFrom node fuel right.toNat = some r ∧ t = .node l r) := by
  rw [treeFrom_succ] at h
  match hk : node[k]? with
  | none => simp [hk] at h
  | some (.leaf sym w) => simp [hk] at h; exact .inl ⟨sym, w, rfl, h.symm⟩
  | some (.internal w left right) =>
    rw [hk] at h
    match hl : treeFrom node fuel left.toNat, hr : treeFrom node fuel right.toNat with
    | some l, some r => simp [hl, hr] at h; exact .inr ⟨w, left, right, l, r, rfl, hl, hr, h.symm⟩
    | none, _ => simp [hl] at h
    | some _, none => simp [hl, hr] at h

/-- More fuel and more nodes leave the tree below an index as it is. -/
theorem treeFrom_mono {node more : List Node} {fuel fuel' k : Nat} {t : HTree} (h : treeFrom node fuel k = some t)
    (hf : fuel ≤ fuel') : treeFrom (node ++ more) fuel' k = some t := by
  induction fuel generalizing fuel' k t with
  | zero => simp [treeFrom] at h
  | succ fuel ih =>
    obtain ⟨f, rfl⟩ : ∃ f, fuel' = f + 1 := ⟨fuel' - 1, by omega⟩
    have look : ∀ x, node[k]? = some x → (node ++ more)[k]? = some x := fun x hx => by
      rw [List.getElem?_append_left (by
        rcases Nat.lt_or_ge k node.length with h | h
        · exact h
        · rw [List.getElem?_eq_none h] at hx; simp at hx)]
      exact hx
    rcases treeFrom_cases h with ⟨sym, w, hk, rfl⟩ | ⟨w, left, right, l, r, hk, hl, hr, rfl⟩
    · simp [treeFrom_succ, look _ hk]
    · simp [treeFrom_succ, look _ hk, ih hl (by omega : fuel ≤ f), ih hr (by omega : fuel ≤ f)]

theorem treeFrom_fuel {node : List Node} {fuel fuel' k : Nat} {t : HTree} (h : treeFrom node fuel k = some t)
    (hf : fuel ≤ fuel') : treeFrom node fuel' k = some t := by
  simpa using treeFrom_mono (more := []) h hf

/-- Children before parents: the walk from an index needs no more fuel than the index allows, and ends. -/
theorem treeFrom_total {node : List Node} (ok : ∀ k, k < node.length → nodeOk node k = true) {k : Nat}
    (hk : k < node.length) : ∃ t, treeFrom node (k + 1) k = some t := by
  induction k using Nat.strong_induction_on with
  | _ k ih =>
    have hok := ok k hk
    match hx : node[k]? with
    | none => simp at hx; omega
    | some (.leaf sym w) => exact ⟨.leaf sym, by simp [treeFrom_succ, hx]⟩
    | some (.internal w left right) =>
      simp only [nodeOk, hx, Bool.and_eq_true, decide_eq_true_eq] at hok
      obtain ⟨⟨⟨h1, h2⟩, _⟩, _⟩ := hok
      obtain ⟨l, hl⟩ := ih _ h1 (by omega)
      obtain ⟨r, hr⟩ := ih _ h2 (by omega)
      exact ⟨.node l r, by
        simp [treeFrom_succ, hx, treeFrom_fuel hl (by omega : left.toNat + 1 ≤ k),
          treeFrom_fuel hr (by omega : right.toNat + 1 ≤ k)]⟩

/-! ### The walks as functions of the tree -/

theorem emitTokens_eq (node : List Node) (fuel k : Nat) :
    emitTokens node fuel k = (treeFrom node fuel k).map HTree.ser := by
  induction fuel generalizing k with
  | zero => rfl
  | succ fuel ih =>
    rw [emitTokens, treeFrom_succ]
    match hx : node[k]? with
    | none => rfl
    | some (.leaf sym w) => rfl
    | some (.internal w left right) =>
      simp only [ih]
      match treeFrom node fuel left.toNat, treeFrom node fuel right.toNat with
      | some l, some r => rfl
      | none, _ => rfl
      | some _, none => rfl

/-- The record of a list of paths, in order (R167, R169). -/
def recordPaths (code : List CodeEntry) (ps : List (Byte × List Bool)) : List CodeEntry :=
  ps.foldl (fun c x => c.set x.1.toNat (CodeEntry.ofPath x.2)) code

theorem walkCodes_eq (node : List Node) (fuel k : Nat) (path : List Bool) (code : List CodeEntry) :
    walkCodes node fuel k path code = (treeFrom node fuel k).map fun t => recordPaths code (t.leafPaths path) := by
  induction fuel generalizing k path code with
  | zero => rfl
  | succ fuel ih =>
    rw [walkCodes, treeFrom_succ]
    match hx : node[k]? with
    | none => rfl
    | some (.leaf sym w) => rfl
    | some (.internal w left right) =>
      simp only [ih]
      match treeFrom node fuel left.toNat, treeFrom node fuel right.toNat with
      | some l, some r => simp [HTree.leafPaths, recordPaths]
      | none, _ => rfl
      | some _, none => rfl

theorem codeTableOf_eq (node : List Node) (root : Nat) :
    codeTableOf node root =
      (treeOf node root).map fun t => recordPaths (List.replicate alphabet CodeEntry.absent) (t.leafPaths []) :=
  walkCodes_eq _ _ _ _ _

/-! ### Sizes -/

theorem HTree.leafCount_pos (t : HTree) : 1 ≤ t.leafCount := by
  induction t with
  | leaf => simp [HTree.leafCount]
  | node l r hl hr => simp only [HTree.leafCount]; omega

theorem HTree.ser_length (t : HTree) : t.ser.length + 1 = 2 * t.leafCount := by
  induction t with
  | leaf => simp [HTree.ser, HTree.leafCount]
  | node l r hl hr =>
    simp only [HTree.ser, HTree.leafCount, List.length_append, List.length_cons, List.length_nil]; omega

/-- A quantity that each node of a valid arena adds up from its children, plus its own share, is at the root the sum
of all the shares: every other node is counted once as a child (R54 (c)). -/
theorem root_eq_sum {M : Type} [AddCancelCommMonoid M] (node : List Node) (root : Nat) (f : Nat → M) (share : Node → M)
    (hroot : root + 1 = node.length) (owner : (childList node).Perm (List.range root))
    (step : ∀ k (h : k < node.length), f k = ((node[k]).children.map f).sum + share node[k]) :
    f root = (node.map share).sum := by
  have h1 : ((List.range node.length).map f).sum = (node.map fun x => (x.children.map f).sum + share x).sum := by
    congr 1
    refine List.ext_getElem (by simp) fun k h h' => ?_
    simp only [List.length_map, List.length_range] at h
    simp [step k h]
  have h2 : ∀ ns : List Node, (ns.map fun x => (x.children.map f).sum + share x).sum
      = ((childList ns).map f).sum + (ns.map share).sum := by
    intro ns
    induction ns with
    | nil => simp [childList]
    | cons x ns ih =>
      simp only [List.map_cons, List.sum_cons, ih]
      simp only [childList, List.flatMap_cons, List.map_append, List.sum_append]
      abel
  rw [h2, (owner.map f).sum_eq, ← hroot, List.range_succ, List.map_append, List.sum_append] at h1
  simpa using h1

/-- What a node adds to a sum over the leaves of a tree: a leaf its value, an internal node nothing. -/
def Node.share {M : Type} [Zero M] (F : HTree → M) : Node → M
  | .leaf sym _ => F (.leaf sym)
  | .internal _ _ _ => 0

/-- A valid arena holds a tree, and a sum over the leaves of that tree is the sum over the leaves of the arena. -/
theorem ArenaOk.sum_tree {node : List Node} {leafCount nodeCount root : Nat} (h : ArenaOk node leafCount nodeCount root) :
    ∃ t, treeOf node root = some t ∧ ∀ (M : Type) [AddCancelCommMonoid M] (F : HTree → M),
      (∀ l r, F (.node l r) = F l + F r) → F t = (node.map (Node.share F)).sum := by
  have hlen : root + 1 = node.length := by rw [h.size, h.rootLast]
  obtain ⟨t, ht⟩ := treeFrom_total h.nodes (show root < node.length by omega)
  replace ht := treeFrom_fuel ht (show root + 1 ≤ node.length by omega)
  refine ⟨t, ht, fun M _ F hF => ?_⟩
  let f : Nat → M := fun k => ((treeFrom node node.length k).map F).getD 0
  have key := root_eq_sum node root f (Node.share F) hlen h.owner (fun k hk => by
    have hok := h.nodes k hk
    match hx : node[k] with
    | .leaf sym w =>
      obtain ⟨n, hn⟩ : ∃ n, node.length = n + 1 := ⟨root, by omega⟩
      simp [f, hn, treeFrom_succ, List.getElem?_eq_getElem hk, hx, Node.children, Node.share]
    | .internal w left right =>
      simp only [nodeOk, List.getElem?_eq_getElem hk, hx, Bool.and_eq_true, decide_eq_true_eq] at hok
      obtain ⟨⟨⟨h1, h2⟩, _⟩, _⟩ := hok
      obtain ⟨l, hl⟩ := treeFrom_total h.nodes (show left.toNat < node.length by omega)
      obtain ⟨r, hr⟩ := treeFrom_total h.nodes (show right.toNat < node.length by omega)
      have hkk : treeFrom node (k + 1) k = some (.node l r) := by
        simp [treeFrom_succ, List.getElem?_eq_getElem hk, hx, treeFrom_fuel hl (by omega : left.toNat + 1 ≤ k),
          treeFrom_fuel hr (by omega : right.toNat + 1 ≤ k)]
      simp [f, treeFrom_fuel hkk (by omega : k + 1 ≤ node.length), treeFrom_fuel hl (by omega : left.toNat + 1 ≤ node.length),
        treeFrom_fuel hr (by omega : right.toNat + 1 ≤ node.length), hF, Node.children, Node.share])
  have hf : f root = F t := by simp [f, ht]
  rw [← hf, key]

/-- Every valid arena holds a tree, with as many leaves as `LEAF_COUNT` says. -/
theorem ArenaOk.tree {node : List Node} {leafCount nodeCount root : Nat} (h : ArenaOk node leafCount nodeCount root) :
    ∃ t, treeOf node root = some t ∧ t.leafCount = leafCount := by
  obtain ⟨t, ht, hsum⟩ := h.sum_tree
  refine ⟨t, ht, ?_⟩
  rw [hsum Nat HTree.leafCount (fun _ _ => rfl), h.leaves]
  clear hsum ht h
  induction node with
  | nil => rfl
  | cons x ns ih => cases x <;> simp [List.countP_cons, Node.share, Node.isLeaf, HTree.leafCount, ih, Nat.add_comm]

/-- The bytes of the leaves, with repetition. -/
def HTree.leafSyms : HTree → Multiset Byte
  | .leaf sym => {sym}
  | .node l r => l.leafSyms + r.leafSyms

theorem HTree.leafSyms_paths (t : HTree) (pre : List Bool) :
    ((t.leafPaths pre).map Prod.fst : Multiset Byte) = t.leafSyms := by
  induction t generalizing pre with
  | leaf s => rfl
  | node l r hl hr => simp [HTree.leafPaths, HTree.leafSyms, ← hl (pre ++ [false]), ← hr (pre ++ [true])]

/-- The tree of an arena whose leaves are `leaves` and come first has exactly their bytes. -/
theorem ArenaOk.leafSyms {node leaves : List Node} {nodeCount root : Nat} (h : ArenaOk node leaves.length nodeCount root)
    (hp : leaves <+: node) (hl : ∀ x ∈ leaves, x.isLeaf = true) {t : HTree} (ht : treeOf node root = some t) :
    t.leafSyms = (leaves.map fun x => match x with | .leaf sym _ => ({sym} : Multiset Byte) | .internal _ _ _ => 0).sum := by
  obtain ⟨t', ht', hsum⟩ := h.sum_tree
  obtain rfl : t = t' := Option.some.inj (ht.symm.trans ht')
  rw [hsum (Multiset Byte) HTree.leafSyms (fun _ _ => rfl)]
  obtain ⟨rest, rfl⟩ := hp
  have hrest : ∀ x ∈ rest, x.isLeaf = false := by
    have hc := h.leaves
    rw [List.countP_append, List.countP_eq_length.2 hl] at hc
    have : rest.countP Node.isLeaf = 0 := by omega
    rw [List.countP_eq_zero] at this
    intro x hx
    simpa using this x hx
  rw [List.map_append, List.sum_append]
  have h0 : (rest.map (Node.share HTree.leafSyms)).sum = 0 := by
    refine List.sum_eq_zero fun m hm => ?_
    obtain ⟨x, hx, rfl⟩ := List.mem_map.1 hm
    cases x with
    | leaf => have := hrest _ hx; simp [Node.isLeaf] at this
    | internal => rfl
  rw [h0, add_zero]
  rfl

/-! ### Paths -/

/-- The paths a traversal lists are those that lead to leaves. -/
theorem HTree.mem_leafPaths (t : HTree) (pre : List Bool) (sym : Byte) (path : List Bool) :
    (sym, path) ∈ t.leafPaths pre ↔ ∃ p, path = pre ++ p ∧ t.follow p = some (.leaf sym) := by
  induction t generalizing pre with
  | leaf s =>
    simp only [HTree.leafPaths, List.mem_singleton, Prod.mk.injEq]
    constructor
    · rintro ⟨rfl, rfl⟩; exact ⟨[], by simp, rfl⟩
    · rintro ⟨p, rfl, hp⟩
      cases p with
      | nil => simp [HTree.follow] at hp; simp [hp]
      | cons b p => simp [HTree.follow] at hp
  | node l r hl hr =>
    simp only [HTree.leafPaths, List.mem_append, hl, hr]
    constructor
    · rintro (⟨p, rfl, hp⟩ | ⟨p, rfl, hp⟩)
      · exact ⟨false :: p, by simp, by simpa [HTree.follow] using hp⟩
      · exact ⟨true :: p, by simp, by simpa [HTree.follow] using hp⟩
    · rintro ⟨p, rfl, hp⟩
      cases p with
      | nil => simp [HTree.follow] at hp
      | cons b p =>
        cases b
        · exact .inl ⟨p, by simp, by simpa [HTree.follow] using hp⟩
        · exact .inr ⟨p, by simp, by simpa [HTree.follow] using hp⟩

/-- A path to a leaf is shorter than the number of leaves (R170 (b)). -/
theorem HTree.follow_length {t : HTree} {p : List Bool} {sym : Byte} (h : t.follow p = some (.leaf sym)) :
    p.length + 1 ≤ t.leafCount := by
  induction t generalizing p with
  | leaf s => cases p with
    | nil => simp [HTree.leafCount]
    | cons b p => simp [HTree.follow] at h
  | node l r hl hr =>
    have h1 := l.leafCount_pos
    have h2 := r.leafCount_pos
    cases p with
    | nil => simp [HTree.follow] at h
    | cons b p =>
      cases b
      · have := hl (by simpa [HTree.follow] using h); simp only [HTree.leafCount, List.length_cons]; omega
      · have := hr (by simpa [HTree.follow] using h); simp only [HTree.leafCount, List.length_cons]; omega

/-- No path to a leaf goes on from another (R170 (a)). -/
theorem HTree.follow_prefix {t : HTree} {p q : List Bool} {a b : Byte} (hp : t.follow p = some (.leaf a))
    (hq : t.follow q = some (.leaf b)) (h : p <+: q) : p = q := by
  induction t generalizing p q with
  | leaf s =>
    cases p with
    | nil => cases q with
      | nil => rfl
      | cons c q => simp [HTree.follow] at hq
    | cons c p => simp [HTree.follow] at hp
  | node l r hl hr =>
    cases p with
    | nil => simp [HTree.follow] at hp
    | cons c p =>
      cases q with
      | nil => simp at h
      | cons d q =>
        obtain ⟨rfl, h'⟩ := List.cons_prefix_cons.1 h
        cases c
        · rw [hl (p := p) (q := q) (by simpa [HTree.follow] using hp) (by simpa [HTree.follow] using hq) h']
        · rw [hr (p := p) (q := q) (by simpa [HTree.follow] using hp) (by simpa [HTree.follow] using hq) h']

theorem HTree.codeOf_follow {t : HTree} {sym : Byte} {p : List Bool} (h : t.codeOf sym = some p) :
    t.follow p = some (.leaf sym) := by
  unfold HTree.codeOf at h
  match hx : ((t.leafPaths []).filter fun x => x.1 == sym).getLast? with
  | none => simp [hx] at h
  | some (s, q) =>
    rw [hx] at h
    have hm := List.mem_of_getLast? hx
    simp only [List.mem_filter, beq_iff_eq] at hm
    obtain ⟨hm, rfl⟩ := hm
    obtain ⟨q', rfl, hq⟩ := (HTree.mem_leafPaths _ _ _ _).1 hm
    simp at h
    subst h
    simpa using hq

theorem HTree.codeOf_isSome (t : HTree) (sym : Byte) :
    (t.codeOf sym).isSome = true ↔ ∃ p, t.follow p = some (.leaf sym) := by
  unfold HTree.codeOf
  rw [Option.isSome_map, List.getLast?_isSome]
  constructor
  · intro h
    obtain ⟨⟨s, q⟩, hm⟩ := List.exists_mem_of_ne_nil _ h
    simp only [List.mem_filter, beq_iff_eq] at hm
    obtain ⟨hm, rfl⟩ := hm
    obtain ⟨q', rfl, hq⟩ := (HTree.mem_leafPaths _ _ _ _).1 hm
    exact ⟨_, hq⟩
  · rintro ⟨p, hp⟩ hnil
    have hm : (sym, p) ∈ (t.leafPaths []).filter fun x => x.1 == sym := by
      simp only [List.mem_filter, beq_self_eq_true, and_true]
      exact (HTree.mem_leafPaths _ _ _ _).2 ⟨p, by simp, hp⟩
    rw [hnil] at hm
    simp at hm

/-- What the record of a list of paths holds for a byte: its last path, or what was there before. -/
theorem recordPaths_getD (code : List CodeEntry) (ps : List (Byte × List Bool)) (sym : Byte)
    (hlen : code.length = alphabet) :
    (recordPaths code ps).getD sym.toNat CodeEntry.absent =
      (((ps.filter fun x => x.1 == sym).getLast?).map fun x => CodeEntry.ofPath x.2).getD
        (code.getD sym.toNat CodeEntry.absent) := by
  induction ps using List.reverseRecOn with
  | nil => simp [recordPaths]
  | append_singleton ps x ih =>
    have hl : (recordPaths code ps).length = alphabet := by
      clear ih
      induction ps using List.reverseRecOn with
      | nil => simpa [recordPaths] using hlen
      | append_singleton ps y ih => simp only [recordPaths, List.foldl_append, List.foldl_cons, List.foldl_nil,
          List.length_set] at ih ⊢; exact ih
    obtain ⟨s, p⟩ := x
    have happ : recordPaths code (ps ++ [(s, p)]) = (recordPaths code ps).set s.toNat (CodeEntry.ofPath p) := by
      simp [recordPaths]
    rw [happ]
    have hs : s.toNat < alphabet := s.isLt
    by_cases h : s = sym
    · subst h
      simp [List.getD_eq_getElem?_getD, hl, hs]
    · have hne : s.toNat ≠ sym.toNat := fun e => h (BitVec.eq_of_toNat_eq e)
      rw [List.getD_eq_getElem?_getD, List.getElem?_set_ne hne, ← List.getD_eq_getElem?_getD, ih]
      simp [List.filter_append, h]

theorem recordPaths_length (code : List CodeEntry) (ps : List (Byte × List Bool)) :
    (recordPaths code ps).length = code.length := by
  induction ps using List.reverseRecOn with
  | nil => rfl
  | append_singleton ps y ih => simpa [recordPaths] using ih

/-- The code table of a tree, byte by byte (R167, R169). -/
theorem codeTableOf_getD {node : List Node} {root : Nat} {t : HTree} {code : List CodeEntry}
    (ht : treeOf node root = some t) (hc : codeTableOf node root = some code) (sym : Byte) :
    code.getD sym.toNat CodeEntry.absent = ((t.codeOf sym).map CodeEntry.ofPath).getD CodeEntry.absent := by
  rw [codeTableOf_eq, ht] at hc
  simp only [Option.map_some, Option.some.injEq] at hc
  subst hc
  rw [recordPaths_getD _ _ _ (by simp)]
  unfold HTree.codeOf
  simp [List.getD_eq_getElem?_getD, show sym.toNat < alphabet from sym.isLt,
    Function.comp_def]

end Sys2Proof.Machine
end

