-- ==== Sys2Proof/Laws/Build.lean ====
section
/-! SUPPORT. What FREQ's count and BUILD's merge do (41_frequency.md R136, 42_tree_build.md R151 to R155). -/

namespace Sys2Proof.Machine

/-! ### Counting -/

theorem countStep_length (count : List Word) (b : Byte) : (countStep count b).length = count.length := by
  simp [countStep]

/-- The counts of a sequence with one more byte at its end. -/
theorem countBytes_append (x : List Byte) (b : Byte) : countBytes (x ++ [b]) = countStep (countBytes x) b := by
  simp [countBytes]

@[simp] theorem countBytes_length (x : List Byte) : (countBytes x).length = alphabet := by
  induction x using List.reverseRecOn with
  | nil => simp [countBytes]
  | append_singleton x b ih => rw [countBytes_append, countStep_length, ih]

/-- `COUNT[s]` is the number of occurrences of `s` (R44). -/
theorem countBytes_getD (x : List Byte) (sym : Byte) :
    (countBytes x).getD sym.toNat 0 = BitVec.ofNat 32 (x.count sym) := by
  induction x using List.reverseRecOn with
  | nil => simp [countBytes, List.getD_eq_getElem?_getD, show sym.toNat < alphabet from sym.isLt]
  | append_singleton x b ih =>
    rw [countBytes_append, countStep, List.count_append]
    by_cases h : b = sym
    · subst h
      have hb : b.toNat < alphabet := b.isLt
      rw [List.getD_eq_getElem?_getD, List.getElem?_set_self (by simpa using hb), Option.getD_some, ih]
      simp [BitVec.ofNat_add]
    · have hne : b.toNat ≠ sym.toNat := fun e => h (BitVec.eq_of_toNat_eq e)
      rw [List.getD_eq_getElem?_getD, List.getElem?_set_ne hne, ← List.getD_eq_getElem?_getD, ih]
      simp [h]

theorem sum_set (l : List Nat) (i v : Nat) (h : i < l.length) : (l.set i v).sum + l[i] = l.sum + v := by
  induction l generalizing i with
  | nil => simp at h
  | cons a l ih =>
    cases i with
    | zero => simp; omega
    | succ i => have := ih i (by simpa using h); simp at this ⊢; omega

/-- The counts add up to the length of the input (R136). -/
theorem countBytes_sum (x : List Byte) (h : x.length < 2 ^ 32) : ((countBytes x).map BitVec.toNat).sum = x.length := by
  induction x using List.reverseRecOn with
  | nil => simp [countBytes]
  | append_singleton x b ih =>
    simp only [List.length_append, List.length_cons, List.length_nil] at h ⊢
    have ih := ih (by omega)
    have hb : b.toNat < (countBytes x).length := by rw [countBytes_length]; exact b.isLt
    have hget := countBytes_getD x b
    rw [List.getD_eq_getElem?_getD, List.getElem?_eq_getElem hb, Option.getD_some] at hget
    have hcount : x.count b ≤ x.length := List.count_le_length
    rw [countBytes_append, countStep, List.map_set, List.getD_eq_getElem?_getD, List.getElem?_eq_getElem hb,
      Option.getD_some, hget]
    have hs := sum_set ((countBytes x).map BitVec.toNat) b.toNat (BitVec.ofNat 32 (x.count b) + 1).toNat (by simpa using hb)
    rw [List.getElem_map, hget] at hs
    have h1 : (BitVec.ofNat 32 (x.count b)).toNat = x.count b := by
      rw [BitVec.toNat_ofNat, Nat.mod_eq_of_lt (by omega)]
    have h2 : (BitVec.ofNat 32 (x.count b) + 1).toNat = x.count b + 1 := by
      rw [BitVec.toNat_add, h1]; simp; omega
    rw [h1, h2, ih] at hs
    rw [h2]; omega

/-! ### The least member of the queue -/

theorem precedes_iff (node : List Node) (x y : Nat) :
    precedes node x y = true ↔ (weightAt node x).toNat < (weightAt node y).toNat ∨
      ((weightAt node x).toNat = (weightAt node y).toNat ∧ x < y) := by
  simp only [precedes, Bool.or_eq_true, Bool.and_eq_true, decide_eq_true_eq, beq_iff_eq, ← BitVec.toNat_inj]

/-- The order of R152 is total on different members. -/
theorem precedes_total (node : List Node) {x y : Nat} (h : x ≠ y) :
    precedes node x y = true ∨ precedes node y x = true := by
  simp only [precedes_iff]; omega

theorem precedes_trans (node : List Node) {x y z : Nat} (h1 : precedes node x y = true) (h2 : precedes node y z = true) :
    precedes node x z = true := by
  simp only [precedes_iff] at *; omega

theorem minMember_eq_none (node : List Node) (pq : List Nat) : minMember node pq = none ↔ pq = [] := by
  cases pq with
  | nil => simp [minMember]
  | cons x pq =>
    simp only [minMember, reduceCtorEq, iff_false]
    split
    · simp
    · split <;> simp

/-- `extract_min` finds the member that precedes all others. -/
theorem minMember_spec {node : List Node} {pq : List Nat} {m : Nat} (h : minMember node pq = some m) :
    m ∈ pq ∧ ∀ x ∈ pq, x ≠ m → precedes node m x = true := by
  induction pq generalizing m with
  | nil => simp [minMember] at h
  | cons y pq ih =>
    simp only [minMember] at h
    split at h
    · next hn =>
      obtain rfl : y = m := by simpa using h
      rw [(minMember_eq_none _ _).1 hn]
      simp
    · next z hz =>
      obtain ⟨hz1, hz2⟩ := ih hz
      split at h
      · next hp =>
        obtain rfl : y = m := by simpa using h
        refine ⟨by simp, fun x hx hxy => ?_⟩
        rcases List.mem_cons.1 hx with rfl | hx
        · exact absurd rfl hxy
        · by_cases hxz : x = z
          · rw [hxz]; exact hp
          · exact precedes_trans node hp (hz2 x hx hxz)
      · next hp =>
        obtain rfl : z = m := by simpa using h
        refine ⟨by simp [hz1], fun x hx hxz => ?_⟩
        rcases List.mem_cons.1 hx with rfl | hx
        · rcases precedes_total node hxz with h | h
          · exact absurd h hp
          · exact h
        · exact hz2 x hx hxz

/-! ### Appending to the arena -/

theorem weightAt_append {node : List Node} {k : Nat} (h : k < node.length) (x : List Node) :
    weightAt (node ++ x) k = weightAt node k := by
  simp [weightAt, List.getElem?_append_left h]

theorem nodeOk_append {node : List Node} {k : Nat} (h : k < node.length) (x : List Node) :
    nodeOk (node ++ x) k = nodeOk node k := by
  unfold nodeOk
  rw [List.getElem?_append_left h]
  match node[k]? with
  | none => rfl
  | some (.leaf _ _) => rfl
  | some (.internal w l r) =>
    simp only
    by_cases h1 : l.toNat < k
    · by_cases h2 : r.toNat < k
      · rw [weightAt_append (by omega), weightAt_append (by omega)]
      · simp [h2]
    · simp [h1]

theorem queueAt_append {node : List Node} {k : Nat} (h : k ≤ node.length) (x : List Node) :
    queueAt (node ++ x) k = queueAt node k := by
  unfold queueAt
  rw [List.take_append_of_le_length h]

theorem mergeOk_append {node : List Node} {k : Nat} (h : k < node.length) (x : List Node) (ok : mergeOk node k) :
    mergeOk (node ++ x) k := by
  unfold mergeOk at *
  rw [List.getElem?_append_left h, queueAt_append (by omega)]
  have lt : ∀ y ∈ queueAt node k, y < node.length := fun y hy => by
    have := (List.mem_filter.1 hy).1; simp at this; omega
  have pr : ∀ a b, a ∈ queueAt node k → b ∈ queueAt node k → precedes (node ++ x) a b = precedes node a b :=
    fun a b ha hb => by unfold precedes; rw [weightAt_append (lt a ha), weightAt_append (lt b hb)]
  match hx : node[k]? with
  | none => trivial
  | some (.leaf _ _) => trivial
  | some (.internal w l r) =>
    rw [hx] at ok
    obtain ⟨h1, h2, h3, h4, h5⟩ := ok
    exact ⟨h1, h2, h3, fun y hy hne => by rw [pr _ _ h1 hy]; exact h4 y hy hne,
      fun y hy hne hne' => by rw [pr _ _ h2 hy]; exact h5 y hy hne hne'⟩

/-! ### The merge loop -/

/-- What holds while BUILD merges (R151 to R153), `leaves` being the arena after step 1. -/
structure Merging (leaves node : List Node) (pq : List Nat) : Prop where
  start : leaves <+: node
  owned : (pq ++ childList node).Perm (List.range node.length)
  nodes : ∀ k, k < node.length → nodeOk node k = true
  count : node.countP Node.isLeaf = leaves.length
  total : node.length + pq.length = 2 * leaves.length
  last : node ≠ [] → node.length - 1 ∈ pq
  greedy : ∀ k, k < node.length → mergeOk node k

theorem Merging.init (leaves : List Node) (h : ∀ x ∈ leaves, x.isLeaf = true) :
    Merging leaves leaves (List.range leaves.length) where
  start := List.prefix_rfl
  owned := by
    have : childList leaves = [] := by
      unfold childList
      rw [List.flatMap_eq_nil_iff]
      intro x hx
      cases x with
      | leaf => rfl
      | internal => have := h _ hx; simp [Node.isLeaf] at this
    rw [this, List.append_nil]
  nodes := fun k hk => by
    unfold nodeOk
    rw [List.getElem?_eq_getElem hk]
    have := h _ (List.getElem_mem hk)
    cases hx : leaves[k] with
    | leaf => rfl
    | internal => rw [hx] at this; simp [Node.isLeaf] at this
  count := List.countP_eq_length.2 h
  total := by simp; omega
  last := fun hne => by
    have : 0 < leaves.length := List.length_pos_of_ne_nil hne
    simp; omega
  greedy := fun k hk => by
    unfold mergeOk
    rw [List.getElem?_eq_getElem hk]
    have := h _ (List.getElem_mem hk)
    cases hx : leaves[k] with
    | leaf => trivial
    | internal => rw [hx] at this; simp [Node.isLeaf] at this

theorem Merging.mem_pq {leaves node : List Node} {pq : List Nat} (h : Merging leaves node pq) (x : Nat) :
    x ∈ pq ↔ x ∈ queueAt node node.length := by
  have hnd : (pq ++ childList node).Nodup := h.owned.nodup_iff.2 List.nodup_range
  have hmem : ∀ y, y ∈ pq ++ childList node ↔ y < node.length := fun y => by
    rw [h.owned.mem_iff]; simp
  simp only [queueAt, List.take_length, List.mem_filter, List.mem_range, Bool.not_eq_true', List.contains_eq_mem,
    decide_eq_false_iff_not]
  constructor
  · intro hx
    exact ⟨(hmem x).1 (List.mem_append_left _ hx), fun hc => (List.disjoint_of_nodup_append hnd) hx hc⟩
  · rintro ⟨h1, h2⟩
    rcases List.mem_append.1 ((hmem x).2 h1) with h | h
    · exact h
    · exact absurd h h2

/-- One merge keeps it, and leaves one member fewer. -/
theorem Merging.step {leaves node : List Node} {pq : List Nat} (h : Merging leaves node pq) (hsmall : leaves.length ≤ alphabet)
    (hpq : 2 ≤ pq.length) :
    ∃ node' pq', mergeStep node pq = some (node', pq') ∧ Merging leaves node' pq' ∧ pq'.length + 1 = pq.length := by
  have hlen : node.length < 511 := by have := h.total; simp only [alphabet] at hsmall; omega
  have hnd : pq.Nodup := (List.nodup_append.1 (h.owned.nodup_iff.2 List.nodup_range)).1
  have hlt : ∀ x ∈ pq, x < node.length := fun x hx => by
    have : x ∈ pq ++ childList node := List.mem_append_left _ hx
    rw [h.owned.mem_iff] at this; simpa using this
  cases ha : minMember node pq with
  | none => rw [(minMember_eq_none _ _).1 ha] at hpq; simp at hpq
  | some a =>
    obtain ⟨ha1, ha2⟩ := minMember_spec ha
    have hl1 : (pq.erase a).length + 1 = pq.length := by rw [List.length_erase_of_mem ha1]; omega
    cases hb : minMember node (pq.erase a) with
    | none => rw [(minMember_eq_none _ _).1 hb] at hl1; simp at hl1; omega
    | some b =>
      obtain ⟨hb1, hb2⟩ := minMember_spec hb
      have hb0 : b ∈ pq := List.mem_of_mem_erase hb1
      have hba : b ≠ a := fun e => by subst e; exact (hnd.not_mem_erase) hb1
      have hl2 : ((pq.erase a).erase b).length + 1 = (pq.erase a).length := by
        rw [List.length_erase_of_mem hb1]; omega
      have hal := hlt a ha1
      have hbl := hlt b hb0
      have ta : (BitVec.ofNat 9 a).toNat = a := by simp; omega
      have tb : (BitVec.ofNat 9 b).toNat = b := by simp; omega
      have hne : BitVec.ofNat 9 a ≠ BitVec.ofNat 9 b := fun e => hba (by rw [← ta, ← tb, e])
      let new : Node := .internal (weightAt node a + weightAt node b) (BitVec.ofNat 9 a) (BitVec.ofNat 9 b)
      refine ⟨node ++ [new], ((pq.erase a).erase b) ++ [node.length], ?_, ?_, ?_⟩
      · simp [mergeStep, extractMin, ha, hb, new]
      · refine ⟨h.start.trans (List.prefix_append _ _), ?_, ?_, ?_, ?_, ?_, ?_⟩
        · have hc : childList (node ++ [new]) = childList node ++ [a, b] := by
            simp [childList, new, Node.children, ta, tb]
          have p1 : pq.Perm (a :: b :: (pq.erase a).erase b) :=
            (List.perm_cons_erase ha1).trans ((List.perm_cons_erase hb1).cons a)
          rw [hc, List.length_append, List.length_singleton, List.range_succ]
          have p0 : (((pq.erase a).erase b ++ [node.length]) ++ (childList node ++ [a, b])).Perm
              ((a :: b :: (pq.erase a).erase b) ++ childList node ++ [node.length]) := by
            rw [List.perm_iff_count]
            intro x
            simp only [List.count_append, List.count_cons, List.count_nil]
            omega
          exact (p0.trans ((p1.symm.append_right _).append_right _)).trans (h.owned.append_right _)
        · intro k hk
          simp only [List.length_append, List.length_singleton] at hk
          rcases Nat.lt_or_ge k node.length with hk' | hk'
          · rw [nodeOk_append hk']; exact h.nodes k hk'
          · obtain rfl : k = node.length := by omega
            simp only [nodeOk, List.getElem?_concat_length, new, ta, tb, Bool.and_eq_true, decide_eq_true_eq, bne_iff_ne,
              beq_iff_eq, weightAt_append hal, weightAt_append hbl]
            exact ⟨⟨⟨hal, hbl⟩, hne⟩, trivial⟩
        · simp [h.count, new, Node.isLeaf]
        · have := h.total
          simp only [List.length_append, List.length_singleton]; omega
        · intro _; simp
        · intro k hk
          simp only [List.length_append, List.length_singleton] at hk
          rcases Nat.lt_or_ge k node.length with hk' | hk'
          · exact mergeOk_append hk' _ (h.greedy k hk')
          · obtain rfl : k = node.length := by omega
            unfold mergeOk
            rw [List.getElem?_concat_length, queueAt_append le_rfl]
            simp only [new, ta, tb, ← h.mem_pq]
            have pr : ∀ x y, x ∈ pq → y ∈ pq → precedes (node ++ [new]) x y = precedes node x y :=
              fun x y hx hy => by unfold precedes; rw [weightAt_append (hlt x hx), weightAt_append (hlt y hy)]
            refine ⟨ha1, hb0, hne, fun x hx hxa => ?_, fun x hx hxa hxb => ?_⟩
            · exact (pr _ _ ha1 hx).trans (ha2 x hx hxa)
            · exact (pr _ _ hb0 hx).trans (hb2 x ((List.mem_erase_of_ne hxa).2 hx) hxb)
      · simp only [List.length_append, List.length_singleton]; omega

theorem mergeLoop_spec {leaves : List Node} (hsmall : leaves.length ≤ alphabet) (fuel : Nat) {node : List Node}
    {pq : List Nat} (h : Merging leaves node pq) (hpos : 1 ≤ pq.length) (hf : pq.length ≤ fuel + 1) :
    Merging leaves (mergeLoop fuel node pq).1 (mergeLoop fuel node pq).2 ∧ (mergeLoop fuel node pq).2.length = 1 := by
  induction fuel generalizing node pq with
  | zero => exact ⟨h, by simp only [mergeLoop]; omega⟩
  | succ fuel ih =>
    rcases Nat.lt_or_ge pq.length 2 with h1 | h2
    · have hone : pq.length = 1 := by omega
      obtain ⟨a, rfl⟩ := List.length_eq_one_iff.1 hone
      have hnone : mergeStep node [a] = none := by
        simp [mergeStep, extractMin, minMember]
      simp only [mergeLoop, hnone]
      exact ⟨h, rfl⟩
    · obtain ⟨node', pq', he, hm, hl⟩ := h.step hsmall h2
      simp only [mergeLoop, he]
      exact ih hm (by omega) (by omega)

/-- BUILD's leaves (R151). -/
theorem leavesOf_isLeaf (count : List Word) : ∀ x ∈ leavesOf count, x.isLeaf = true := by
  intro x hx
  simp only [leavesOf, List.mem_filterMap, List.mem_range] at hx
  obtain ⟨sym, _, h⟩ := hx
  split at h
  · simp at h
  · simp at h; rw [← h]; rfl

theorem leavesOf_length_le (count : List Word) : (leavesOf count).length ≤ alphabet := by
  refine (List.length_filterMap_le _ _).trans ?_
  simp

/-- The whole merge (R153 to R155): the arena it leaves is valid and greedy, and its root is the node created last. -/
theorem mergeLoop_arena {count : List Word} (hne : leavesOf count ≠ []) :
    ∃ node r, mergeLoop (leavesOf count).length (leavesOf count) (List.range (leavesOf count).length) = (node, [r]) ∧
      leavesOf count <+: node ∧ ArenaOk node (leavesOf count).length node.length r ∧
      ∀ k, k < node.length → mergeOk node k := by
  have hpos : 0 < (leavesOf count).length := List.length_pos_of_ne_nil hne
  obtain ⟨h, hone⟩ := mergeLoop_spec (leavesOf_length_le count) (leavesOf count).length
    (Merging.init _ (leavesOf_isLeaf count)) (by simp; omega) (by simp)
  obtain ⟨r, hr⟩ := List.length_eq_one_iff.1 hone
  generalize hm : mergeLoop (leavesOf count).length (leavesOf count) (List.range (leavesOf count).length) = res at *
  obtain ⟨node, pq⟩ := res
  simp only at hr h
  subst hr
  have hnode : node ≠ [] := fun e => by
    have := h.start; rw [e] at this; exact hne (List.prefix_nil.1 this)
  have hlast := h.last hnode
  have hlen : 0 < node.length := List.length_pos_of_ne_nil hnode
  obtain rfl : r = node.length - 1 := by simp at hlast; exact hlast.symm
  refine ⟨node, _, rfl, h.start, ⟨rfl, by omega, h.count.symm, ?_, leavesOf_length_le count, h.nodes, ?_⟩, h.greedy⟩
  · have := h.total; simp only [List.length_singleton] at this; omega
  · have := h.owned
    rw [show List.range node.length = List.range (node.length - 1) ++ [node.length - 1] by
      rw [← List.range_succ]; congr 1; omega] at this
    have h2 : ([node.length - 1] ++ childList node).Perm ([node.length - 1] ++ List.range (node.length - 1)) :=
      this.trans List.perm_append_comm
    exact (List.perm_append_left_iff _).1 h2

/-- The weight at the root of a valid arena is the sum of its leaves' weights (R154). -/
theorem ArenaOk.rootWeight {node : List Node} {leafCount nodeCount root : Nat} (h : ArenaOk node leafCount nodeCount root) :
    weightAt node root = (node.map fun x => if x.isLeaf then x.weight else 0).sum := by
  refine root_eq_sum node root (weightAt node) _ (by rw [h.size, h.rootLast]) h.owner fun k hk => ?_
  have hok := h.nodes k hk
  have hw : weightAt node k = (node[k]).weight := by simp [weightAt, List.getElem?_eq_getElem hk]
  rw [hw]
  cases hx : node[k] with
  | leaf sym w => simp [Node.children, Node.isLeaf, Node.weight]
  | internal w l r =>
    simp only [nodeOk, List.getElem?_eq_getElem hk, hx, Bool.and_eq_true, decide_eq_true_eq, beq_iff_eq] at hok
    simp [Node.children, Node.isLeaf, Node.weight, hok.2]

/-- BUILD's leaves, one for each nonzero count (R151). -/
theorem leavesOf_eq (count : List Word) : leavesOf count =
    ((List.range 256).filter fun sym => count.getD sym 0 != 0).map
        (fun sym => Node.leaf (BitVec.ofNat 8 sym) (count.getD sym 0)) := by
  unfold leavesOf alphabet
  rw [← List.filterMap_eq_map, List.filterMap_filter]
  congr 1
  funext sym
  by_cases h : count.getD sym 0 = 0
  · rw [if_pos h, h]; rfl
  · rw [if_neg h, if_pos (by simpa using h)]; rfl

/-- Valid counts give at least one leaf (R136, R150). -/
theorem leavesOf_ne_nil {count : List Word} {total cap : Nat} (h : CountsOk count total cap) : leavesOf count ≠ [] := by
  intro hn
  rw [leavesOf_eq, List.map_eq_nil_iff, List.filter_eq_nil_iff] at hn
  have hz : ∀ x ∈ count.map BitVec.toNat, x = 0 := by
    intro x hx
    obtain ⟨w, hw, rfl⟩ := List.mem_map.1 hx
    obtain ⟨k, hk, rfl⟩ := List.mem_iff_getElem.1 hw
    have := hn k (by simpa using (by have := h.size; unfold alphabet at this; omega : k < 256))
    simp [List.getD_eq_getElem?_getD, hk] at this
    simp [this]
  have := List.sum_eq_zero hz
  rw [h.sum] at this
  have := h.pos
  omega

theorem sum_leaf_weights (node : List Node) :
    (node.map fun x => if x.isLeaf = true then x.weight else 0).sum = ((node.filter Node.isLeaf).map Node.weight).sum := by
  induction node with
  | nil => rfl
  | cons x ns ih =>
    rw [List.map_cons, List.sum_cons, ih, List.filter_cons]
    split
    · simp
    · exact zero_add _

theorem sum_range_getD (l : List Word) (n : Nat) (h : l.length = n) : ((List.range n).map fun k => l.getD k 0).sum = l.sum := by
  have : (List.range n).map (fun k => l.getD k 0) = l := by
    subst h
    refine List.ext_getElem (by simp) fun k h1 h2 => ?_
    simp [List.getD_eq_getElem?_getD, h2]
  rw [this]

theorem toNat_sum (l : List Word) (h : (l.map BitVec.toNat).sum < 2 ^ 32) : l.sum.toNat = (l.map BitVec.toNat).sum := by
  induction l with
  | nil => rfl
  | cons x l ih =>
    simp only [List.map_cons, List.sum_cons] at h ⊢
    rw [BitVec.toNat_add, ih (by omega)]
    omega

theorem leaves_sum (count : List Word) (h : count.length = 256) : ((leavesOf count).map Node.weight).sum = count.sum := by
  rw [leavesOf_eq, List.map_map, ← sum_range_getD count 256 h]
  generalize List.range 256 = l
  induction l with
  | nil => rfl
  | cons x l ih =>
    by_cases hx : count.getD x 0 = 0
    · simp only [List.map_cons, List.sum_cons, List.filter_cons, hx, bne_self_eq_false, Bool.false_eq_true, if_false, ih]
      simp
    · have hx' : (count.getD x 0 != 0) = true := by simpa using hx
      simp only [List.map_cons, List.sum_cons, List.filter_cons, hx', if_true, ih, Function.comp, Node.weight]

end Sys2Proof.Machine
end

