-- ==== Sys2Proof/Laws/Memory.lean ====
section
/-! SUPPORT. The laws of the byte memory and of its views: a read after a write, everything else unchanged, and the
canonical form kept by every operation (20_memory.md R65 to R68). -/

namespace Sys2Proof.Machine

/-! ### One byte -/

@[simp] theorem Memory.get_nil (a : Nat) : Memory.get [] a = none := rfl

theorem Memory.get_setByte (m : Memory) (a : Nat) (b : Byte) (x : Nat) :
    (m.setByte a b).get x = if x = a then some b else m.get x := by
  induction m with
  | nil => simp [Memory.setByte, Memory.get]
  | cons c m ih =>
    obtain ⟨k, c⟩ := c
    simp only [Memory.setByte]
    split
    · simp [Memory.get]
    · split
      · next h => subst h; simp only [Memory.get]; split <;> simp_all
      · simp only [Memory.get, ih]
        by_cases hx : x = k
        · subst hx; simp; omega
        · simp [hx]

@[simp] theorem Memory.get_setByte_self (m : Memory) (a : Nat) (b : Byte) : (m.setByte a b).get a = some b := by
  simp [Memory.get_setByte]

theorem Memory.get_setByte_ne {m : Memory} {a x : Nat} {b : Byte} (h : x ≠ a) :
    (m.setByte a b).get x = m.get x := by
  simp [Memory.get_setByte, h]

/-- The addresses listed after a write. -/
theorem Memory.mem_keys_setByte (m : Memory) (a : Nat) (b : Byte) (x : Nat) :
    x ∈ (m.setByte a b).map Prod.fst ↔ x = a ∨ x ∈ m.map Prod.fst := by
  induction m with
  | nil => simp [Memory.setByte]
  | cons c m ih =>
    obtain ⟨k, c⟩ := c
    simp only [Memory.setByte]
    split
    · simp
    · split
      · next h => subst h; simp
      · simp only [List.map_cons, List.mem_cons, ih]; tauto

/-- A write keeps the canonical form. -/
theorem Memory.wf_setByte {m : Memory} (h : m.wf) (a : Nat) (b : Byte) : (m.setByte a b).wf := by
  induction m with
  | nil => simp [Memory.setByte, Memory.wf]
  | cons c m ih =>
    obtain ⟨k, c⟩ := c
    simp only [Memory.wf, List.map_cons, List.pairwise_cons] at h ih ⊢
    simp only [Memory.setByte]
    split
    · next hlt =>
      simp only [List.map_cons, List.pairwise_cons, List.mem_cons]
      refine ⟨?_, h⟩
      rintro x (rfl | hx)
      · exact hlt
      · exact lt_trans hlt (h.1 x hx)
    · split
      · next h2 => subst h2; simpa using h
      · next h1 h2 =>
        simp only [List.map_cons, List.pairwise_cons]
        refine ⟨?_, ih h.2⟩
        intro x hx
        rcases (Memory.mem_keys_setByte m a b x).1 hx with rfl | hx
        · omega
        · exact h.1 x hx

/-- Two canonical memories with the same bytes are the same list. -/
theorem Memory.ext {m m' : Memory} (h : m.wf) (h' : m'.wf) (e : ∀ a, m.get a = m'.get a) : m = m' := by
  have low : ∀ (k : Nat) (m : Memory), (∀ x ∈ m.map Prod.fst, k < x) → m.get k = none := by
    intro k m
    induction m with
    | nil => intro _; rfl
    | cons c m ih =>
      obtain ⟨j, c⟩ := c
      intro hk
      have hj : k < j := hk j (by simp)
      simp only [Memory.get]
      rw [if_neg (by omega)]
      exact ih fun x hx => hk x (by simp [hx])
  induction m generalizing m' with
  | nil =>
    cases m' with
    | nil => rfl
    | cons c m' => obtain ⟨j, c⟩ := c; have := e j; simp [Memory.get] at this
  | cons c m ih =>
    obtain ⟨k, c⟩ := c
    cases m' with
    | nil => have := e k; simp [Memory.get] at this
    | cons c' m' =>
      obtain ⟨j, c'⟩ := c'
      simp only [Memory.wf, List.map_cons, List.pairwise_cons] at h h' ih
      have hkj : k = j := by
        rcases lt_trichotomy k j with hlt | heq | hgt
        · have h1 := e k
          have h2 : Memory.get ((j, c') :: m') k = none :=
            low k _ (by rintro x hx; simp at hx; rcases hx with rfl | ⟨b, hb⟩
                        · exact hlt
                        · exact lt_trans hlt (h'.1 x (by simpa using ⟨b, hb⟩)))
          rw [h2] at h1; simp [Memory.get] at h1
        · exact heq
        · have h1 := e j
          have h2 : Memory.get ((k, c) :: m) j = none :=
            low j _ (by rintro x hx; simp at hx; rcases hx with rfl | ⟨b, hb⟩
                        · exact hgt
                        · exact lt_trans hgt (h.1 x (by simpa using ⟨b, hb⟩)))
          rw [h2] at h1; simp [Memory.get] at h1
      subst hkj
      have hc : c = c' := by have := e k; simpa [Memory.get] using this
      subst hc
      congr 1
      refine ih h.2 h'.2 fun a => ?_
      by_cases ha : a = k
      · subst ha; rw [low a m h.1, low a m' h'.1]
      · have := e a; simpa [Memory.get, ha] using this

/-! ### Halves and words -/

theorem Memory.get_setHalf (m : Memory) (a : Nat) (v : Token) (x : Nat) :
    (m.setHalf a v).get x =
      if x = a then some (v.extractLsb' 0 8) else if x = a + 1 then some (v.extractLsb' 8 8) else m.get x := by
  simp only [Memory.setHalf, Memory.get_setByte]
  by_cases h0 : x = a
  · subst h0; simp
  · simp [h0]

theorem Memory.get_setWord (m : Memory) (a : Nat) (v : Word) (x : Nat) :
    (m.setWord a v).get x = if a ≤ x ∧ x < a + 4 then some (byteOf v (x - a)) else m.get x := by
  simp only [Memory.setWord, Memory.get_setByte]
  by_cases h : a ≤ x ∧ x < a + 4
  · obtain ⟨n, rfl⟩ : ∃ n, x = a + n := ⟨x - a, by omega⟩
    rcases (by omega : n = 0 ∨ n = 1 ∨ n = 2 ∨ n = 3) with rfl | rfl | rfl | rfl <;> simp
  · simp (disch := omega) only [if_neg]

theorem Memory.wf_setHalf {m : Memory} (h : m.wf) (a : Nat) (v : Token) : (m.setHalf a v).wf :=
  Memory.wf_setByte (Memory.wf_setByte h _ _) _ _

theorem Memory.wf_setWord {m : Memory} (h : m.wf) (a : Nat) (v : Word) : (m.setWord a v).wf :=
  Memory.wf_setByte (Memory.wf_setByte (Memory.wf_setByte (Memory.wf_setByte h _ _) _ _) _ _) _ _

theorem Memory.wf_setOut {m : Memory} (h : m.wf) (j : Nat) (b : Byte) : (m.setOut j b).wf := Memory.wf_setByte h _ _

theorem Memory.wf_setPay {m : Memory} (h : m.wf) (w : Nat) (v : Word) : (m.setPay w v).wf := Memory.wf_setWord h _ _

theorem Memory.wf_setToken {m : Memory} (h : m.wf) (t : Nat) (v : Token) : (m.setToken t v).wf := by
  unfold Memory.setToken
  split
  · exact Memory.wf_setHalf h _ _
  · exact h

theorem Memory.wf_setTokens {m : Memory} (h : m.wf) (t : Nat) (vs : List Token) : (m.setTokens t vs).wf := by
  induction vs generalizing m t with
  | nil => exact h
  | cons v vs ih => exact ih (Memory.wf_setToken h t v) (t + 1)

/-! ### Where a write lands -/

theorem Memory.get_setOut (m : Memory) (j : Nat) (b : Byte) (x : Nat) :
    (m.setOut j b).get x = if x = outBase + j then some b else m.get x := Memory.get_setByte _ _ _ _

theorem Memory.get_setPay (m : Memory) (w : Nat) (v : Word) (x : Nat) :
    (m.setPay w v).get x =
      if payBase + 4 * w ≤ x ∧ x < payBase + 4 * w + 4 then some (byteOf v (x - (payBase + 4 * w))) else m.get x :=
  Memory.get_setWord _ _ _ _

theorem Memory.get_setToken (m : Memory) (t : Nat) (v : Token) (x : Nat) :
    (m.setToken t v).get x =
      if t < tokCap ∧ x = tokBase + 2 * t then some (v.extractLsb' 0 8)
      else if t < tokCap ∧ x = tokBase + 2 * t + 1 then some (v.extractLsb' 8 8) else m.get x := by
  unfold Memory.setToken
  by_cases h : t < tokCap <;> simp [h, Memory.get_setHalf]

/-- A token's write stays in the token buffer. -/
theorem Memory.get_setToken_outside (m : Memory) (t : Nat) (v : Token) {x : Nat}
    (h : x < tokBase ∨ tokBase + 2 * tokCap ≤ x) : (m.setToken t v).get x = m.get x := by
  rw [Memory.get_setToken]
  split_ifs <;> first | rfl | omega

/-- A run of tokens touches only its own cells. -/
theorem Memory.get_setTokens_outside (m : Memory) (t : Nat) (vs : List Token) (x : Nat)
    (h : x < tokBase + 2 * t ∨ tokBase + 2 * (t + vs.length) ≤ x ∨ tokBase + 2 * tokCap ≤ x) :
    (m.setTokens t vs).get x = m.get x := by
  induction vs generalizing m t with
  | nil => rfl
  | cons v vs ih =>
    simp only [Memory.setTokens, List.length_cons] at h ⊢
    rw [ih _ _ (by omega), Memory.get_setToken, if_neg (by omega), if_neg (by omega)]

/-! ### The views of the state -/

theorem byteOf_wordOf (b3 b2 b1 b0 : Byte) (n : Nat) (h : n < 4) :
    byteOf (wordOf b3 b2 b1 b0) n = if n = 0 then b0 else if n = 1 then b1 else if n = 2 then b2 else b3 := by
  unfold byteOf wordOf
  rcases (by omega : n = 0 ∨ n = 1 ∨ n = 2 ∨ n = 3) with rfl | rfl | rfl | rfl
  all_goals
    refine BitVec.eq_of_getLsbD_eq fun i hi => ?_
    simp only [BitVec.getLsbD_append, BitVec.getLsbD_extractLsb', hi, decide_true, Bool.true_and]
  · simp [hi]
  · simp [hi, show ¬ 8 * 1 + i < 8 by omega, show 8 * 1 + i - 8 = i by omega]
  · simp [hi, show ¬ 8 * 2 + i < 8 by omega, show ¬ 8 * 2 + i - 8 < 8 by omega, show 8 * 2 + i - 8 - 8 = i by omega]
  · simp [hi, show ¬ 8 * 3 + i < 8 by omega, show ¬ 8 * 3 + i - 8 < 8 by omega,
      show ¬ 8 * 3 + i - 8 - 8 < 8 by omega, show 8 * 3 + i - 8 - 8 - 8 = i by omega]

theorem wordOf_byteOf (v : Word) : wordOf (byteOf v 3) (byteOf v 2) (byteOf v 1) (byteOf v 0) = v := by
  unfold byteOf wordOf
  refine BitVec.eq_of_getLsbD_eq fun i hi => ?_
  simp only [BitVec.getLsbD_append, BitVec.getLsbD_extractLsb']
  split
  · next h => simp [h]
  · split
    · next h1 h => simp [h, show 8 + (i - 8) = i by omega]
    · split
      · next h1 h2 h => simp [h, show 16 + (i - 8 - 8) = i by omega]
      · next h1 h2 h3 => simp [show i - 8 - 8 - 8 < 8 by omega, show 24 + (i - 8 - 8 - 8) = i by omega]

theorem halves_append (v : Token) : (v.extractLsb' 8 8 ++ v.extractLsb' 0 8 : Token) = v := by
  refine BitVec.eq_of_getLsbD_eq fun i hi => ?_
  simp only [BitVec.getLsbD_append, BitVec.getLsbD_extractLsb']
  split
  · next h => simp [h]
  · next h => simp [show i - 8 < 8 by omega, show 8 + (i - 8) = i by omega]

/-- The low half of two bytes put together. -/
theorem low_append (x y : Byte) : (x ++ y : Token).extractLsb' 0 8 = y := by
  refine BitVec.eq_of_getLsbD_eq fun i hi => ?_
  simp only [BitVec.getLsbD_extractLsb', BitVec.getLsbD_append]
  simp [hi]

/-- The high half of two bytes put together. -/
theorem high_append (x y : Byte) : (x ++ y : Token).extractLsb' 8 8 = x := by
  refine BitVec.eq_of_getLsbD_eq fun i hi => ?_
  simp only [BitVec.getLsbD_extractLsb', BitVec.getLsbD_append]
  simp [hi]

/-- A read depends on the bytes only. -/
theorem State.byteAt_congr {s t : State} (a : Nat) (hm : t.mem.get a = s.mem.get a) (hp : t.powerCycle = s.powerCycle) :
    t.byteAt a = s.byteAt a := by
  simp [State.byteAt, hm, hp]

theorem State.byteAt_of_get {s : State} {a : Nat} {b : Byte} (h : s.mem.get a = some b) : s.byteAt a = b := by
  simp [State.byteAt, h]

/-- A word that was written reads back. -/
theorem State.wordAt_of_setWord {s : State} {m : Memory} {a : Nat} {v : Word}
    (h : ∀ x, a ≤ x → x < a + 4 → s.mem.get x = (m.setWord a v).get x) : s.wordAt a = v := by
  have hb : ∀ n, n < 4 → s.byteAt (a + n) = byteOf v n := fun n hn => by
    refine State.byteAt_of_get ?_
    rw [h _ (by omega) (by omega), Memory.get_setWord, if_pos (by omega)]
    congr 2; omega
  unfold State.wordAt
  rw [hb 3 (by omega), hb 2 (by omega), hb 1 (by omega), show s.byteAt a = byteOf v 0 from hb 0 (by omega)]
  exact wordOf_byteOf v

/-- A token that was written reads back. -/
theorem State.token_of_setToken {s : State} {m : Memory} {t : Nat} {v : Token} (ht : t < tokCap)
    (h : ∀ x, tokBase + 2 * t ≤ x → x < tokBase + 2 * t + 2 → s.mem.get x = (m.setToken t v).get x) :
    s.token t = v := by
  unfold State.token State.halfAt
  have h0 : s.byteAt (tokBase + 2 * t) = v.extractLsb' 0 8 := by
    refine State.byteAt_of_get ?_
    rw [h _ (by omega) (by omega), Memory.get_setToken, if_pos ⟨ht, rfl⟩]
  have h1 : s.byteAt (tokBase + 2 * t + 1) = v.extractLsb' 8 8 := by
    refine State.byteAt_of_get ?_
    rw [h _ (by omega) (by omega), Memory.get_setToken, if_neg (by omega), if_pos ⟨ht, rfl⟩]
  rw [h0, h1]
  exact halves_append v

/-- The tokens of a written run read back. -/
theorem State.token_of_setTokens {s : State} {m : Memory} (t : Nat) (vs : List Token) (k : Nat) (hk : k < vs.length)
    (hcap : t + vs.length ≤ tokCap)
    (h : ∀ x, tokBase ≤ x → x < tokBase + 2 * (t + vs.length) → s.mem.get x = (m.setTokens t vs).get x) :
    s.token (t + k) = vs[k] := by
  induction vs generalizing m t k with
  | nil => simp at hk
  | cons v vs ih =>
    simp only [List.length_cons] at hk hcap
    cases k with
    | zero =>
      simp only [Nat.add_zero, List.getElem_cons_zero]
      refine State.token_of_setToken (m := m) (by omega) fun x hx1 hx2 => ?_
      rw [h x (by omega) (by simp only [List.length_cons]; omega), Memory.setTokens, Memory.get_setTokens_outside _ _ _ _ (by omega)]
    | succ k =>
      have := ih (m := m.setToken t v) (t + 1) k (by omega) (by omega) (fun x hx1 hx2 => h x hx1 (by simp only [List.length_cons]; omega))
      simpa [Nat.add_assoc, Nat.add_comm 1 k] using this

/-! ### Which addresses are storage (R61) -/

theorem inWindow_iff (a base size : Nat) : inWindow a base size = true ↔ base ≤ a ∧ a < base + size := by
  simp [inWindow]

end Sys2Proof.Machine
end

