-- ==== Sys2Proof/Laws/Codes.lean ====
section
/-! SUPPORT. Bits: paths in code entries (30_encoding.md R99), and what ENCODE packs (45_encode.md R201 to R207). -/

namespace Sys2Proof.Machine

/-! ### Bits of numbers -/

theorem pathNumber_lt (p : List Bool) : pathNumber p < 2 ^ p.length := by
  induction p with
  | nil => simp [pathNumber]
  | cons b p ih => simp only [pathNumber, List.length_cons, pow_succ]; cases b <;> (simp; omega)

theorem pathNumber_testBit (p : List Bool) (k : Nat) : (pathNumber p).testBit k = p.getD k false := by
  induction p generalizing k with
  | nil => simp [pathNumber]
  | cons b p ih =>
    cases k with
    | zero => cases b <;> simp [pathNumber, Nat.testBit_zero, Nat.add_mod]
    | succ k =>
      rw [Nat.testBit_succ, show pathNumber (b :: p) / 2 = pathNumber p by
        cases b <;> (simp only [pathNumber, Bool.toNat_false, Bool.toNat_true]; omega), ih]
      simp

/-- A path of at most 256 steps is held as it is (R167). -/
theorem CodeEntry.path_ofPath (p : List Bool) (h : p.length ≤ 256) : (CodeEntry.ofPath p).path = p := by
  have hlen : (BitVec.ofNat 9 p.length).toNat = p.length := by simp; omega
  refine List.ext_getElem (by simp only [CodeEntry.path, CodeEntry.ofPath, List.length_map, List.length_range, hlen]) ?_
  intro k hk hk'
  simp only [CodeEntry.path, CodeEntry.ofPath, List.getElem_map, List.getElem_range, BitVec.getLsbD_ofNat,
    pathNumber_testBit]
  have : k < 256 := by omega
  simp [this, List.getD_eq_getElem?_getD, hk']

@[simp] theorem CodeEntry.valid_ofPath (p : List Bool) : (CodeEntry.ofPath p).valid = true := rfl

@[simp] theorem CodeEntry.valid_absent : CodeEntry.absent.valid = false := rfl

/-! ### Words of bits -/

/-- The word whose low bits are the given ones, first in bit 0, and the rest 0. -/
def wordOfBits (bits : List Bool) : Word := BitVec.ofNat 32 (pathNumber bits)

theorem wordOfBits_getLsbD (bits : List Bool) (i : Nat) :
    (wordOfBits bits).getLsbD i = (decide (i < 32) && bits.getD i false) := by
  simp [wordOfBits, BitVec.getLsbD_ofNat, pathNumber_testBit]

theorem setBit_getLsbD (v : Word) (i : Nat) (b : Bool) (hi : i < 32) (j : Nat) :
    (setBit v i b).getLsbD j = if j = i then b else v.getLsbD j := by
  unfold setBit
  by_cases hj : j < 32
  · cases b
    · by_cases h : j = i
      · subst h; simp [hj]
      · simp only [Bool.false_eq_true, if_false, BitVec.getLsbD_and, BitVec.getLsbD_not, BitVec.getLsbD_shiftLeft,
          hj, decide_true, Bool.true_and, h]
        by_cases hlt : j < i
        · simp [hlt]
        · simp [hlt, show j - i ≠ 0 by omega]
    · by_cases h : j = i
      · subst h; simp [hj]
      · simp only [if_true, BitVec.getLsbD_or, BitVec.getLsbD_shiftLeft, hj, decide_true, Bool.true_and, h, if_false]
        by_cases hlt : j < i
        · simp [hlt]
        · simp [hlt, show j - i ≠ 0 by omega]
  · rw [if_neg (show ¬ j = i by omega), BitVec.getLsbD_of_ge _ _ (by omega), BitVec.getLsbD_of_ge _ _ (by omega)]

/-- Appending a bit to the accumulator. -/
theorem setBit_wordOfBits (bits : List Bool) (b : Bool) (h : bits.length < 32) :
    setBit (wordOfBits bits) bits.length b = wordOfBits (bits ++ [b]) := by
  refine BitVec.eq_of_getLsbD_eq fun j hj => ?_
  rw [setBit_getLsbD _ _ _ h, wordOfBits_getLsbD, wordOfBits_getLsbD]
  simp only [hj, decide_true, Bool.true_and, List.getD_eq_getElem?_getD]
  by_cases hjl : j = bits.length
  · subst hjl; simp
  · rw [if_neg hjl]
    rcases Nat.lt_or_ge j bits.length with hlt | hge
    · rw [List.getElem?_append_left hlt]
    · rw [List.getElem?_eq_none hge, List.getElem?_eq_none (by simp; omega)]

theorem lowMask_getLsbD (m i : Nat) : (lowMask m).getLsbD i = (decide (i < 32) && decide (i < m)) := by
  simp [lowMask, BitVec.getLsbD_ofNat, Nat.testBit_two_pow_sub_one]

/-- `pad` (R206): real bits below, padding above. -/
theorem padWord_getLsbD (acc padding : Word) (m i : Nat) (hi : i < 32) :
    (padWord acc m padding).getLsbD i = if i < m then acc.getLsbD i else padding.getLsbD i := by
  simp only [padWord, BitVec.getLsbD_or, BitVec.getLsbD_and, BitVec.getLsbD_not, lowMask_getLsbD, hi, decide_true,
    Bool.true_and]
  by_cases h : i < m <;> simp [h]

/-! ### The packed words -/

/-- Word `w` of a sequence of payload bits (R101), zeros beyond the last bit. -/
def packedWord (bits : List Bool) (w : Nat) : Word := wordOfBits ((bits.drop (32 * w)).take 32)

/-- What ENCODE has done after the bits `bits`, starting from the memory `m0`: the position and the word index are
theirs, the accumulator holds the bits of the unfinished word, and the finished words, and nothing else, are
written (R51, R201, R202). -/
structure Packed (m0 : Memory) (bits : List Bool) (e : EncodeLocals) : Prop where
  p : e.p = bits.length
  w : e.w = bits.length / 32
  acc : e.acc = wordOfBits (bits.drop (32 * e.w))
  wf : m0.wf → e.mem.wf
  mem : ∀ x, e.mem.get x =
    if payBase ≤ x ∧ x < payBase + 4 * e.w then some (byteOf (packedWord bits ((x - payBase) / 4)) ((x - payBase) % 4))
    else m0.get x

theorem Packed.start (m0 : Memory) : Packed m0 [] { mem := m0, acc := 0, p := 0, w := 0 } where
  p := rfl
  w := rfl
  acc := rfl
  wf := id
  mem := fun x => by rw [if_neg (by simp only; omega)]

/-- Bits that come later do not change a finished word. -/
theorem packedWord_append (bits more : List Bool) (w : Nat) (h : 32 * (w + 1) ≤ bits.length) :
    packedWord (bits ++ more) w = packedWord bits w := by
  unfold packedWord
  rw [List.drop_append_of_le_length (by omega), List.take_append_of_le_length (by simp; omega)]

/-- One bit (R200 to R202, R207): it is packed, unless it fills a word that has no room. -/
theorem pushBit_spec {m0 : Memory} {bits : List Bool} {e : EncodeLocals} (h : Packed m0 bits e) (cap : Nat)
    (hcap : e.w ≤ cap) (b : Bool) :
    (bits.length = 32 * cap + 31 ∧ pushBit cap b e = .error e) ∨
    (bits.length + 1 < 32 * (cap + 1) ∧ ∃ e', pushBit cap b e = .ok e' ∧ Packed m0 (bits ++ [b]) e' ∧ e'.w ≤ cap) := by
  have hdrop : (bits.drop (32 * e.w)).length = bits.length % 32 := by rw [List.length_drop, h.w]; omega
  have hset : setBit e.acc (e.p % 32) b = wordOfBits ((bits ++ [b]).drop (32 * e.w)) := by
    rw [h.p, h.acc, ← hdrop, setBit_wordOfBits _ _ (by rw [hdrop]; omega),
      List.drop_append_of_le_length (by rw [h.w]; omega)]
  unfold pushBit
  simp only [h.p]
  by_cases hfull : (bits.length + 1) % 32 = 0
  · rw [if_pos hfull]
    by_cases hroom : cap ≤ e.w
    · rw [if_pos hroom]
      exact .inl ⟨by have := h.w; omega, rfl⟩
    · rw [if_neg hroom]
      refine .inr ⟨by have := h.w; omega, _, rfl, ?_, by simp only; omega⟩
      have hw1 : e.w + 1 = (bits.length + 1) / 32 := by rw [h.w]; omega
      have hp' : bits.length % 32 = e.p % 32 := by rw [h.p]
      refine ⟨by simp, by simpa using hw1, ?_, fun hm => Memory.wf_setPay (h.wf hm) _ _, fun x => ?_⟩
      · rw [List.drop_eq_nil_of_le (by simp only [List.length_append, List.length_cons, List.length_nil]; rw [h.w]; omega)]
        rfl
      · simp only [Memory.get_setPay, h.mem]
        rw [hp', hset]
        by_cases hx : payBase + 4 * e.w ≤ x ∧ x < payBase + 4 * e.w + 4
        · rw [if_pos hx, if_pos (by omega)]
          have h1 : (x - payBase) / 4 = e.w := by omega
          have h2 : (x - payBase) % 4 = x - (payBase + 4 * e.w) := by omega
          rw [h1, h2, packedWord, List.take_of_length_le (by
            simp only [List.length_drop, List.length_append, List.length_cons, List.length_nil]; rw [h.w]; omega)]
        · rw [if_neg hx]
          by_cases hx2 : payBase ≤ x ∧ x < payBase + 4 * e.w
          · rw [if_pos hx2, if_pos (by omega), packedWord_append _ _ _ (by
              have : (x - payBase) / 4 < e.w := by omega
              have := h.w; omega)]
          · rw [if_neg hx2, if_neg (by omega)]
  · rw [if_neg hfull]
    refine .inr ⟨by have := h.w; omega, _, rfl, ?_, by simpa using hcap⟩
    have hp' : bits.length % 32 = e.p % 32 := by rw [h.p]
    refine ⟨by simp, by simp only [List.length_append, List.length_cons, List.length_nil]; rw [h.w]; omega, ?_, h.wf,
      fun x => ?_⟩
    · rw [hp']; exact hset
    · simp only [h.mem]
      by_cases hx2 : payBase ≤ x ∧ x < payBase + 4 * e.w
      · rw [if_pos hx2, if_pos hx2, packedWord_append _ _ _ (by
          have : (x - payBase) / 4 < e.w := by omega
          have := h.w; omega)]
      · rw [if_neg hx2, if_neg hx2]

/-- The bits of a code (R201, R207): all packed, or as many as fit before a full word has no room. -/
theorem pushBits_spec {m0 : Memory} (cap : Nat) (bs : List Bool) {bits : List Bool} {e : EncodeLocals}
    (h : Packed m0 bits e) (hcap : e.w ≤ cap) :
    ((bits ++ bs).length < 32 * (cap + 1) ∧ ∃ e', pushBits cap bs e = .ok e' ∧ Packed m0 (bits ++ bs) e' ∧ e'.w ≤ cap) ∨
    (32 * (cap + 1) ≤ (bits ++ bs).length ∧
      ∃ e', pushBits cap bs e = .error e' ∧ Packed m0 ((bits ++ bs).take (32 * cap + 31)) e' ∧ e'.w = cap) := by
  induction bs generalizing bits e with
  | nil =>
    refine .inl ⟨?_, e, rfl, by simpa using h, hcap⟩
    have := h.w
    simp only [List.append_nil]; omega
  | cons b bs ih =>
    rcases pushBit_spec h cap hcap b with ⟨hl, he⟩ | ⟨hl, e', he, hp, hw⟩
    · refine .inr ⟨by simp; omega, e, by simp [pushBits, he], ?_, by have := h.w; omega⟩
      rw [List.take_append_of_le_length (by omega), List.take_of_length_le (by omega)]
      exact h
    · have := ih hp hw
      simpa [pushBits, he] using this

end Sys2Proof.Machine
end

