-- ==== Sys2Proof/Laws/Commands.lean ====
section
/-! SUPPORT. The common course of a command (40_command_dispatch.md R121 to R126): one lemma for each way it can end, and the
views of the state its start leaves alone. -/

namespace Sys2Proof.Machine

/-- The check of R123 reads the valid flags, which the start actions leave alone. -/
theorem missingFlag_start (i : Instr) (f : Flags) :
    missingFlag i { f with done := false, err := false } = missingFlag i f := by
  cases i <;> rfl

theorem runCommand_eq (i : Instr) (body : State → Body) (s : State) :
    runCommand i body s =
      match missingFlag i s.flags with
      | some b => .next (raiseError .sequence b (startCommand (encode i) 0 s))
      | none => (body (startCommand (encode i) 0 s)).finish := by
  cases h : missingFlag i s.flags <;> simp [runCommand, missingFlag_start, h]

/-- A missing flag ends the command (R123). -/
theorem runCommand_missing {i : Instr} {s : State} {b : Quad} (body : State → Body) (h : missingFlag i s.flags = some b) :
    runCommand i body s = .next (s.failed i .sequence b) := by
  rw [runCommand_eq, h]
  rfl

/-- A body that ends (R125). -/
theorem runCommand_done {i : Instr} {s t : State} {body : State → Body} (h : missingFlag i s.flags = none)
    (hb : body (startCommand (encode i) 0 s) = .done t) : runCommand i body s = .next (completeCommand t) := by
  rw [runCommand_eq, h]
  simp only [hb, Body.finish]

/-- A body that raises (R126). -/
theorem runCommand_raise {i : Instr} {s t : State} {body : State → Body} {e : Err} {info : Quad}
    (h : missingFlag i s.flags = none) (hb : body (startCommand (encode i) 0 s) = .raise e info t) :
    runCommand i body s = .next (raiseError e info t) := by
  rw [runCommand_eq, h]
  simp only [hb, Body.finish]

/-- The same, with the next state given by what it is. -/
theorem runCommand_done_eq {i : Instr} {s t u : State} {body : State → Body} (h : missingFlag i s.flags = none)
    (hb : body (startCommand (encode i) 0 s) = .done t) (hu : completeCommand t = u) :
    runCommand i body s = .next u := hu ▸ runCommand_done h hb

theorem runCommand_raise_eq {i : Instr} {s t u : State} {body : State → Body} {e : Err} {info : Quad}
    (h : missingFlag i s.flags = none) (hb : body (startCommand (encode i) 0 s) = .raise e info t)
    (hu : raiseError e info t = u) : runCommand i body s = .next u := hu ▸ runCommand_raise h hb

/-- Every way a command can answer a next state. -/
theorem runCommand_cases {i : Instr} {s u : State} {body : State → Body} (h : runCommand i body s = .next u) :
    (∃ b, missingFlag i s.flags = some b ∧ u = s.failed i .sequence b) ∨
    (missingFlag i s.flags = none ∧ ∃ t, body (startCommand (encode i) 0 s) = .done t ∧ u = completeCommand t) ∨
    (missingFlag i s.flags = none ∧ ∃ e info t, body (startCommand (encode i) 0 s) = .raise e info t ∧
      u = raiseError e info t) := by
  match hm : missingFlag i s.flags with
  | some b =>
    rw [runCommand_missing body hm] at h
    exact .inl ⟨b, rfl, by cases h; rfl⟩
  | none =>
    match hb : body (startCommand (encode i) 0 s) with
    | .done t =>
      rw [runCommand_done hm hb] at h
      exact .inr (.inl ⟨rfl, t, rfl, by cases h; rfl⟩)
    | .raise e info t =>
      rw [runCommand_raise hm hb] at h
      exact .inr (.inr ⟨rfl, e, info, t, rfl, by cases h; rfl⟩)
    | .stuck f =>
      rw [runCommand_eq, hm] at h
      simp [hb, Body.finish] at h

/-! ### What the start leaves alone (R121) -/

@[simp] theorem startCommand_byteAt (c : Word) (n : Nat) (s : State) : (startCommand c n s).byteAt = s.byteAt := rfl
@[simp] theorem startCommand_input (c : Word) (n : Nat) (s : State) : (startCommand c n s).input = s.input := rfl
@[simp] theorem startCommand_inByte (c : Word) (n : Nat) (s : State) : (startCommand c n s).inByte = s.inByte := rfl
@[simp] theorem startCommand_tokens (c : Word) (n : Nat) (s : State) : (startCommand c n s).tokens = s.tokens := rfl
@[simp] theorem startCommand_payBit (c : Word) (n : Nat) (s : State) : (startCommand c n s).payBit = s.payBit := rfl
@[simp] theorem startCommand_payBits (c : Word) (n : Nat) (s : State) : (startCommand c n s).payBits = s.payBits := rfl
@[simp] theorem startCommand_codeOf (c : Word) (n : Nat) (s : State) : (startCommand c n s).codeOf = s.codeOf := rfl
@[simp] theorem startCommand_codeBits (c : Word) (n : Nat) (s : State) : (startCommand c n s).codeBits = s.codeBits := rfl
@[simp] theorem startCommand_tree (c : Word) (n : Nat) (s : State) : (startCommand c n s).tree = s.tree := rfl

/-- The two ends of a command, from its start. -/
theorem complete_start (i : Instr) (s : State) : completeCommand (startCommand (encode i) 0 s) = s.succeeded i := rfl

theorem raise_start (i : Instr) (e : Err) (info : Quad) (s : State) :
    raiseError e info (startCommand (encode i) 0 s) = s.failed i e info := rfl

end Sys2Proof.Machine
end

