-- ==== Sys2Proof/Laws/Decode.lean ====
section
/-! SUPPORT. What DECODE's loop does (46_decode.md R215 to R224): it is the decoding of the tree in the arena, byte for byte. -/

namespace Sys2Proof.Machine

/-! ### Decoding by a tree -/

@[simp] theorem HTree.decodeFrom_nil (root cur : HTree) : root.decodeFrom cur [] = ([], cur) := by
  cases cur <;> rfl

/-- Decoding goes on from where it stopped. -/
theorem HTree.decodeFrom_append (root cur : HTree) (a b : List Bool) :
    root.decodeFrom cur (a ++ b) =
      ((root.decodeFrom cur a).1 ++ (root.decodeFrom (root.decodeFrom cur a).2 b).1,
        (root.decodeFrom (root.decodeFrom cur a).2 b).2) := by
  induction a generalizing cur with
  | nil => simp
  | cons x a ih =>
    cases cur with
    | leaf s =>
      cases b <;> simp [HTree.decodeFrom]
    | node l r =>
      simp only [List.cons_append, HTree.decodeFrom]
      cases h : (if x = true then r else l) with
      | leaf s => simp [ih]
      | node l' r' => simp [ih]

/-- A whole code emits its byte and returns to the root (R218). -/
theorem HTree.decodeFrom_path {root cur : HTree} {p : List Bool} {sym : Byte} (h : cur.follow p = some (.leaf sym))
    (hp : p ≠ []) (rest : List Bool) :
    root.decodeFrom cur (p ++ rest) = (sym :: (root.decodeFrom root rest).1, (root.decodeFrom root rest).2) := by
  induction p generalizing cur with
  | nil => exact absurd rfl hp
  | cons b p ih =>
    cases cur with
    | leaf s => simp [HTree.follow] at h
    | node l r =>
      simp only [HTree.follow] at h
      simp only [List.cons_append, HTree.decodeFrom]
      cases hd : (if b = true then r else l) with
      | leaf s =>
        rw [hd] at h
        cases p with
        | nil => simp [HTree.follow] at h; simp [h]
        | cons c p => simp [HTree.follow] at h
      | node l' r' =>
        rw [hd] at h
        refine ih h ?_
        rintro rfl
        simp [HTree.follow] at h

/-- A sequence of codes decodes to its bytes and ends at the root (R226). -/
theorem HTree.decodeFrom_codes {root : HTree} (x : List Byte) (code : Byte → List Bool)
    (h : ∀ b ∈ x, root.follow (code b) = some (.leaf b)) (hne : ∀ b ∈ x, code b ≠ []) :
    root.decodeFrom root (x.flatMap code) = (x, root) := by
  induction x with
  | nil => simp
  | cons b x ih =>
    rw [List.flatMap_cons, HTree.decodeFrom_path (h b (by simp)) (hne b (by simp)),
      ih (fun c hc => h c (by simp [hc])) (fun c hc => hne c (by simp [hc]))]

/-! ### The output buffer -/

/-- Consecutive bytes of `OUT_BUF` from index `j`. -/
def Memory.setOuts : Memory → Nat → List Byte → Memory
  | m, _, [] => m
  | m, j, b :: bs => Memory.setOuts (m.setOut j b) (j + 1) bs

theorem Memory.setOuts_append (m : Memory) (j : Nat) (a b : List Byte) :
    m.setOuts j (a ++ b) = (m.setOuts j a).setOuts (j + a.length) b := by
  induction a generalizing m j with
  | nil => rfl
  | cons x a ih =>
    simp only [List.cons_append, Memory.setOuts, ih, List.length_cons]
    congr 1; omega

theorem Memory.wf_setOuts {m : Memory} (h : m.wf) (j : Nat) (bs : List Byte) : (m.setOuts j bs).wf := by
  induction bs generalizing m j with
  | nil => exact h
  | cons b bs ih => exact ih (Memory.wf_setOut h j b) (j + 1)

theorem Memory.get_setOuts (m : Memory) (j : Nat) (bs : List Byte) (x : Nat) :
    (m.setOuts j bs).get x =
      if outBase + j ≤ x ∧ x < outBase + j + bs.length then bs[x - (outBase + j)]? else m.get x := by
  induction bs generalizing m j with
  | nil => rw [if_neg (by simp only [List.length_nil]; omega)]; rfl
  | cons b bs ih =>
    rw [Memory.setOuts, ih, Memory.get_setOut, List.length_cons]
    by_cases h0 : x = outBase + j
    · subst h0
      rw [if_neg (by omega), if_pos rfl, if_pos (by omega)]
      simp
    · by_cases h1 : outBase + (j + 1) ≤ x ∧ x < outBase + (j + 1) + bs.length
      · rw [if_pos h1, if_pos (by omega), show x - (outBase + j) = (x - (outBase + (j + 1))) + 1 by omega,
          List.getElem?_cons_succ]
      · rw [if_neg h1, if_neg h0, if_neg (by omega)]

/-- The bytes written read back as the output. -/
theorem State.output_of_setOuts {s : State} {m : Memory} {bs : List Byte} (hlen : s.outLen.toNat = bs.length)
    (hm : s.mem = m.setOuts 0 bs) : s.output = bs := by
  refine List.ext_getElem (by simp [State.output, hlen]) fun k hk hk' => ?_
  simp only [State.output, List.getElem_map, List.getElem_range]
  refine State.byteAt_of_get ?_
  rw [hm, Memory.get_setOuts, if_pos (by omega), show outBase + k - (outBase + 0) = k by omega,
    List.getElem?_eq_getElem hk']

/-! ### The loop -/

/-- The cursor's index and the subtree it stands for: the root, or a smaller subtree at another index; never a leaf. -/
structure Cursor (s : State) (root : HTree) (cur : NodeIx) (c : HTree) : Prop where
  tree : treeFrom s.node s.node.length cur.toNat = some c
  place : (cur = s.root ∧ c = root) ∨ (cur.toNat < s.root.toNat ∧ c.leafCount < root.leafCount)
  inner : c.isLeaf = false

theorem Cursor.atRoot {s : State} {root : HTree} {cur : NodeIx} {c : HTree} (h : Cursor s root cur c) :
    cur = s.root ↔ c = root := by
  rcases h.place with ⟨h1, h2⟩ | ⟨h1, h2⟩
  · simp [h1, h2]
  · constructor
    · rintro rfl; omega
    · rintro rfl; omega

/-- What one bit position does when its word is there and the cursor is inside the tree (R215 to R218, R222). -/
theorem decodeStep_inner {s : State} {root : HTree} (ok : ∀ k, k < s.node.length → nodeOk s.node k = true)
    {i : Nat} (hi : i < 32 * s.payWords.toNat) {d : DecodeLocals} {l r : HTree}
    (h : Cursor s root d.cur (.node l r)) :
    (∃ sym, (if s.payBit i = true then r else l) = .leaf sym ∧
      ((d.outLen < s.cfg.outCap ∧ decodeStep s i d =
          .ended { mem := d.mem.setOut d.outLen sym, outLen := d.outLen + 1, cur := s.root }) ∨
       (s.cfg.outCap ≤ d.outLen ∧ ∃ k : NodeIx, k ≠ s.root ∧ decodeStep s i d = .failed .capacity i { d with cur := k }))) ∨
    (∃ l' r' k, (if s.payBit i = true then r else l) = .node l' r' ∧ Cursor s root k (.node l' r') ∧
      decodeStep s i d = .ended { d with cur := k }) := by
  obtain ⟨n, hn⟩ : ∃ n, s.node.length = n + 1 := by
    cases hl : s.node.length with
    | zero => have := h.tree; rw [hl] at this; simp [treeFrom] at this
    | succ n => exact ⟨n, rfl⟩
  have ht := h.tree
  rw [hn] at ht
  rcases treeFrom_cases ht with ⟨sym, w, _, e⟩ | ⟨w, left, right, l', r', hx, hl, hr, e⟩
  · simp at e
  · obtain ⟨rfl, rfl⟩ : l = l' ∧ r = r' := by simpa using e
    have hcur : d.cur.toNat < s.node.length := by
      rcases Nat.lt_or_ge d.cur.toNat s.node.length with h | h
      · exact h
      · rw [List.getElem?_eq_none h] at hx; simp at hx
    have hok := ok _ hcur
    simp only [nodeOk, hx, Bool.and_eq_true, decide_eq_true_eq] at hok
    obtain ⟨⟨⟨h1, h2⟩, _⟩, _⟩ := hok
    have hcr : d.cur.toNat ≤ s.root.toNat := by
      rcases h.place with ⟨e, _⟩ | ⟨e, _⟩
      · rw [e]
      · omega
    have hcl : (HTree.node l r).leafCount ≤ root.leafCount := by
      rcases h.place with ⟨_, e⟩ | ⟨_, e⟩
      · rw [e]
      · omega
    have lp := l.leafCount_pos
    have rp := r.leafCount_pos
    have hstep : decodeStep s i d = arrive s i (if s.payBit i = true then right else left) d := by
      unfold decodeStep
      rw [if_neg (by omega), hx]
    obtain ⟨k, D, hk, hD, hkD, hkr, hDl⟩ : ∃ (k : NodeIx) (D : HTree), k = (if s.payBit i = true then right else left) ∧
        D = (if s.payBit i = true then r else l) ∧ treeFrom s.node n k.toNat = some D ∧ k.toNat < s.root.toNat ∧
        D.leafCount < root.leafCount := by
      simp only [HTree.leafCount] at hcl
      by_cases hb : s.payBit i = true
      · exact ⟨right, r, by simp [hb], by simp [hb], hr, by omega, by omega⟩
      · exact ⟨left, l, by simp [hb], by simp [hb], hl, by omega, by omega⟩
    rw [hstep, ← hk, ← hD]
    have hkD' := treeFrom_fuel hkD (by omega : n ≤ s.node.length)
    have hkD2 := hkD'
    rw [hn] at hkD2
    unfold arrive
    rcases treeFrom_cases hkD2 with ⟨sym, w', hx', e'⟩ | ⟨w', left', right', l', r', hx', _, _, e'⟩
    · refine .inl ⟨sym, e', ?_⟩
      rw [hx']
      by_cases hcap : s.cfg.outCap ≤ d.outLen
      · exact .inr ⟨hcap, k, by rintro rfl; omega, by simp [hcap]⟩
      · exact .inl ⟨by omega, by simp [hcap]⟩
    · refine .inr ⟨l', r', k, e', ⟨by rw [hkD', e'], .inr ⟨hkr, by rw [← e']; exact hDl⟩, rfl⟩, ?_⟩
      rw [hx']

/-- The loop while every word it needs is there (R215): the tree's decoding, or the output buffer full at the bit
position where one symbol too many completes (R222). -/
theorem decodeLoop_spec {s : State} {root : HTree} (ok : ∀ k, k < s.node.length → nodeOk s.node k = true)
    (hroot : Cursor s root s.root root) (todo i : Nat) (hi : i + todo ≤ 32 * s.payWords.toNat) {d : DecodeLocals}
    {c : HTree} (h : Cursor s root d.cur c) (hcap : d.outLen ≤ s.cfg.outCap) :
    (d.outLen + (root.decodeFrom c ((List.range' i todo).map s.payBit)).1.length ≤ s.cfg.outCap ∧
      ∃ d', decodeLoop s todo i d = .ended d' ∧
        d'.outLen = d.outLen + (root.decodeFrom c ((List.range' i todo).map s.payBit)).1.length ∧
        d'.mem = d.mem.setOuts d.outLen (root.decodeFrom c ((List.range' i todo).map s.payBit)).1 ∧
        Cursor s root d'.cur (root.decodeFrom c ((List.range' i todo).map s.payBit)).2) ∨
    (s.cfg.outCap < d.outLen + (root.decodeFrom c ((List.range' i todo).map s.payBit)).1.length ∧
      ∃ n d', n < todo ∧ decodeLoop s todo i d = .failed .capacity (i + n) d' ∧
        d.outLen + (root.decodeFrom c ((List.range' i n).map s.payBit)).1.length = s.cfg.outCap ∧
        d.outLen + (root.decodeFrom c ((List.range' i (n + 1)).map s.payBit)).1.length = s.cfg.outCap + 1 ∧
        d'.outLen = s.cfg.outCap ∧
        d'.mem = d.mem.setOuts d.outLen (root.decodeFrom c ((List.range' i n).map s.payBit)).1 ∧
        d'.cur ≠ s.root) := by
  induction todo generalizing i d c with
  | zero => exact .inl ⟨by simpa using hcap, d, rfl, by simp, by simp [Memory.setOuts], by simpa using h⟩
  | succ todo ih =>
    cases c with
    | leaf sym => have := h.inner; simp [HTree.isLeaf] at this
    | node l r =>
      have range : ∀ n, (List.range' i (n + 1)).map s.payBit = s.payBit i :: (List.range' (i + 1) n).map s.payBit := by
        intro n; simp [List.range'_succ]
      rcases decodeStep_inner (i := i) ok (by omega) h with ⟨sym, hd, ⟨hlt, he⟩ | ⟨hge, k, hk, he⟩⟩ | ⟨l', r', k, hd, hc, he⟩
      · have dec : ∀ n, root.decodeFrom (.node l r) ((List.range' i (n + 1)).map s.payBit) =
            (sym :: (root.decodeFrom root ((List.range' (i + 1) n).map s.payBit)).1,
              (root.decodeFrom root ((List.range' (i + 1) n).map s.payBit)).2) := fun n => by
          rw [range, HTree.decodeFrom, hd]
        have key := ih (i + 1) (by omega)
          (d := { mem := d.mem.setOut d.outLen sym, outLen := d.outLen + 1, cur := s.root }) hroot (by simp only; omega)
        rw [decodeLoop, he]
        simp only [dec, List.length_cons]
        rcases key with ⟨hle, d', h1, h2, h3, h4⟩ | ⟨hle, n, d', h0, h1, h2, h3, h4, h5, h6⟩
        · exact .inl ⟨by simp only at hle; omega, d', h1, by simp only at h2; omega, by rw [h3]; rfl, h4⟩
        · refine .inr ⟨by simp only at hle; omega, n + 1, d', by omega, by rw [h1]; congr 1; omega, ?_, ?_, h4, ?_, h6⟩
          · rw [dec]; simp only [List.length_cons] at h2 ⊢; omega
          · simp only at h3 ⊢; omega
          · rw [dec, h5]; rfl
      · have hd1 : (root.decodeFrom (.node l r) ((List.range' i 1).map s.payBit)).1 = [sym] := by
          rw [range, HTree.decodeFrom, hd]; simp
        have hmore : (root.decodeFrom (.node l r) ((List.range' i (todo + 1)).map s.payBit)).1 =
            sym :: (root.decodeFrom root ((List.range' (i + 1) todo).map s.payBit)).1 := by
          rw [range, HTree.decodeFrom, hd]
        refine .inr ⟨by rw [hmore]; simp only [List.length_cons]; omega, 0, { d with cur := k }, by omega, ?_, ?_, ?_, ?_, ?_, hk⟩
        · rw [decodeLoop, he]; rfl
        · simp; omega
        · rw [hd1]; simp; omega
        · simp only; omega
        · simp [Memory.setOuts]
      · have dec : ∀ n, root.decodeFrom (.node l r) ((List.range' i (n + 1)).map s.payBit) =
            root.decodeFrom (.node l' r') ((List.range' (i + 1) n).map s.payBit) := fun n => by
          rw [range, HTree.decodeFrom, hd]
        have key := ih (i + 1) (by omega) (d := { d with cur := k }) hc hcap
        rw [decodeLoop, he]
        simp only [dec]
        rcases key with ⟨hle, d', h1, h2, h3, h4⟩ | ⟨hle, n, d', h0, h1, h2, h3, h4, h5, h6⟩
        · exact .inl ⟨hle, d', h1, h2, h3, h4⟩
        · refine .inr ⟨hle, n + 1, d', by omega, by rw [h1]; congr 1; omega, ?_, ?_, h4, ?_, h6⟩
          · rw [dec]; exact h2
          · exact h3
          · rw [dec]; exact h5

/-- The loop in two parts. -/
theorem decodeLoop_add (s : State) (a b i : Nat) (d : DecodeLocals) :
    decodeLoop s (a + b) i d =
      match decodeLoop s a i d with
      | .ended d' => decodeLoop s b (i + a) d'
      | stop => stop := by
  induction a generalizing i d with
  | zero => simp [decodeLoop]
  | succ a ih =>
    rw [show a + 1 + b = (a + b) + 1 by omega, decodeLoop, decodeLoop]
    match decodeStep s i d with
    | .ended d' => simp only [ih]; rw [show i + 1 + a = i + (a + 1) by omega]
    | .failed e j d' => rfl
    | .stuck f => rfl

/-- Where the words end the next bit is truncated (R220). -/
theorem decodeStep_truncated (s : State) (i : Nat) (d : DecodeLocals) (h : 32 * s.payWords.toNat ≤ i) :
    decodeStep s i d = .failed .truncatedData i d := by
  unfold decodeStep
  rw [if_pos (by omega)]

/-- On a single-leaf tree the first bit that is there is an invalid path (R221). -/
theorem decodeStep_leaf {s : State} {i : Nat} {d : DecodeLocals} {sym : Byte} {w : Word}
    (hi : i < 32 * s.payWords.toNat) (h : s.node[d.cur.toNat]? = some (.leaf sym w)) :
    decodeStep s i d = .failed .invalidPath i d := by
  unfold decodeStep
  rw [if_neg (by omega), h]

/-- A property of the locals a loop ends or fails with. -/
def LoopEnd.All {α : Type} (P : α → Prop) : LoopEnd α → Prop
  | .ended x => P x
  | .failed _ _ x => P x
  | .stuck _ => True

/-- A property that moving the cursor and emitting a byte keep holds of whatever DECODE's loop leaves, on any arena. -/
theorem decodeLoop_all {s : State} {P : DecodeLocals → Prop} (move : ∀ d k, P d → P { d with cur := k })
    (emit : ∀ d sym, P d → d.outLen < s.cfg.outCap →
      P { mem := d.mem.setOut d.outLen sym, outLen := d.outLen + 1, cur := s.root })
    (todo i : Nat) (d : DecodeLocals) (h : P d) : (decodeLoop s todo i d).All P := by
  have one : ∀ i d, P d → (decodeStep s i d).All P := by
    intro i d h
    unfold decodeStep arrive
    split
    · exact h
    · split
      · trivial
      · exact h
      · split
        · trivial
        · exact move _ _ h
        · split
          · exact move _ _ h
          · exact emit _ _ h (by omega)
  induction todo generalizing i d with
  | zero => exact h
  | succ todo ih =>
    have := one i d h
    unfold decodeLoop
    split
    · rename_i d' hd
      rw [hd] at this
      exact ih _ _ this
    · exact this

end Sys2Proof.Machine
end

