-- ==== Sys2Proof/Laws/Encode.lean ====
section
/-! SUPPORT. What ENCODE's loop does (45_encode.md R200 to R208), and how its words read back as payload bits. -/

namespace Sys2Proof.Machine

/-- `n` input bytes from index `j`. -/
def State.inputFrom (s : State) (j n : Nat) : List Byte := (List.range' j n).map s.inByte

theorem State.inputFrom_zero (s : State) (j : Nat) : s.inputFrom j 0 = [] := rfl

theorem State.inputFrom_succ (s : State) (j n : Nat) : s.inputFrom j (n + 1) = s.inByte j :: s.inputFrom (j + 1) n := by
  simp [State.inputFrom, List.range'_succ]

theorem State.input_eq (s : State) : s.input = s.inputFrom 0 s.inLen.toNat := by
  simp [State.input, State.inputFrom, List.range_eq_range']

theorem State.codeBits_cons (s : State) (b : Byte) (x : List Byte) :
    s.codeBits (b :: x) = (s.codeOf b).path ++ s.codeBits x := rfl

/-- How ENCODE's loop ends: every byte packed (a); a byte without a code (b); a full word without room (c). -/
inductive EncodeEnd (s : State) (m0 : Memory) (bits : List Bool) (j todo : Nat) : LoopEnd EncodeLocals → Prop where
  | all (e : EncodeLocals) (valid : ∀ k, k < todo → (s.codeOf (s.inByte (j + k))).valid = true)
      (fits : (bits ++ s.codeBits (s.inputFrom j todo)).length < 32 * (s.cfg.payCap + 1))
      (packed : Packed m0 (bits ++ s.codeBits (s.inputFrom j todo)) e) (room : e.w ≤ s.cfg.payCap) :
      EncodeEnd s m0 bits j todo (.ended e)
  | noCode (n : Nat) (e : EncodeLocals) (lt : n < todo)
      (valid : ∀ k, k < n → (s.codeOf (s.inByte (j + k))).valid = true)
      (bad : (s.codeOf (s.inByte (j + n))).valid = false)
      (fits : (bits ++ s.codeBits (s.inputFrom j n)).length < 32 * (s.cfg.payCap + 1))
      (packed : Packed m0 (bits ++ s.codeBits (s.inputFrom j n)) e) (room : e.w ≤ s.cfg.payCap) :
      EncodeEnd s m0 bits j todo (.failed .noCode (j + n) e)
  | full (n : Nat) (e : EncodeLocals) (lt : n < todo)
      (valid : ∀ k, k ≤ n → (s.codeOf (s.inByte (j + k))).valid = true)
      (fits : (bits ++ s.codeBits (s.inputFrom j n)).length < 32 * (s.cfg.payCap + 1))
      (spill : 32 * (s.cfg.payCap + 1) ≤ (bits ++ s.codeBits (s.inputFrom j (n + 1))).length)
      (packed : Packed m0 ((bits ++ s.codeBits (s.inputFrom j (n + 1))).take (32 * s.cfg.payCap + 31)) e)
      (room : e.w = s.cfg.payCap) :
      EncodeEnd s m0 bits j todo (.failed .capacity (j + n) e)

theorem encodeLoop_spec (s : State) (m0 : Memory) (todo j : Nat) {bits : List Bool} {e : EncodeLocals}
    (h : Packed m0 bits e) (hcap : e.w ≤ s.cfg.payCap) (hfit : bits.length < 32 * (s.cfg.payCap + 1)) :
    EncodeEnd s m0 bits j todo (encodeLoop s todo j e) := by
  induction todo generalizing j bits e with
  | zero =>
    exact .all e (fun k hk => by omega) (by simpa [State.inputFrom_zero, State.codeBits] using hfit)
      (by simpa [State.inputFrom_zero, State.codeBits] using h) hcap
  | succ todo ih =>
    have e0 : bits ++ s.codeBits (s.inputFrom j 0) = bits := by simp [State.inputFrom_zero, State.codeBits]
    have e1 : s.codeBits (s.inputFrom j 1) = (s.codeOf (s.inByte j)).path := by
      simp [State.inputFrom_succ, State.inputFrom_zero, State.codeBits]
    have es : ∀ n, bits ++ s.codeBits (s.inputFrom j (n + 1)) =
        (bits ++ (s.codeOf (s.inByte j)).path) ++ s.codeBits (s.inputFrom (j + 1) n) := fun n => by
      rw [State.inputFrom_succ, State.codeBits_cons, List.append_assoc]
    unfold encodeLoop
    by_cases hv : (s.codeOf (s.inByte j)).valid = true
    · simp only [hv, if_true]
      have shift : ∀ {m : Nat}, (∀ k, k < m → (s.codeOf (s.inByte (j + 1 + k))).valid = true) →
          ∀ k, k < m + 1 → (s.codeOf (s.inByte (j + k))).valid = true := by
        intro m hm k hk
        cases k with
        | zero => exact hv
        | succ k => rw [show j + (k + 1) = j + 1 + k by omega]; exact hm k (by omega)
      rcases pushBits_spec s.cfg.payCap (s.codeOf (s.inByte j)).path h hcap with ⟨hl, e', he, hp, hw⟩ | ⟨hl, e', he, hp, hw⟩
      · simp only [he]
        have key := ih (j + 1) hp hw hl
        generalize hr : encodeLoop s todo (j + 1) e' = r at key ⊢
        cases key with
        | all e'' valid fits packed room =>
          exact .all _ (shift valid) (by rw [es]; exact fits) (by rw [es]; exact packed) room
        | noCode n e'' lt valid bad fits packed room =>
          rw [show j + 1 + n = j + (n + 1) by omega] at bad ⊢
          exact .noCode (n + 1) _ (by omega) (shift valid) bad (by rw [es]; exact fits) (by rw [es]; exact packed) room
        | full n e'' lt valid fits spill packed room =>
          rw [show j + 1 + n = j + (n + 1) by omega]
          exact .full (n + 1) _ (by omega)
            (fun k hk => shift (m := n + 1) (fun k hk => valid k (by omega)) k (by omega))
            (by rw [es]; exact fits) (by rw [es]; exact spill) (by rw [es]; exact packed) room
      · rw [he]
        have := EncodeEnd.full (s := s) (m0 := m0) (bits := bits) (j := j) (todo := todo + 1) 0 e' (by omega)
          (fun k hk => by obtain rfl : k = 0 := by omega
                          exact hv) (by rw [e0]; exact hfit) (by rw [e1]; exact hl) (by rw [e1]; exact hp) hw
        simpa using this
    · simp only [hv]
      exact EncodeEnd.noCode (s := s) (m0 := m0) (bits := bits) (j := j) (todo := todo + 1) 0 e (by omega)
        (fun k hk => by omega) (by simpa using hv) (by rw [e0]; exact hfit) (by rw [e0]; exact h) hcap

/-- ENCODE's loop never stops outside the rules. -/
theorem encodeLoop_not_stuck (s : State) (todo j : Nat) (e : EncodeLocals) (f : Fault) :
    encodeLoop s todo j e ≠ .stuck f := by
  induction todo generalizing j e with
  | zero => simp [encodeLoop]
  | succ todo ih =>
    unfold encodeLoop
    simp only
    split
    · split
      · simp
      · exact ih _ _
    · simp

/-! ### Reading the words back -/

/-- A payload word that lies in the memory byte by byte. -/
theorem State.payWord_of_bytes {s : State} {w : Nat} {v : Word}
    (h : ∀ n, n < 4 → s.mem.get (payBase + 4 * w + n) = some (byteOf v n)) : s.payWord w = v := by
  have hb : ∀ n, n < 4 → s.byteAt (payBase + 4 * w + n) = byteOf v n := fun n hn => State.byteAt_of_get (h n hn)
  unfold State.payWord State.wordAt
  rw [hb 3 (by omega), hb 2 (by omega), hb 1 (by omega), show s.byteAt (payBase + 4 * w) = byteOf v 0 from hb 0 (by omega)]
  exact wordOf_byteOf v

theorem packedWord_getLsbD (bits : List Bool) (w i : Nat) (hi : i < 32) :
    (packedWord bits w).getLsbD i = bits.getD (32 * w + i) false := by
  rw [packedWord, wordOfBits_getLsbD]
  simp only [hi, decide_true, Bool.true_and, List.getD_eq_getElem?_getD, List.getElem?_take, if_true,
    List.getElem?_drop]

/-- The finished words of a packed payload read back as its bits (R101). -/
theorem Packed.payBit {s : State} {m0 : Memory} {bits : List Bool} {e : EncodeLocals} (h : Packed m0 bits e)
    (hm : ∀ x, payBase ≤ x → x < payBase + 4 * e.w → s.mem.get x = e.mem.get x) {i : Nat} (hi : i / 32 < e.w) :
    s.payBit i = bits.getD i false := by
  unfold State.payBit
  rw [State.payWord_of_bytes (v := packedWord bits (i / 32)) (fun n hn => ?_), packedWord_getLsbD _ _ _ (by omega)]
  · rw [show 32 * (i / 32) + i % 32 = i by omega]
  · rw [hm _ (by omega) (by omega), h.mem, if_pos (by omega),
      show (payBase + 4 * (i / 32) + n - payBase) / 4 = i / 32 by omega,
      show (payBase + 4 * (i / 32) + n - payBase) % 4 = n by omega]

/-! ### The bits of the input -/

/-- The bytes outside the finished words are as they were. -/
theorem Packed.outside {m0 : Memory} {bits : List Bool} {e : EncodeLocals} (h : Packed m0 bits e) {s t : State}
    (hs : s.mem = m0) (ht : t.mem = e.mem) (hp : t.powerCycle = s.powerCycle) {a : Nat}
    (ha : a < payBase ∨ payBase + 4 * e.w ≤ a) : t.byteAt a = s.byteAt a := by
  refine State.byteAt_congr a ?_ hp
  rw [ht, hs, h.mem, if_neg (by omega)]

theorem State.codeBits_length (s : State) (x : List Byte) : (s.codeBits x).length = (x.map fun b => (s.codeOf b).len.toNat).sum := by
  unfold State.codeBits
  rw [List.length_flatMap]
  congr 2
  funext b
  simp [CodeEntry.path]

theorem State.codeBits_le (s : State) (x : List Byte) : (s.codeBits x).length ≤ 511 * x.length := by
  induction x with
  | nil => simp [State.codeBits]
  | cons b x ih =>
    rw [State.codeBits_cons, List.length_append, List.length_cons]
    have : (s.codeOf b).path.length ≤ 511 := by simp [CodeEntry.path]; have := (s.codeOf b).len.isLt; omega
    omega

@[simp] theorem State.input_length (s : State) : s.input.length = s.inLen.toNat := by simp [State.input]

theorem State.codeBits_take_add (s : State) (n m : Nat) (h : n ≤ m) :
    ∃ rest, s.codeBits (s.input.take m) = s.codeBits (s.input.take n) ++ rest := by
  refine ⟨s.codeBits ((s.input.take m).drop n), ?_⟩
  unfold State.codeBits
  rw [← List.flatMap_append, show s.input.take n = (s.input.take m).take n by rw [List.take_take, Nat.min_eq_left h], List.take_append_drop]

theorem State.inByte_mem_take (s : State) (n : Nat) (h : n < s.inLen.toNat) : s.inByte n ∈ s.input.take (n + 1) := by
  rw [List.mem_take_iff_getElem]
  exact ⟨n, by rw [State.input_length]; omega, by simp [State.input]⟩

theorem State.mem_take_mono {s : State} {m n : Nat} (h : m ≤ n) {b : Byte} (hb : b ∈ s.input.take m) : b ∈ s.input.take n := by
  rw [← Nat.min_eq_left h, ← List.take_take] at hb
  exact List.mem_of_mem_take hb

/-- A sum over a byte sequence is the sum over the byte values of their contributions. -/
theorem sum_over_bytes (x : List Byte) (f : Byte → Nat) (n : Nat) (hn : n ≤ 256) (hx : ∀ a ∈ x, a.toNat < n) :
    (x.map f).sum = ((List.range n).map fun b => f (BitVec.ofNat 8 b) * x.count (BitVec.ofNat 8 b)).sum := by
  induction x with
  | nil => simp
  | cons a x ih =>
    rw [List.map_cons, List.sum_cons, ih fun b hb => hx b (by simp [hb])]
    have : ∀ b ∈ List.range n, f (BitVec.ofNat 8 b) * (a :: x).count (BitVec.ofNat 8 b) =
        (if b = a.toNat then f a else 0) + f (BitVec.ofNat 8 b) * x.count (BitVec.ofNat 8 b) := by
      intro b hb
      simp only [List.mem_range] at hb
      rw [List.count_cons]
      by_cases h : b = a.toNat
      · subst h; simp; ring
      · have : a ≠ BitVec.ofNat 8 b := by rintro rfl; simp at h; omega
        simp [h, this]
    rw [List.map_congr_left this, List.sum_map_add]
    congr 1
    have h1 : ∀ n, ((List.range n).map fun b => if b = a.toNat then f a else 0).sum = if a.toNat < n then f a else 0 := by
      intro n
      induction n with
      | zero => simp
      | succ n ih =>
        rw [List.range_succ, List.map_append, List.sum_append, ih]
        simp only [List.map_cons, List.map_nil, List.sum_cons, List.sum_nil]
        split <;> split <;> split <;> omega
    rw [h1, if_pos (hx a (by simp))]

end Sys2Proof.Machine
end

