-- ==== Sys2Proof/Laws/Serialize.lean ====
section
/-! SUPPORT. What SERIALIZE's and DESERIALIZE's walks over the tokens do (44_serialize.md R180 to R191). -/

namespace Sys2Proof.Machine

/-! ### Tokens -/

@[simp] theorem classify_leafToken (sym : Byte) : classify (leafToken sym) = .leaf sym := by
  have h : (leafToken sym).toInt = sym.toNat := by
    rw [BitVec.toInt_eq_toNat_of_lt] <;> simp [leafToken] <;> omega
  have hb := sym.isLt
  unfold classify
  rw [if_pos (by rw [h]; omega)]
  simp [leafToken]

@[simp] theorem classify_sentinelToken : classify sentinelToken = .sentinel := by decide

theorem classify_eq_leaf {v : Token} {sym : Byte} (h : classify v = .leaf sym) : v = leafToken sym := by
  unfold classify at h
  split at h
  · next hv =>
    have hs : v.setWidth 8 = sym := by simpa using h
    subst hs
    have hlt : v.toNat < 256 := by
      have := BitVec.toInt_eq_toNat_cond v
      split at this <;> omega
    apply BitVec.eq_of_toNat_eq
    simp [leafToken]; omega
  · split at h <;> simp at h

theorem classify_eq_sentinel {v : Token} (h : classify v = .sentinel) : v = sentinelToken := by
  unfold classify at h
  split at h
  · simp at h
  · split at h
    · next hv => exact BitVec.eq_of_toInt_eq (by rw [hv]; decide)
    · simp at h

/-! ### The tree of a token stream is one -/

/-- The trees on the stack after reading tokens, the top first. -/
def parseTokens : List Token → List HTree → Option (List HTree)
  | [], f => some f
  | v :: vs, f =>
    match classify v with
    | .leaf sym => parseTokens vs (.leaf sym :: f)
    | .sentinel =>
      match f with
      | r :: l :: f => parseTokens vs (.node l r :: f)
      | _ => none
    | .reserved => none

theorem parseTokens_ser (t : HTree) (rest : List Token) (f : List HTree) :
    parseTokens (t.ser ++ rest) f = parseTokens rest (t :: f) := by
  induction t generalizing rest f with
  | leaf sym => simp [HTree.ser, parseTokens]
  | node l r hl hr =>
    rw [HTree.ser, List.append_assoc, List.append_assoc, hl, hr]
    simp [parseTokens]

/-- A token stream is the serialization of one tree at most (R191). -/
theorem HTree.ser_injective {t u : HTree} (h : t.ser = u.ser) : t = u := by
  have ht := parseTokens_ser t [] []
  rw [h, parseTokens_ser] at ht
  simpa [parseTokens] using ht.symm

theorem tokenDepth_ser (t : HTree) (rest : List Token) (n : Nat) :
    tokenDepth (t.ser ++ rest) n = tokenDepth rest (n + 1) := by
  induction t generalizing rest n with
  | leaf sym => simp [HTree.ser, tokenDepth]
  | node l r hl hr =>
    rw [HTree.ser, List.append_assoc, List.append_assoc, hl, hr]
    simp [tokenDepth]

theorem tokenDepth_append (a b : List Token) (n : Nat) :
    tokenDepth (a ++ b) n = (tokenDepth a n).bind (tokenDepth b) := by
  induction a generalizing n with
  | nil => rfl
  | cons v a ih =>
    simp only [List.cons_append, tokenDepth]
    cases classify v with
    | leaf sym => exact ih _
    | sentinel =>
      simp only
      split
      · exact ih _
      · rfl
    | reserved => rfl

/-! ### The loop over the tokens -/

/-- What DESERIALIZE has after the tokens `toks` (R49, R185): the arena holds the trees of the stack, every weight is
0, and `toks` are the serializations of those trees, the bottom one first. -/
structure Reading (toks : List Token) (d : DeserializeLocals) (forest : List HTree) : Prop where
  serial : toks = forest.reverse.flatMap HTree.ser
  kinds : d.node.map Node.token = toks
  trees : d.stk.map (treeFrom d.node d.node.length) = forest.map some
  owned : (d.stk ++ childList d.node).Perm (List.range d.node.length)
  nodes : ∀ k, k < d.node.length → nodeOk d.node k = true
  zero : ∀ x ∈ d.node, x.weight = 0
  leaves : d.leaves = d.node.countP Node.isLeaf
  total : d.node.length + d.stk.length = 2 * d.leaves
  top : ∀ k rest, d.stk = k :: rest → k + 1 = d.node.length

theorem Reading.start : Reading [] { node := [], stk := [], leaves := 0 } [] where
  serial := rfl
  kinds := rfl
  trees := rfl
  owned := by simp [childList]
  nodes := by simp
  zero := by simp
  leaves := rfl
  total := rfl
  top := by simp

theorem Reading.size {toks : List Token} {d : DeserializeLocals} {forest : List HTree} (h : Reading toks d forest) :
    d.node.length = toks.length := by
  rw [← h.kinds, List.length_map]

theorem Reading.length {toks : List Token} {d : DeserializeLocals} {forest : List HTree} (h : Reading toks d forest) :
    d.stk.length = forest.length := by
  simpa using congrArg List.length h.trees

theorem Reading.depth {toks : List Token} {d : DeserializeLocals} {forest : List HTree} (h : Reading toks d forest) :
    tokenDepth toks 0 = some d.stk.length := by
  rw [h.length, h.serial]
  have : ∀ (f : List HTree) (n : Nat), tokenDepth (f.flatMap HTree.ser) n = some (n + f.length) := by
    intro f
    induction f with
    | nil => intro n; simp [tokenDepth]
    | cons t f ih => intro n; rw [List.flatMap_cons, tokenDepth_ser, ih, List.length_cons]; congr 1; omega
  simpa using this forest.reverse 0

theorem weightAt_zero {node : List Node} (h : ∀ x ∈ node, x.weight = 0) (k : Nat) : weightAt node k = 0 := by
  unfold weightAt
  match hk : node[k]? with
  | none => rfl
  | some x => simpa using h x (List.mem_of_getElem? hk)

/-- One token that is not malformed. -/
theorem Reading.step {toks : List Token} {d d' : DeserializeLocals} {forest : List HTree} {v : Token}
    (h : Reading toks d forest) (hsmall : toks.length < tokCap) (hd : deserializeStep v d = some d') :
    ∃ forest', Reading (toks ++ [v]) d' forest' := by
  have hsize := h.size
  simp only [tokCap] at hsmall
  have htrees : ∀ more : List Node, d.stk.map (treeFrom (d.node ++ more) (d.node ++ more).length) = forest.map some := by
    intro more
    rw [← h.trees]
    refine List.map_congr_left fun k hk => ?_
    have hm : treeFrom d.node d.node.length k ∈ forest.map some := by
      rw [← h.trees]; exact List.mem_map_of_mem hk
    obtain ⟨t, _, ht⟩ := List.mem_map.1 hm
    rw [← ht]
    exact treeFrom_mono ht.symm (by simp)
  unfold deserializeStep at hd
  cases hc : classify v with
  | reserved => simp [hc] at hd
  | leaf sym =>
    rw [hc] at hd
    obtain rfl := Option.some.inj hd
    refine ⟨.leaf sym :: forest, ?_, ?_, ?_, ?_, ?_, ?_, ?_, ?_, ?_⟩
    · simp [h.serial, HTree.ser, classify_eq_leaf hc]
    · simp [h.kinds, Node.token, classify_eq_leaf hc]
    · rw [List.map_cons, htrees]
      simp [treeFrom_succ]
    · have : childList (d.node ++ [Node.leaf sym 0]) = childList d.node := by simp [childList, Node.children]
      rw [this, List.length_append, List.length_singleton, List.range_succ]
      exact (List.perm_middle (l₁ := [])).trans ((h.owned.cons _).trans (List.perm_append_singleton _ _).symm)
    · intro k hk
      simp only [List.length_append, List.length_singleton] at hk
      rcases Nat.lt_or_ge k d.node.length with hk' | hk'
      · rw [nodeOk_append hk']; exact h.nodes k hk'
      · obtain rfl : k = d.node.length := by omega
        simp [nodeOk]
    · intro x hx
      rcases List.mem_append.1 hx with hx | hx
      · exact h.zero x hx
      · rw [List.mem_singleton.1 hx]; rfl
    · simp [h.leaves, Node.isLeaf]
    · have := h.total
      simp only [List.length_append, List.length_cons, List.length_nil]; omega
    · intro k rest he
      simp only [List.cons.injEq] at he
      simp [← he.1]
  | sentinel =>
    rw [hc] at hd
    match hs : d.stk with
    | [] => rw [hs] at hd; simp at hd
    | [_] => rw [hs] at hd; simp at hd
    | r :: l :: rest =>
      rw [hs] at hd
      obtain rfl := Option.some.inj hd
      have hlen := h.length
      match hf : forest with
      | [] => simp [hs] at hlen
      | [_] => simp [hs] at hlen
      | tr :: tl :: forest' =>
        have hnd : (d.stk ++ childList d.node).Nodup := h.owned.nodup_iff.2 List.nodup_range
        rw [hs] at hnd
        have hlt : ∀ x ∈ d.stk, x < d.node.length := fun x hx => by
          have : x ∈ d.stk ++ childList d.node := List.mem_append_left _ hx
          rw [h.owned.mem_iff] at this; simpa using this
        have hrl := hlt r (by simp [hs])
        have hll := hlt l (by simp [hs])
        have hne : l ≠ r := fun e => by subst e; simp at hnd
        have hl9 : (BitVec.ofNat 9 l).toNat = l := by simp; omega
        have hr9 : (BitVec.ofNat 9 r).toNat = r := by simp; omega
        have hb : BitVec.ofNat 9 l ≠ BitVec.ofNat 9 r := fun e => hne (by rw [← hl9, ← hr9, e])
        have ht := htrees [.internal 0 (BitVec.ofNat 9 l) (BitVec.ofNat 9 r)]
        have ht0 := h.trees
        simp only [hs, List.map_cons, List.cons.injEq] at ht ht0
        refine ⟨.node tl tr :: forest', ?_, ?_, ?_, ?_, ?_, ?_, ?_, ?_, ?_⟩
        · simp [h.serial, HTree.ser, classify_eq_sentinel hc]
        · simp [h.kinds, Node.token, classify_eq_sentinel hc]
        · rw [List.map_cons, List.map_cons, ht.2.2]
          have e1 := treeFrom_mono (more := [.internal 0 (BitVec.ofNat 9 l) (BitVec.ofNat 9 r)]) ht0.1 le_rfl
          have e2 := treeFrom_mono (more := [.internal 0 (BitVec.ofNat 9 l) (BitVec.ofNat 9 r)]) ht0.2.1 le_rfl
          simp only [List.length_append, List.length_singleton, treeFrom_succ, List.getElem?_concat_length, hl9, hr9, e1, e2]
        · have hcl : childList (d.node ++ [Node.internal 0 (BitVec.ofNat 9 l) (BitVec.ofNat 9 r)]) =
              childList d.node ++ [l, r] := by simp [childList, Node.children, hl9, hr9]
          rw [hcl, List.length_append, List.length_singleton, List.range_succ]
          have p0 : ((d.node.length :: rest) ++ (childList d.node ++ [l, r])).Perm
              ((r :: l :: rest) ++ childList d.node ++ [d.node.length]) := by
            rw [List.perm_iff_count]
            intro x
            simp only [List.count_append, List.count_cons, List.count_nil]
            omega
          have := h.owned
          rw [hs] at this
          exact p0.trans (this.append_right _)
        · intro k hk
          simp only [List.length_append, List.length_singleton] at hk
          rcases Nat.lt_or_ge k d.node.length with hk' | hk'
          · rw [nodeOk_append hk']; exact h.nodes k hk'
          · obtain rfl : k = d.node.length := by omega
            simp only [nodeOk, List.getElem?_concat_length, hl9, hr9, Bool.and_eq_true, decide_eq_true_eq, bne_iff_ne,
              beq_iff_eq, weightAt_append hll, weightAt_append hrl, weightAt_zero h.zero]
            exact ⟨⟨⟨hll, hrl⟩, hb⟩, rfl⟩
        · intro x hx
          rcases List.mem_append.1 hx with hx | hx
          · exact h.zero x hx
          · rw [List.mem_singleton.1 hx]; rfl
        · simp [h.leaves, Node.isLeaf]
        · have := h.total
          rw [hs] at this
          simp only [List.length_append, List.length_cons, List.length_nil] at this ⊢; omega
        · intro k rest' he
          simp only [List.cons.injEq] at he
          simp [← he.1]

/-- Where a token is malformed the height of the stack is none. -/
theorem Reading.malformed {toks : List Token} {d : DeserializeLocals} {forest : List HTree} {v : Token}
    (h : Reading toks d forest) : deserializeStep v d = none ↔ tokenDepth (toks ++ [v]) 0 = none := by
  rw [tokenDepth_append, h.depth]
  simp only [Option.bind_some, tokenDepth, deserializeStep]
  cases classify v with
  | leaf sym => simp
  | reserved => simp
  | sentinel =>
    match d.stk with
    | [] => simp
    | [_] => simp
    | r :: l :: rest => simp

/-- The loop (R185 to R187): every token read, or the first malformed one. -/
theorem deserializeLoop_spec (vs : List Token) {toks : List Token} {d : DeserializeLocals} {forest : List HTree}
    (h : Reading toks d forest) (hsmall : toks.length + vs.length ≤ tokCap) :
    (∃ d' forest', deserializeLoop vs toks.length d = .ended d' ∧ Reading (toks ++ vs) d' forest') ∨
    (∃ n d', n < vs.length ∧ deserializeLoop vs toks.length d = .failed .malformedTree (toks.length + n) d' ∧
      (tokenDepth (toks ++ vs.take n) 0).isSome = true ∧ tokenDepth (toks ++ vs.take (n + 1)) 0 = none) := by
  induction vs generalizing toks d forest with
  | nil => exact .inl ⟨d, forest, rfl, by simpa using h⟩
  | cons v vs ih =>
    rw [List.length_cons] at hsmall
    cases hd : deserializeStep v d with
    | none =>
      exact .inr ⟨0, d, by simp, by simp [deserializeLoop, hd], by simp [h.depth], by simpa using h.malformed.1 hd⟩
    | some d' =>
      obtain ⟨forest', hr⟩ := h.step (by omega) hd
      have key := ih hr (by simp; omega)
      simp only [List.length_append, List.length_singleton, List.append_assoc, List.singleton_append] at key
      simp only [deserializeLoop, hd]
      rcases key with ⟨d'', f'', h1, h2⟩ | ⟨n, d'', h0, h1, h2, h3⟩
      · exact .inl ⟨d'', f'', h1, h2⟩
      · exact .inr ⟨n + 1, d'', by simp; omega, by rw [h1]; congr 1; omega, by simpa using h2, by simpa using h3⟩

/-- One tree on the stack at the end: the tokens are its serialization and the arena is valid and holds it (R185, R191). -/
theorem Reading.tree {toks : List Token} {d : DeserializeLocals} {forest : List HTree} {r : Nat} (h : Reading toks d forest)
    (hsmall : toks.length ≤ tokCap) (hr : d.stk = [r]) :
    ∃ t : HTree, toks = t.ser ∧ treeOf d.node r = some t ∧ ArenaOk d.node d.leaves d.node.length r := by
  have hlen := h.length
  rw [hr] at hlen
  obtain ⟨t, rfl⟩ := List.length_eq_one_iff.1 hlen.symm
  have htop := h.top r [] hr
  have htree := h.trees
  simp only [hr, List.map_cons, List.map_nil, List.cons.injEq, and_true] at htree
  have htot := h.total
  rw [hr, List.length_singleton] at htot
  refine ⟨t, by simpa using h.serial, htree, rfl, htop, h.leaves, by omega, ?_, h.nodes, ?_⟩
  · have := h.size
    simp only [tokCap, alphabet] at *
    omega
  · have := h.owned
    rw [hr, ← htop, List.range_succ] at this
    exact (List.perm_append_left_iff _).1 (this.trans List.perm_append_comm)

/-- A serialized tree is read back (R191). -/
theorem deserializeLoop_ser (t : HTree) (hsmall : t.ser.length ≤ tokCap) :
    ∃ d r, deserializeLoop t.ser 0 { node := [], stk := [], leaves := 0 } = .ended d ∧ d.stk = [r] ∧
      treeOf d.node r = some t ∧ ArenaOk d.node d.leaves d.node.length r ∧ (∀ x ∈ d.node, x.weight = 0) ∧
      d.node.map Node.token = t.ser := by
  rcases deserializeLoop_spec t.ser Reading.start (by simpa using hsmall) with ⟨d, f, h1, h2⟩ | ⟨n, d, h0, h1, h2, h3⟩
  · rw [List.nil_append] at h2
    have hd := h2.depth
    rw [show t.ser = t.ser ++ [] by simp, tokenDepth_ser] at hd
    have hone : d.stk.length = 1 := by simpa [tokenDepth] using hd.symm
    obtain ⟨r, hr⟩ := List.length_eq_one_iff.1 hone
    obtain ⟨u, hu, hu1, hu2⟩ := h2.tree hsmall hr
    rw [← HTree.ser_injective hu] at hu1
    exact ⟨d, r, h1, hr, hu1, hu2, h2.zero, h2.kinds⟩
  · exfalso
    have hd : tokenDepth (t.ser.take (n + 1) ++ t.ser.drop (n + 1)) 0 = some 1 := by
      rw [List.take_append_drop]
      simpa [tokenDepth] using tokenDepth_ser t [] 0
    rw [List.nil_append] at h3
    rw [tokenDepth_append, h3] at hd
    simp at hd

/-! ### The tokens in the buffer -/

/-- The tokens written read back (R181). -/
theorem State.tokens_of_setTokens {s : State} {m : Memory} {vs : List Token} (hlen : s.tokCount.toNat = vs.length)
    (hcap : vs.length ≤ tokCap) (hm : s.mem = m.setTokens 0 vs) : s.tokens = vs := by
  refine List.ext_getElem (by simp [State.tokens, hlen]) fun k hk hk' => ?_
  simp only [State.tokens, List.getElem_map, List.getElem_range]
  simpa using State.token_of_setTokens (s := s) (m := m) 0 vs k hk' (by omega) (fun x _ _ => by rw [hm])

end Sys2Proof.Machine
end

