-- ==== Sys2Proof/Laws/Effects.lean ====
section
/-! SUPPORT. What each command does, once: its outcome on every state it can run in, and every next state it can
answer. The proofs about commands cite these and never unfold a body. -/

namespace Sys2Proof.Machine

/-! ### FREQ (41_frequency.md R135) -/

/-- FREQ after an error. -/
def State.freqFailed (e : Err) (info : Quad) (s : State) : State :=
  { s.failed .freq e info with flags := { (s.failed .freq e info).flags with freqValid := false }, total := 0, count := [] }

theorem exec_freq (s : State) : exec .freq s = .next (
    if s.cfg.inCap < s.inLen.toNat then s.freqFailed .capacity (s.inLen.setWidth 64)
    else if s.inLen = 0 then s.freqFailed .emptyInput 0
    else { s.succeeded .freq with
      flags := { (s.succeeded .freq).flags with freqValid := true }, count := countBytes s.input, total := s.inLen }) := by
  show runCommand .freq freqBody s = _
  by_cases h : s.cfg.inCap < s.inLen.toNat
  · rw [if_pos h]
    exact runCommand_raise_eq rfl (if_pos h) rfl
  · rw [if_neg h]
    by_cases h2 : s.inLen = 0
    · rw [if_pos h2]
      exact runCommand_raise_eq rfl ((if_neg h).trans (if_pos h2)) rfl
    · rw [if_neg h2]
      exact runCommand_done_eq rfl ((if_neg h).trans (if_neg h2)) rfl

/-! ### BUILD (42_tree_build.md R150) -/

/-- A command's success with a new tree in the arena (R150, R185). -/
def State.treeInstalled (i : Instr) (node : List Node) (leaves root : Nat) (s : State) : State :=
  { s.succeeded i with
    flags := { (s.succeeded i).flags with treeValid := true, codesValid := false }
    leafCount := BitVec.ofNat 9 leaves
    nodeCount := BitVec.ofNat 9 node.length
    root := BitVec.ofNat 9 root
    node := node
    code := [] }

/-- The registers of an installed tree hold what was installed. -/
theorem treeInstalled_arena {i : Instr} {s : State} {node : List Node} {leaves root : Nat}
    (h : ArenaOk node leaves node.length root) :
    (s.treeInstalled i node leaves root).leafCount.toNat = leaves ∧
    (s.treeInstalled i node leaves root).nodeCount.toNat = node.length ∧
    (s.treeInstalled i node leaves root).root.toNat = root := by
  have h1 := h.bound
  have h2 := h.twice
  have h3 := h.rootLast
  simp only [alphabet] at h1
  simp only [State.treeInstalled, BitVec.toNat_ofNat]
  omega

/-- BUILD on valid counts: the arena of the whole merge. -/
theorem exec_build {s : State} (hv : s.flags.freqValid = true) (hc : leavesOf s.count ≠ []) :
    ∃ node r, exec .build s = .next (s.treeInstalled .build node (leavesOf s.count).length r) ∧
      leavesOf s.count <+: node ∧ ArenaOk node (leavesOf s.count).length node.length r ∧
      ∀ k, k < node.length → mergeOk node k := by
  obtain ⟨node, r, h1, h2, h3, h4⟩ := mergeLoop_arena hc
  refine ⟨node, r, ?_, h2, h3, h4⟩
  have hmin : minMember node [r] = some r := rfl
  show runCommand .build buildBody s = _
  exact runCommand_done_eq (by simp [missingFlag, hv])
    (by unfold buildBody; simp only [startCommand_count, h1, extractMin, hmin, Option.map_some]; rfl) rfl

/-- Every next state BUILD answers. -/
theorem exec_build_cases {s t : State} (h : exec .build s = .next t) :
    (s.flags.freqValid = false ∧ t = s.failed .build .sequence 3) ∨
    (s.flags.freqValid = true ∧ ∃ node leaves r, t = s.treeInstalled .build node leaves r) := by
  rcases runCommand_cases (body := buildBody) h with ⟨b, hb, rfl⟩ | ⟨hm, u, hu, rfl⟩ | ⟨hm, e, info, u, hu, rfl⟩
  · refine .inl ?_
    simp only [missingFlag] at hb
    split at hb
    · simp at hb
    · next hf => exact ⟨by simpa using hf, by obtain rfl := Option.some.inj hb; rfl⟩
  · refine .inr ⟨?_, ?_⟩
    · simp only [missingFlag] at hm
      split at hm
      · assumption
      · simp at hm
    · unfold buildBody at hu
      simp only at hu
      split at hu
      · simp at hu
      · next r _ _ =>
        obtain rfl := Body.done.inj hu
        exact ⟨_, _, r, rfl⟩
  · unfold buildBody at hu
    simp only at hu
    split at hu <;> simp at hu

/-! ### GENCODES (43_code_table.md R165) -/

/-- GENCODES on a tree with two leaves or more. -/
theorem exec_gencodes {s : State} {t : HTree} (hv : s.flags.treeValid = true) (ht : s.tree = some t)
    (hl : t.isLeaf = false) :
    ∃ code, codeTableOf s.node s.root.toNat = some code ∧
      exec .gencodes s = .next { s.succeeded .gencodes with
        flags := { (s.succeeded .gencodes).flags with codesValid := true }, code := code } := by
  have hcode := codeTableOf_eq s.node s.root.toNat
  rw [show treeOf s.node s.root.toNat = some t from ht] at hcode
  refine ⟨_, hcode, ?_⟩
  obtain ⟨n, hn⟩ : ∃ n, s.node.length = n + 1 := by
    cases hs : s.node.length with
    | zero => simp [State.tree, treeOf, hs, treeFrom] at ht
    | succ n => exact ⟨n, rfl⟩
  have ht' : treeFrom s.node (n + 1) s.root.toNat = some t := by rw [← hn]; exact ht
  rcases treeFrom_cases ht' with ⟨sym, w, hx, rfl⟩ | ⟨w, left, right, l, r, hx, _, _, rfl⟩
  · simp [HTree.isLeaf] at hl
  · show runCommand .gencodes gencodesBody s = _
    exact runCommand_done_eq (by simp [missingFlag, hv])
      (by unfold gencodesBody; simp only [startCommand_node, startCommand_root, hx, hcode, Option.map_some]; rfl) rfl

/-- GENCODES on a single leaf (R168). -/
theorem exec_gencodes_leaf {s : State} {sym : Byte} {w : Word} (hv : s.flags.treeValid = true)
    (hx : s.node[s.root.toNat]? = some (.leaf sym w)) :
    exec .gencodes s = .next
      { s.failed .gencodes .singleSymbol (sym.setWidth 64) with
        flags := { (s.failed .gencodes .singleSymbol (sym.setWidth 64)).flags with codesValid := false }, code := [] } := by
  show runCommand .gencodes gencodesBody s = _
  exact runCommand_raise_eq (by simp [missingFlag, hv])
    (by unfold gencodesBody; simp only [startCommand_node, startCommand_root, hx]; rfl) rfl

/-- Every next state GENCODES answers. -/
theorem exec_gencodes_cases {s t : State} (h : exec .gencodes s = .next t) :
    (s.flags.treeValid = false ∧ t = s.failed .gencodes .sequence 4) ∨
    (s.flags.treeValid = true ∧ ∃ sym w, s.node[s.root.toNat]? = some (.leaf sym w) ∧
      t = { s.failed .gencodes .singleSymbol (sym.setWidth 64) with
        flags := { (s.failed .gencodes .singleSymbol (sym.setWidth 64)).flags with codesValid := false }, code := [] }) ∨
    (s.flags.treeValid = true ∧ ∃ code w left right, s.node[s.root.toNat]? = some (.internal w left right) ∧
      codeTableOf s.node s.root.toNat = some code ∧
      t = { s.succeeded .gencodes with
        flags := { (s.succeeded .gencodes).flags with codesValid := true }, code := code }) := by
  rcases runCommand_cases (body := gencodesBody) h with ⟨b, hb, rfl⟩ | ⟨hm, u, hu, rfl⟩ | ⟨hm, e, info, u, hu, rfl⟩
  · refine .inl ?_
    simp only [missingFlag] at hb
    split at hb
    · simp at hb
    · next hf => exact ⟨by simpa using hf, by obtain rfl := Option.some.inj hb; rfl⟩
  all_goals
    have hv : s.flags.treeValid = true := by
      simp only [missingFlag] at hm
      split at hm
      · assumption
      · simp at hm
    unfold gencodesBody at hu
    simp only [startCommand_node, startCommand_root] at hu
    split at hu
    · simp at hu
  · simp at hu
  · next w left right hx =>
    split at hu
    · simp at hu
    · next code hcode =>
      obtain rfl := Body.done.inj hu
      exact .inr (.inr ⟨hv, code, w, left, right, hx, hcode, rfl⟩)
  · next sym w hx =>
    obtain ⟨rfl, rfl, rfl⟩ := Body.raise.inj hu
    exact .inr (.inl ⟨hv, sym, w, hx, rfl⟩)
  · split at hu <;> simp at hu

/-! ### SERIALIZE (44_serialize.md R180) -/

theorem exec_serialize {s : State} {t : HTree} (hv : s.flags.treeValid = true) (ht : s.tree = some t) :
    exec .serialize s = .next { s.succeeded .serialize with
      mem := s.mem.setTokens 0 t.ser, tokCount := BitVec.ofNat 64 t.ser.length } := by
  have hs : emitTokens s.node s.node.length s.root.toNat = some t.ser := by
    rw [emitTokens_eq, show treeFrom s.node s.node.length s.root.toNat = some t from ht]; rfl
  show runCommand .serialize serializeBody s = _
  exact runCommand_done_eq (by simp [missingFlag, hv])
    (by unfold serializeBody; simp only [startCommand_node, startCommand_root, hs]; rfl) rfl

/-- Every next state SERIALIZE answers. -/
theorem exec_serialize_cases {s u : State} (h : exec .serialize s = .next u) :
    (s.flags.treeValid = false ∧ u = s.failed .serialize .sequence 4) ∨
    (s.flags.treeValid = true ∧ ∃ t, s.tree = some t ∧
      u = { s.succeeded .serialize with
        mem := s.mem.setTokens 0 t.ser, tokCount := BitVec.ofNat 64 t.ser.length }) := by
  rcases runCommand_cases (body := serializeBody) h with ⟨b, hb, rfl⟩ | ⟨hm, u, hu, rfl⟩ | ⟨hm, e, info, u, hu, rfl⟩
  · refine .inl ?_
    simp only [missingFlag] at hb
    split at hb
    · simp at hb
    · next hf => exact ⟨by simpa using hf, by obtain rfl := Option.some.inj hb; rfl⟩
  · refine .inr ⟨?_, ?_⟩
    · simp only [missingFlag] at hm
      split at hm
      · assumption
      · simp at hm
    · unfold serializeBody at hu
      simp only [startCommand_node, startCommand_root, emitTokens_eq] at hu
      match ht : treeFrom s.node s.node.length s.root.toNat with
      | none => rw [ht] at hu; simp at hu
      | some t =>
        rw [ht] at hu
        obtain rfl := Body.done.inj hu
        exact ⟨t, ht, rfl⟩
  · unfold serializeBody at hu
    split at hu <;> simp at hu

/-! ### DESERIALIZE (44_serialize.md R185) -/

/-- DESERIALIZE after an error: the old tree is gone. -/
def State.deserializeFailed (e : Err) (info : Quad) (s : State) : State :=
  { s.failed .deserialize e info with
    flags := { (s.failed .deserialize e info).flags with treeValid := false, codesValid := false }
    leafCount := 0, nodeCount := 0, root := 0, node := [], code := [] }

theorem exec_deserialize_capacity {s : State} (h : tokCap < s.tokCount.toNat) :
    exec .deserialize s = .next (s.deserializeFailed .capacity s.tokCount) := by
  show runCommand .deserialize deserializeBody s = _
  exact runCommand_raise_eq rfl (if_pos h) rfl

/-- DESERIALIZE of at most 511 tokens, by how its loop ends. -/
theorem exec_deserialize {s : State} (h : s.tokCount.toNat ≤ tokCap) :
    (∃ (t : HTree) (d : DeserializeLocals) (r : Nat), s.tokens = t.ser ∧ treeOf d.node r = some t ∧ ArenaOk d.node d.leaves d.node.length r ∧
      (∀ x ∈ d.node, x.weight = 0) ∧ d.node.map Node.token = s.tokens ∧
      exec .deserialize s = .next (s.treeInstalled .deserialize d.node d.leaves r)) ∨
    (∃ n, tokenDepth s.tokens 0 = some n ∧ n ≠ 1 ∧
      exec .deserialize s = .next (s.deserializeFailed .malformedTree s.tokCount)) ∨
    (∃ n, n < s.tokCount.toNat ∧ (tokenDepth (s.tokens.take n) 0).isSome = true ∧
      tokenDepth (s.tokens.take (n + 1)) 0 = none ∧
      exec .deserialize s = .next (s.deserializeFailed .malformedTree (BitVec.ofNat 64 n))) := by
  have hlen : s.tokens.length = s.tokCount.toNat := by simp [State.tokens]
  have hb : deserializeBody (startCommand (encode .deserialize) 0 s) =
      match deserializeLoop s.tokens 0 { node := [], stk := [], leaves := 0 } with
      | .stuck f => .stuck f
      | .failed e t _ => .raise e (BitVec.ofNat 64 t) (startCommand (encode .deserialize) 0 s).clearTree
      | .ended d =>
        match d.stk with
        | [r] => .done ((startCommand (encode .deserialize) 0 s).clearTree.installTree d.node d.leaves r)
        | _ => .raise .malformedTree s.tokCount (startCommand (encode .deserialize) 0 s).clearTree :=
    if_neg (by simp only [startCommand_tokCount]; omega)
  rcases deserializeLoop_spec s.tokens Reading.start (by simpa [hlen] using h) with ⟨d, f, h1, h2⟩ | ⟨n, d, h0, h1, h2, h3⟩
  · rw [List.nil_append] at h2
    simp only [List.length_nil] at h1
    have hone : (∃ r, d.stk = [r]) ∨ (d.stk.length ≠ 1) := by
      by_cases h : d.stk.length = 1
      · exact .inl (List.length_eq_one_iff.1 h)
      · exact .inr h
    rcases hone with ⟨r, hr⟩ | hne
    · obtain ⟨t, ht1, ht2, ht3⟩ := h2.tree (by omega) hr
      refine .inl ⟨t, d, r, ht1, ht2, ht3, h2.zero, h2.kinds, ?_⟩
      show runCommand .deserialize deserializeBody s = _
      exact runCommand_done_eq rfl (by
        rw [hb, h1]
        simp only [hr]; rfl) rfl
    · refine .inr (.inl ⟨d.stk.length, h2.depth, hne, ?_⟩)
      show runCommand .deserialize deserializeBody s = _
      exact runCommand_raise_eq rfl (by
        rw [hb, h1]
        simp only
        split
        · next hr => rw [hr] at hne; simp at hne
        · rfl) rfl
  · refine .inr (.inr ⟨n, by omega, by simpa using h2, by simpa using h3, ?_⟩)
    simp only [List.length_nil, Nat.zero_add] at h1
    show runCommand .deserialize deserializeBody s = _
    exact runCommand_raise_eq rfl (by
      rw [hb, h1]) rfl

/-- Every next state DESERIALIZE answers. -/
theorem exec_deserialize_cases {s t : State} (h : exec .deserialize s = .next t) :
    (∃ e info, t = s.deserializeFailed e info ∧ (e = .capacity ∨ e = .malformedTree)) ∨
    (∃ (T : HTree) (d : DeserializeLocals) (r : Nat), s.tokCount.toNat ≤ tokCap ∧ s.tokens = T.ser ∧ treeOf d.node r = some T ∧
      ArenaOk d.node d.leaves d.node.length r ∧ t = s.treeInstalled .deserialize d.node d.leaves r) := by
  rcases Nat.lt_or_ge tokCap s.tokCount.toNat with hc | hc
  · rw [exec_deserialize_capacity hc] at h
    cases h
    exact .inl ⟨_, _, rfl, .inl rfl⟩
  · rcases exec_deserialize hc with ⟨T, d, r, h1, h2, h3, _, _, he⟩ | ⟨n, _, _, he⟩ | ⟨n, _, _, _, he⟩
    · rw [he] at h; cases h
      exact .inr ⟨T, d, r, hc, h1, h2, h3, rfl⟩
    · rw [he] at h; cases h
      exact .inl ⟨_, _, rfl, .inr rfl⟩
    · rw [he] at h; cases h
      exact .inl ⟨_, _, rfl, .inr rfl⟩

/-! ### ENCODE (45_encode.md R200) -/

theorem encodeLoop_start (c : Word) (n : Nat) (s : State) (todo j : Nat) (e : EncodeLocals) :
    encodeLoop (startCommand c n s) todo j e = encodeLoop s todo j e := by
  induction todo generalizing j e with
  | zero => rfl
  | succ todo ih => simp only [encodeLoop, ih, startCommand_codeOf, startCommand_inByte, startCommand_cfg]

/-- ENCODE after an error: no payload, but the words written so far. -/
def State.encodeFailed (e : Err) (info : Quad) (m : Memory) (s : State) : State :=
  { s.failed .encode e info with bitCount := 0, payWords := 0, mem := m }

/-- ENCODE after its last byte, `e` being the locals then (R203, R206, R207). -/
def State.encodeEnded (e : EncodeLocals) (s : State) : State :=
  if e.p % 32 = 0 then
    { s.succeeded .encode with bitCount := BitVec.ofNat 64 e.p, payWords := BitVec.ofNat 32 e.w, mem := e.mem }
  else if s.cfg.payCap ≤ e.w then s.encodeFailed .capacity (s.inLen.setWidth 64) e.mem
  else
    { s.succeeded .encode with
      bitCount := BitVec.ofNat 64 e.p
      payWords := BitVec.ofNat 32 (e.w + 1)
      mem := e.mem.setPay e.w (padWord e.acc (e.p % 32) s.padBits)
      padChoices := s.padChoices.tail }

theorem exec_encode_capacity {s : State} (hv : s.flags.codesValid = true) (h : s.cfg.inCap < s.inLen.toNat) :
    exec .encode s = .next (s.encodeFailed .capacity (s.inLen.setWidth 64) s.mem) := by
  show runCommand .encode encodeBody s = _
  exact runCommand_raise_eq (by simp [missingFlag, hv]) (if_pos h) rfl

/-- ENCODE by how its loop ends. -/
theorem exec_encode {s : State} (hv : s.flags.codesValid = true) (h : s.inLen.toNat ≤ s.cfg.inCap) :
    exec .encode s =
      match encodeLoop s s.inLen.toNat 0 { mem := s.mem, acc := 0, p := 0, w := 0 } with
      | .ended e => .next (s.encodeEnded e)
      | .failed e j x => .next (s.encodeFailed e (BitVec.ofNat 64 j) x.mem)
      | .stuck f => .fault f := by
  show runCommand .encode encodeBody s = _
  have hm : missingFlag .encode s.flags = none := by simp [missingFlag, hv]
  have hb : encodeBody (startCommand (encode .encode) 0 s) =
      match encodeLoop s s.inLen.toNat 0 { mem := s.mem, acc := 0, p := 0, w := 0 } with
      | .stuck f => .stuck f
      | .failed e j x => .raise e (BitVec.ofNat 64 j)
          { startCommand (encode .encode) 0 s with bitCount := 0, payWords := 0, mem := x.mem }
      | .ended x => encodeEnd { startCommand (encode .encode) 0 s with bitCount := 0, payWords := 0 } x := by
    rw [← encodeLoop_start (encode .encode) 0 s]
    exact if_neg (Nat.not_lt.2 h)
  match hl : encodeLoop s s.inLen.toNat 0 { mem := s.mem, acc := 0, p := 0, w := 0 } with
  | .stuck f => exact absurd hl (encodeLoop_not_stuck _ _ _ _ _)
  | .failed e j x => exact runCommand_raise_eq hm (hb.trans (by rw [hl])) rfl
  | .ended e =>
    simp only
    unfold State.encodeEnded
    by_cases h1 : e.p % 32 = 0
    · rw [if_pos h1]
      exact runCommand_done_eq hm (hb.trans (by rw [hl]; simp only [encodeEnd]; rw [if_pos h1])) rfl
    · rw [if_neg h1]
      by_cases h2 : s.cfg.payCap ≤ e.w
      · rw [if_pos h2]
        exact runCommand_raise_eq hm (hb.trans (by
          rw [hl]; simp only [encodeEnd, startCommand_cfg]; rw [if_neg h1]; exact if_pos h2)) rfl
      · rw [if_neg h2]
        exact runCommand_done_eq hm (hb.trans (by
          rw [hl]; simp only [encodeEnd, startCommand_cfg]; rw [if_neg h1]; exact if_neg h2)) rfl

/-- The three ways ENCODE can go once its input fits the buffer (R205 to R208). -/
theorem exec_encode_ends {s : State} (hv : s.flags.codesValid = true) (h : s.inLen.toNat ≤ s.cfg.inCap) :
    (∃ e, (∀ b ∈ s.input, (s.codeOf b).valid = true) ∧ (s.codeBits s.input).length < 32 * (s.cfg.payCap + 1) ∧
      Packed s.mem (s.codeBits s.input) e ∧ e.w ≤ s.cfg.payCap ∧ exec .encode s = .next (s.encodeEnded e)) ∨
    (∃ n e, n < s.inLen.toNat ∧ (∀ b ∈ s.input.take n, (s.codeOf b).valid = true) ∧
      (s.codeOf (s.inByte n)).valid = false ∧ (s.codeBits (s.input.take n)).length < 32 * (s.cfg.payCap + 1) ∧
      Packed s.mem (s.codeBits (s.input.take n)) e ∧
      exec .encode s = .next (s.encodeFailed .noCode (BitVec.ofNat 64 n) e.mem)) ∨
    (∃ n e, n < s.inLen.toNat ∧ (∀ b ∈ s.input.take (n + 1), (s.codeOf b).valid = true) ∧
      (s.codeBits (s.input.take n)).length < 32 * (s.cfg.payCap + 1) ∧
      32 * (s.cfg.payCap + 1) ≤ (s.codeBits (s.input.take (n + 1))).length ∧
      Packed s.mem ((s.codeBits (s.input.take (n + 1))).take (32 * s.cfg.payCap + 31)) e ∧ e.w = s.cfg.payCap ∧
      exec .encode s = .next (s.encodeFailed .capacity (BitVec.ofNat 64 n) e.mem)) := by
  have htake : ∀ n, n ≤ s.inLen.toNat → s.input.take n = s.inputFrom 0 n := by
    intro n hn
    rw [State.input_eq, State.inputFrom, State.inputFrom, ← List.map_take]
    congr 1
    exact List.ext_getElem (by simp; omega) (fun k _ _ => by simp)
  have hall : ∀ n, n ≤ s.inLen.toNat → (∀ k, k < n → (s.codeOf (s.inByte (0 + k))).valid = true) →
      ∀ b ∈ s.input.take n, (s.codeOf b).valid = true := by
    intro n hn hk b hb
    rw [htake n hn, State.inputFrom, List.mem_map] at hb
    obtain ⟨k, hk', rfl⟩ := hb
    simp only [List.mem_range'_1, Nat.zero_add] at hk'
    simpa using hk k (by omega)
  have hspec := encodeLoop_spec s s.mem s.inLen.toNat 0 (Packed.start s.mem) (Nat.zero_le _) (by simp)
  have hex := exec_encode hv h
  generalize encodeLoop s s.inLen.toNat 0 { mem := s.mem, acc := 0, p := 0, w := 0 } = r at hspec hex
  cases hspec with
  | all e valid fits packed room =>
    rw [List.nil_append, ← State.input_eq] at fits packed
    exact .inl ⟨e, fun b hb => hall s.inLen.toNat le_rfl valid b (by
      rwa [List.take_of_length_le (by simp [State.input])]), fits, packed, room, hex⟩
  | noCode n e lt valid bad fits packed room =>
    rw [List.nil_append, ← htake n (by omega)] at fits packed
    rw [Nat.zero_add] at bad hex
    exact .inr (.inl ⟨n, e, lt, hall n (by omega) valid, bad, fits, packed, hex⟩)
  | full n e lt valid fits spill packed room =>
    rw [List.nil_append, ← htake (n + 1) (by omega)] at packed spill
    rw [List.nil_append, ← htake n (by omega)] at fits
    rw [Nat.zero_add] at hex
    exact .inr (.inr ⟨n, e, lt, hall (n + 1) (by omega) (fun k hk => valid k (by omega)), fits, spill, packed, room, hex⟩)

/-! ### DECODE (46_decode.md R215) -/

theorem decodeStep_start (c : Word) (n : Nat) (s : State) : decodeStep (startCommand c n s) = decodeStep s := rfl

theorem decodeLoop_start (c : Word) (n : Nat) (s : State) (todo i : Nat) (d : DecodeLocals) :
    decodeLoop (startCommand c n s) todo i d = decodeLoop s todo i d := by
  induction todo generalizing i d with
  | zero => rfl
  | succ todo ih => simp only [decodeLoop, ih, decodeStep_start]

/-- DECODE's registers, flags and memory, as its loop left them (R223). -/
def State.decodeResult (d : DecodeLocals) (t s : State) : State :=
  { t with
    outLen := BitVec.ofNat 32 d.outLen
    mem := d.mem
    flags := { t.flags with partialEnd := d.cur != s.root } }

theorem exec_decode_capacity {s : State} (hv : s.flags.treeValid = true) (h : s.cfg.payCap < s.payWords.toNat) :
    exec .decode s = .next { s.failed .decode .capacity (s.payWords.setWidth 64) with
      outLen := 0, flags := { (s.failed .decode .capacity 0).flags with partialEnd := false } } := by
  show runCommand .decode decodeBody s = _
  exact runCommand_raise_eq (by simp [missingFlag, hv]) (if_pos h) rfl

/-- DECODE by how its loop ends. -/
theorem exec_decode {s : State} (hv : s.flags.treeValid = true) (h : s.payWords.toNat ≤ s.cfg.payCap) :
    exec .decode s =
      match decodeLoop s s.bitsToRead 0 { mem := s.mem, outLen := 0, cur := s.root } with
      | .ended d => .next (State.decodeResult d (s.succeeded .decode) s)
      | .failed e i d => .next (State.decodeResult d (s.failed .decode e (BitVec.ofNat 64 i)) s)
      | .stuck f => .fault f := by
  show runCommand .decode decodeBody s = _
  have hm : missingFlag .decode s.flags = none := by simp [missingFlag, hv]
  have hb : decodeBody (startCommand (encode .decode) 0 s) =
      match decodeLoop s s.bitsToRead 0 { mem := s.mem, outLen := 0, cur := s.root } with
      | .stuck f => .stuck f
      | .failed e i d => .raise e (BitVec.ofNat 64 i) (State.decodeResult d (startCommand (encode .decode) 0 s) s)
      | .ended d => .done (State.decodeResult d (startCommand (encode .decode) 0 s) s) := by
    rw [← decodeLoop_start (encode .decode) 0 s]
    exact if_neg (Nat.not_lt.2 h)
  match hl : decodeLoop s s.bitsToRead 0 { mem := s.mem, outLen := 0, cur := s.root } with
  | .stuck f =>
    rw [runCommand_eq, hm]
    simp only [hb, hl, Body.finish]
  | .failed e i d => exact runCommand_raise_eq hm (hb.trans (by rw [hl])) rfl
  | .ended d => exact runCommand_done_eq hm (hb.trans (by rw [hl])) rfl

theorem State.payBits_eq (s : State) (n : Nat) : s.payBits n = (List.range' 0 n).map s.payBit := by
  rw [State.payBits, List.range_eq_range']

/-- DECODE on a tree with two leaves or more (R215 to R223): with room for every symbol, the whole decoding, followed by
the truncation error when bits are missing; else the error at the symbol that has no room. -/
theorem exec_decode_tree {s : State} {T : HTree} (hv : s.flags.treeValid = true)
    (ha : ArenaOk s.node s.leafCount.toNat s.nodeCount.toNat s.root.toNat) (ht : s.tree = some T) (hl : T.isLeaf = false)
    (hp : s.payWords.toNat ≤ s.cfg.payCap) {n : Nat} (hn : n = min s.bitCount.toNat (32 * s.payWords.toNat)) :
    ((T.decodeFrom T (s.payBits n)).1.length ≤ s.cfg.outCap ∧ ∃ d : DecodeLocals,
      d.outLen = (T.decodeFrom T (s.payBits n)).1.length ∧
      d.mem = s.mem.setOuts 0 (T.decodeFrom T (s.payBits n)).1 ∧
      (d.cur = s.root ↔ (T.decodeFrom T (s.payBits n)).2 = T) ∧
      exec .decode s = .next (State.decodeResult d
        (if s.bitCount.toNat ≤ 32 * s.payWords.toNat then s.succeeded .decode
          else s.failed .decode .truncatedData (BitVec.ofNat 64 (32 * s.payWords.toNat))) s)) ∨
    (s.cfg.outCap < (T.decodeFrom T (s.payBits n)).1.length ∧ ∃ (i : Nat) (d : DecodeLocals), i < n ∧
      (T.decodeFrom T (s.payBits i)).1.length = s.cfg.outCap ∧
      (T.decodeFrom T (s.payBits (i + 1))).1.length = s.cfg.outCap + 1 ∧
      d.outLen = s.cfg.outCap ∧ d.mem = s.mem.setOuts 0 (T.decodeFrom T (s.payBits i)).1 ∧ d.cur ≠ s.root ∧
      exec .decode s = .next (State.decodeResult d (s.failed .decode .capacity (BitVec.ofNat 64 i)) s)) := by
  have hbits : s.bitsToRead = n ∧ s.bitCount.toNat ≤ 32 * s.payWords.toNat ∨
      s.bitsToRead = n + 1 ∧ n = 32 * s.payWords.toNat ∧ ¬ s.bitCount.toNat ≤ 32 * s.payWords.toNat := by
    unfold State.bitsToRead; omega
  have hroot : Cursor s T s.root T := ⟨ht, .inl ⟨rfl, rfl⟩, hl⟩
  have key := decodeLoop_spec ha.nodes hroot n 0 (by omega)
    (d := { mem := s.mem, outLen := 0, cur := s.root }) hroot (Nat.zero_le _)
  simp only [← State.payBits_eq, Nat.zero_add] at key
  have hex := exec_decode hv hp
  rcases key with ⟨hle, d, h1, h2, h3, h4⟩ | ⟨hlt, i, d, h0, h1, h2, h3, h4, h5, h6⟩
  · refine .inl ⟨hle, d, h2, h3, h4.atRoot, ?_⟩
    rcases hbits with ⟨hb, hc⟩ | ⟨hb, hc, hd⟩
    · rw [hex, hb, h1, if_pos hc]
    · rw [hex, hb, decodeLoop_add, h1, if_neg hd]
      simp only [decodeLoop, Nat.zero_add]
      rw [decodeStep_truncated _ _ _ (by omega), hc]
  · refine .inr ⟨hlt, i, d, h0, h2, h3, h4, h5, h6, ?_⟩
    rcases hbits with ⟨hb, _⟩ | ⟨hb, _, _⟩
    · rw [hex, hb, h1]
    · rw [hex, hb, decodeLoop_add, h1]

/-- DECODE on a single leaf (R219 to R221). -/
theorem exec_decode_leaf {s : State} {sym : Byte} {w : Word} (hv : s.flags.treeValid = true)
    (hx : s.node[s.root.toNat]? = some (.leaf sym w)) (hp : s.payWords.toNat ≤ s.cfg.payCap) :
    exec .decode s = .next (State.decodeResult { mem := s.mem, outLen := 0, cur := s.root }
      (if s.bitCount = 0 then s.succeeded .decode
        else if s.payWords = 0 then s.failed .decode .truncatedData 0 else s.failed .decode .invalidPath 0) s) := by
  rw [exec_decode hv hp]
  by_cases hb : s.bitCount = 0
  · rw [if_pos hb, show s.bitsToRead = 0 by simp [State.bitsToRead, hb]]
    rfl
  · have hpos : 1 ≤ s.bitCount.toNat := by
      rcases Nat.eq_zero_or_pos s.bitCount.toNat with h | h
      · exact absurd (BitVec.eq_of_toNat_eq (by simpa using h)) hb
      · exact h
    obtain ⟨m, hm⟩ : ∃ m, s.bitsToRead = m + 1 := ⟨s.bitsToRead - 1, by unfold State.bitsToRead; omega⟩
    rw [if_neg hb, hm]
    by_cases hw : s.payWords = 0
    · rw [if_pos hw]
      simp only [decodeLoop]
      rw [decodeStep_truncated _ _ _ (by rw [hw]; simp)]
      rfl
    · have hpw : 1 ≤ s.payWords.toNat := by
        rcases Nat.eq_zero_or_pos s.payWords.toNat with h | h
        · exact absurd (BitVec.eq_of_toNat_eq (by simpa using h)) hw
        · exact h
      rw [if_neg hw]
      simp only [decodeLoop]
      rw [decodeStep_leaf (by omega) hx]
      rfl

/-- What a DECODE leaves outside the bytes it emitted. -/
theorem State.decodeResult_byteAt {d : DecodeLocals} {s t : State} {bs : List Byte} (hm : d.mem = s.mem.setOuts 0 bs)
    (hp : t.powerCycle = s.powerCycle) {a : Nat} (ha : a < outBase ∨ outBase + bs.length ≤ a) :
    (State.decodeResult d t s).byteAt a = s.byteAt a := by
  refine State.byteAt_congr a ?_ hp
  show d.mem.get a = _
  rw [hm, Memory.get_setOuts, if_neg (by omega)]

/-- The output of a DECODE is the bytes it emitted. -/
theorem State.decodeResult_output {d : DecodeLocals} {s : State} (t : State) {bs : List Byte}
    (hm : d.mem = s.mem.setOuts 0 bs) (hl : d.outLen = bs.length) (hsmall : bs.length < 2 ^ 32) :
    (State.decodeResult d t s).output = bs := by
  refine State.output_of_setOuts (m := s.mem) ?_ hm
  show (BitVec.ofNat 32 d.outLen).toNat = _
  rw [hl, BitVec.toNat_ofNat, Nat.mod_eq_of_lt hsmall]

/-- The root of a single-leaf tree is a leaf. -/
theorem State.root_of_leaf {s : State} {T : HTree} (ht : s.tree = some T) (hl : T.isLeaf = true) :
    ∃ sym w, s.node[s.root.toNat]? = some (.leaf sym w) ∧ T = .leaf sym := by
  unfold State.tree treeOf at ht
  cases hn : s.node.length with
  | zero => rw [hn] at ht; simp [treeFrom] at ht
  | succ n =>
    rw [hn] at ht
    rcases treeFrom_cases ht with ⟨sym, w, h1, h2⟩ | ⟨w, l, r, a, b, _, _, _, rfl⟩
    · exact ⟨sym, w, h1, h2⟩
    · simp [HTree.isLeaf] at hl

/-- The root of a tree with two leaves or more is internal. -/
theorem State.root_of_node {s : State} {T : HTree} (ht : s.tree = some T) (hl : T.isLeaf = false) :
    ∃ w l r, s.node[s.root.toNat]? = some (.internal w l r) := by
  unfold State.tree treeOf at ht
  cases hn : s.node.length with
  | zero => rw [hn] at ht; simp [treeFrom] at ht
  | succ n =>
    rw [hn] at ht
    rcases treeFrom_cases ht with ⟨sym, w, h1, rfl⟩ | ⟨w, l, r, a, b, h, _, _, rfl⟩
    · simp [HTree.isLeaf] at hl
    · exact ⟨w, l, r, h⟩

/-- The first payload bits, cut in two. -/
theorem State.payBits_split (s : State) {i n : Nat} (h : i ≤ n) :
    s.payBits n = s.payBits i ++ (List.range' i (n - i)).map s.payBit := by
  rw [State.payBits_eq, State.payBits_eq, ← List.map_append]
  congr 1
  conv_lhs => rw [show n = i + (n - i) by omega]
  have := @List.range'_append_1 0 i (n - i)
  rw [Nat.zero_add] at this
  exact this.symm

/-- More bits emit at least as many bytes. -/
theorem State.emitted_mono (s : State) (T : HTree) {a b : Nat} (h : a ≤ b) :
    (T.decodeFrom T (s.payBits a)).1.length ≤ (T.decodeFrom T (s.payBits b)).1.length := by
  rw [s.payBits_split h, HTree.decodeFrom_append, List.length_append]
  omega

end Sys2Proof.Machine
end

