-- ==== Sys2Proof/Laws/Entropy.lean ====
section
/-! SUPPORT. The entropy of a list of counts (41_frequency.md R141) against the mean length of a code for them
(70_reset_and_hazards.md R298): what the bounds need of the reals. -/

namespace Sys2Proof.Machine

/-- Kraft's inequality may be read over the reals. -/
theorem kraft_cast (S : Finset Nat) (l : Nat → Nat) :
    ∑ x ∈ S, (1 / 2 : ℚ) ^ l x ≤ 1 ↔ ∑ x ∈ S, (1 / 2 : ℝ) ^ l x ≤ 1 := by
  rw [← Rat.cast_le (K := ℝ), Rat.cast_sum]
  simp only [Rat.cast_pow, Rat.cast_div, Rat.cast_one, Rat.cast_ofNat]

/-- Shannon's bound: no lengths that Kraft's inequality allows have a mean below the entropy. -/
theorem entropy_le_cost {S : Finset Nat} (c l : Nat → Nat) (hpos : ∀ x ∈ S, 0 < c x) {T : Nat} (hT : ∑ x ∈ S, c x = T) (hT0 : 0 < T)
    (kraft : ∑ x ∈ S, (1 / 2 : ℚ) ^ l x ≤ 1) :
    -∑ x ∈ S, ((c x : ℝ) / T) * Real.logb 2 (c x / T) ≤ ((∑ x ∈ S, c x * l x : Nat) : ℝ) / T := by
  have hTr : (0 : ℝ) < T := by exact_mod_cast hT0
  have hln : (0 : ℝ) < Real.log 2 := Real.log_pos (by norm_num)
  have hk : ∑ x ∈ S, (1 / 2 : ℝ) ^ l x ≤ 1 := (kraft_cast S l).1 kraft
  have hp : ∑ x ∈ S, (c x : ℝ) / T = 1 := by
    rw [← Finset.sum_div, ← Nat.cast_sum, hT]; exact div_self hTr.ne'
  have key : ∀ x ∈ S, -((c x : ℝ) / T * Real.logb 2 (c x / T)) ≤ (c x : ℝ) * l x / T + ((1 / 2 : ℝ) ^ l x - c x / T) / Real.log 2 := by
    intro x hx
    have hc : (0 : ℝ) < c x := by exact_mod_cast hpos x hx
    have hq : (0 : ℝ) < c x / T := div_pos hc hTr
    have h1 := Real.log_le_sub_one_of_pos (show (0 : ℝ) < (1 / 2) ^ l x / (c x / T) by positivity)
    rw [Real.log_div (by positivity) hq.ne', Real.log_pow, one_div, Real.log_inv] at h1
    have h2 := mul_le_mul_of_nonneg_left h1 hq.le
    rw [mul_sub ((c x : ℝ) / T) _ 1, mul_div_cancel₀ _ hq.ne', mul_one, ← one_div] at h2
    rw [Real.logb, ← sub_le_iff_le_add', le_div_iff₀ hln]
    have e : (-((c x : ℝ) / T * (Real.log (c x / T) / Real.log 2)) - c x * l x / T) * Real.log 2 =
        c x / T * (l x * -Real.log 2 - Real.log (c x / T)) := by
      field_simp
      ring
    rw [e]; exact h2
  rw [← Finset.sum_neg_distrib]
  refine (Finset.sum_le_sum key).trans ?_
  rw [Finset.sum_add_distrib, ← Finset.sum_div, ← Finset.sum_div, Finset.sum_sub_distrib, hp]
  push_cast
  have : (∑ x ∈ S, (1 / 2 : ℝ) ^ l x - 1) / Real.log 2 ≤ 0 := div_nonpos_of_nonpos_of_nonneg (by linarith) hln.le
  linarith

/-- Some lengths that Kraft's inequality allows have a mean within one bit of the entropy. -/
theorem exists_lengths_near_entropy {S : Finset Nat} (c : Nat → Nat) (hpos : ∀ x ∈ S, 0 < c x) {T : Nat} (hT : ∑ x ∈ S, c x = T)
    (hT0 : 0 < T) :
    ∃ l : Nat → Nat, ∑ x ∈ S, (1 / 2 : ℚ) ^ l x ≤ 1 ∧
      ((∑ x ∈ S, c x * l x : Nat) : ℝ) / T < -∑ x ∈ S, ((c x : ℝ) / T) * Real.logb 2 (c x / T) + 1 := by
  have hTr : (0 : ℝ) < T := by exact_mod_cast hT0
  have hp : ∑ x ∈ S, (c x : ℝ) / T = 1 := by
    rw [← Finset.sum_div, ← Nat.cast_sum, hT]; exact div_self hTr.ne'
  have hne : S.Nonempty := by
    by_contra h
    rw [Finset.not_nonempty_iff_eq_empty] at h
    rw [h] at hp; simp at hp
  refine ⟨fun x => ⌈-Real.logb 2 (c x / T)⌉₊, ?_, ?_⟩
  · have : ∑ x ∈ S, (1 / 2 : ℝ) ^ ⌈-Real.logb 2 (c x / T)⌉₊ ≤ 1 := by
      refine (Finset.sum_le_sum fun x hx => ?_).trans hp.le
      have hq : (0 : ℝ) < c x / T := div_pos (by exact_mod_cast hpos x hx) hTr
      rw [← Real.rpow_natCast, one_div, Real.inv_rpow (by norm_num), ← Real.rpow_neg (by norm_num)]
      calc (2 : ℝ) ^ (-(⌈-Real.logb 2 (c x / T)⌉₊ : ℝ)) ≤ 2 ^ (Real.logb 2 (c x / T)) :=
            Real.rpow_le_rpow_of_exponent_le (by norm_num) (by have := Nat.le_ceil (-Real.logb 2 ((c x : ℝ) / T)); linarith)
        _ = c x / T := Real.rpow_logb (by norm_num) (by norm_num) hq
    exact (kraft_cast S _).2 this
  · have key : ∀ x ∈ S, (c x : ℝ) * ⌈-Real.logb 2 (c x / T)⌉₊ / T < -((c x : ℝ) / T * Real.logb 2 (c x / T)) + c x / T := by
      intro x hx
      have hc : (0 : ℝ) < c x := by exact_mod_cast hpos x hx
      have hq : (0 : ℝ) < c x / T := div_pos hc hTr
      have hle : (c x : ℝ) / T ≤ 1 := by
        rw [div_le_one hTr, ← hT]
        exact_mod_cast Finset.single_le_sum (f := c) (fun _ _ => Nat.zero_le _) hx
      have h0 : 0 ≤ -Real.logb 2 (c x / T) := by
        have := Real.logb_nonpos (b := 2) (by norm_num) hq.le hle
        linarith
      have h1 := Nat.ceil_lt_add_one h0
      have h2 := mul_lt_mul_of_pos_left h1 hq
      calc (c x : ℝ) * ⌈-Real.logb 2 (c x / T)⌉₊ / T = c x / T * ⌈-Real.logb 2 (c x / T)⌉₊ := by ring
        _ < c x / T * (-Real.logb 2 (c x / T) + 1) := h2
        _ = _ := by ring
    have := Finset.sum_lt_sum_of_nonempty hne key
    rw [Finset.sum_add_distrib, hp, ← Finset.sum_div, Finset.sum_neg_distrib] at this
    push_cast
    exact this

end Sys2Proof.Machine
end

