-- ==== Sys2Proof/Laws/Frames.lean ====
section
/-! SUPPORT. What a command leaves alone in the memory, whatever its outcome (40_command_dispatch.md R129), on any state. -/

namespace Sys2Proof.Machine

/-- The window of the one buffer a command may store to: none for the commands that store to no buffer (R129). -/
def storeWindow (cfg : Config) : Instr → Nat × Nat
  | .serialize => (tokBase, 2 * tokCap)
  | .encode => (payBase, 4 * cfg.payCap)
  | .decode => (outBase, cfg.outCap)
  | .nop | .freq | .build | .gencodes | .deserialize | .reset => (0, 0)

/-- `t`'s memory differs from `s`'s in one window only. -/
structure StoresWithin (s t : State) (base size : Nat) : Prop where
  cfg : t.cfg = s.cfg
  cycle : t.powerCycle = s.powerCycle
  wf : s.mem.wf → t.mem.wf
  get : ∀ a, a < base ∨ base + size ≤ a → t.mem.get a = s.mem.get a

theorem StoresWithin.of_eq {s t : State} (base size : Nat) (hc : t.cfg = s.cfg) (hp : t.powerCycle = s.powerCycle)
    (hm : t.mem = s.mem) : StoresWithin s t base size := ⟨hc, hp, fun h => hm ▸ h, fun _ _ => by rw [hm]⟩

/-- A byte outside the window reads as before. -/
theorem StoresWithin.byteAt {s t : State} {base size : Nat} (h : StoresWithin s t base size) {a : Nat}
    (ha : a < base ∨ base + size ≤ a) : t.byteAt a = s.byteAt a := State.byteAt_congr a (h.get a ha) h.cycle

/-- The end states of ENCODE, on any state. -/
theorem exec_encode_cases {s t : State} (h : exec .encode s = .next t) :
    (s.flags.codesValid = false ∧ t = s.failed .encode .sequence 5) ∨
    (s.flags.codesValid = true ∧ ∃ bits e, Packed s.mem bits e ∧ e.w ≤ s.cfg.payCap ∧
      (t = s.encodeEnded e ∨ ∃ x info, t = s.encodeFailed x info e.mem)) := by
  rcases Bool.eq_false_or_eq_true s.flags.codesValid with hv | hv
  · refine .inr ⟨hv, ?_⟩
    rcases Nat.lt_or_ge s.cfg.inCap s.inLen.toNat with hl | hl
    · rw [exec_encode_capacity hv hl] at h
      cases h
      exact ⟨[], _, Packed.start s.mem, Nat.zero_le _, .inr ⟨_, _, rfl⟩⟩
    · rcases exec_encode_ends hv hl with ⟨e, _, _, hp, hw, he⟩ | ⟨n, e, _, _, _, hs, hp, he⟩ | ⟨n, e, _, _, _, _, hp, hw, he⟩
      · rw [he] at h; cases h
        exact ⟨_, e, hp, hw, .inl rfl⟩
      · rw [he] at h; cases h
        exact ⟨_, e, hp, by rw [hp.w]; omega, .inr ⟨_, _, rfl⟩⟩
      · rw [he] at h; cases h
        exact ⟨_, e, hp, hw.le, .inr ⟨_, _, rfl⟩⟩
  · rw [show exec .encode s = runCommand .encode encodeBody s from rfl,
      runCommand_missing (b := 5) _ (by simp [missingFlag, hv])] at h
    cases h
    exact .inl ⟨hv, rfl⟩

/-- The end states of DECODE, on any state: a failure before its loop, or what the loop left. -/
theorem exec_decode_cases {s t : State} (h : exec .decode s = .next t) :
    (s.flags.treeValid = false ∧ t = s.failed .decode .sequence 4) ∨
    (s.flags.treeValid = true ∧ ∃ d u, t = State.decodeResult d u s ∧
      (u = s.succeeded .decode ∨ ∃ x info, u = s.failed .decode x info) ∧ d.outLen ≤ s.cfg.outCap ∧
      (s.mem.wf → d.mem.wf) ∧ ∀ a, a < outBase ∨ outBase + s.cfg.outCap ≤ a → d.mem.get a = s.mem.get a) := by
  rcases Bool.eq_false_or_eq_true s.flags.treeValid with hv | hv
  · refine .inr ⟨hv, ?_⟩
    rcases Nat.lt_or_ge s.cfg.payCap s.payWords.toNat with hl | hl
    · rw [exec_decode_capacity hv hl] at h
      cases h
      refine ⟨{ mem := s.mem, outLen := 0, cur := s.root }, s.failed .decode .capacity (s.payWords.setWidth 64), ?_,
        .inr ⟨_, _, rfl⟩, Nat.zero_le _, id, fun _ _ => rfl⟩
      simp [State.decodeResult, State.failed]
    · have key := decodeLoop_all (s := s) (P := fun d => d.outLen ≤ s.cfg.outCap ∧ (s.mem.wf → d.mem.wf) ∧
          ∀ a, a < outBase ∨ outBase + s.cfg.outCap ≤ a → d.mem.get a = s.mem.get a) (fun _ _ h => h)
        (fun d sym h hlt => ⟨hlt, fun hm => Memory.wf_setOut (h.2.1 hm) _ _, fun a ha => by
          rw [Memory.get_setOut, if_neg (by omega), h.2.2 a ha]⟩)
        s.bitsToRead 0 { mem := s.mem, outLen := 0, cur := s.root } ⟨Nat.zero_le _, id, fun _ _ => rfl⟩
      rw [exec_decode hv hl] at h
      split at h
      · rename_i d hd
        rw [hd] at key; cases h
        exact ⟨d, _, rfl, .inl rfl, key⟩
      · rename_i x i d hd
        rw [hd] at key; cases h
        exact ⟨d, _, rfl, .inr ⟨_, _, rfl⟩, key⟩
      · cases h
  · rw [show exec .decode s = runCommand .decode decodeBody s from rfl,
      runCommand_missing (b := 4) _ (by simp [missingFlag, hv])] at h
    cases h
    exact .inl ⟨hv, rfl⟩

/-- Every command stores within its window. -/
theorem exec_storesWithin {i : Instr} {s t : State} (h : exec i s = .next t) :
    StoresWithin s t (storeWindow s.cfg i).1 (storeWindow s.cfg i).2 := by
  cases i with
  | nop => cases h; exact .of_eq _ _ rfl rfl rfl
  | freq =>
    rw [exec_freq] at h
    cases h
    split
    · exact .of_eq _ _ rfl rfl rfl
    · split <;> exact .of_eq _ _ rfl rfl rfl
  | build =>
    rcases exec_build_cases h with ⟨_, rfl⟩ | ⟨_, _, _, _, rfl⟩ <;> exact .of_eq _ _ rfl rfl rfl
  | gencodes =>
    rcases exec_gencodes_cases h with ⟨_, rfl⟩ | ⟨_, _, _, _, rfl⟩ | ⟨_, _, _, _, _, _, _, rfl⟩ <;> exact .of_eq _ _ rfl rfl rfl
  | serialize =>
    rcases exec_serialize_cases h with ⟨_, rfl⟩ | ⟨_, T, _, rfl⟩
    · exact .of_eq _ _ rfl rfl rfl
    · refine ⟨rfl, rfl, fun hm => Memory.wf_setTokens hm _ _, fun a ha => Memory.get_setTokens_outside _ _ _ _ ?_⟩
      simp only [storeWindow] at ha
      omega
  | deserialize =>
    rcases exec_deserialize_cases h with ⟨_, _, rfl, _⟩ | ⟨_, _, _, _, _, _, _, rfl⟩ <;> exact .of_eq _ _ rfl rfl rfl
  | encode =>
    rcases exec_encode_cases h with ⟨_, rfl⟩ | ⟨_, bits, e, hp, hw, rfl | ⟨x, info, rfl⟩⟩
    · exact .of_eq _ _ rfl rfl rfl
    · unfold State.encodeEnded
      split
      · refine ⟨rfl, rfl, hp.wf, fun a ha => ?_⟩
        simp only [storeWindow] at ha
        simp only [hp.mem, if_neg (show ¬ (payBase ≤ a ∧ a < payBase + 4 * e.w) by omega)]
      · split
        · refine ⟨rfl, rfl, hp.wf, fun a ha => ?_⟩
          simp only [storeWindow] at ha
          show e.mem.get a = _
          rw [hp.mem, if_neg (by omega)]
        · refine ⟨rfl, rfl, fun hm => Memory.wf_setPay (hp.wf hm) _ _, fun a ha => ?_⟩
          simp only [storeWindow] at ha
          show (e.mem.setPay _ _).get a = _
          rw [Memory.get_setPay, if_neg (by omega), hp.mem, if_neg (by omega)]
    · refine ⟨rfl, rfl, hp.wf, fun a ha => ?_⟩
      simp only [storeWindow] at ha
      show e.mem.get a = _
      rw [hp.mem, if_neg (by omega)]
  | decode =>
    rcases exec_decode_cases h with ⟨_, rfl⟩ | ⟨_, d, u, rfl, hu, _, hm, ha⟩
    · exact .of_eq _ _ rfl rfl rfl
    · rcases hu with rfl | ⟨_, _, rfl⟩ <;> exact ⟨rfl, rfl, hm, ha⟩
  | reset => cases h; exact .of_eq _ _ rfl rfl rfl

/-- The memory of a command's end state lists nothing outside the four buffers, if it did not before. -/
theorem StoresWithin.storage {s t : State} {i : Instr}
    (h : StoresWithin s t (storeWindow s.cfg i).1 (storeWindow s.cfg i).2)
    (hs : ∀ a, (s.mem.get a).isSome = true → inStorage s.cfg a = true) :
    ∀ a, (t.mem.get a).isSome = true → inStorage t.cfg a = true := by
  intro a ha
  rw [h.cfg]
  by_cases hw : a < (storeWindow s.cfg i).1 ∨ (storeWindow s.cfg i).1 + (storeWindow s.cfg i).2 ≤ a
  · rw [h.get a hw] at ha
    exact hs a ha
  · have : inWindow a (storeWindow s.cfg i).1 (storeWindow s.cfg i).2 = true := by
      rw [inWindow_iff]; omega
    unfold inStorage
    cases i <;> simp only [storeWindow] at this <;> simp [this] <;> simp [inWindow] at this

end Sys2Proof.Machine
end

