-- ==== Sys2Proof/Laws/Port.lean ====
section
/-! SUPPORT. The address map: which place an address is (20_memory.md R61), and what a write of a place leaves alone. -/

namespace Sys2Proof.Machine

/-! ### The parameters -/

theorem Config.wf_iff (c : Config) : c.wf = true ↔
    (c.inCap % 4 = 0 ∧ 4 ≤ c.inCap ∧ c.inCap ≤ 2 ^ 20) ∧ (c.outCap % 4 = 0 ∧ 4 ≤ c.outCap ∧ c.outCap ≤ 2 ^ 20) ∧
      1 ≤ c.payCap ∧ c.payCap ≤ 2 ^ 20 := by
  simp only [Config.wf, byteCapOk, wordCapOk, Bool.and_eq_true, beq_iff_eq, decide_eq_true_eq]
  rw [show capLimit = 2 ^ 20 from rfl]
  tauto

/-! ### Where an address is -/

theorem isSome_getElem? {α : Type} (l : List α) (k : Nat) : (l[k]?).isSome = true ↔ k < l.length := by
  simp

/-- An address has a place exactly when R63 lets it complete. -/
theorem locate_isSome (cfg : Config) (a : Nat) :
    (locate cfg a).isSome = true ↔ a % 4 = 0 ∧ a < 2 ^ 23 ∧ mapped cfg a := by
  have key : ∀ (P : Prop) [Decidable P] (x : Place) (y : Option Place),
      (if P then some x else y).isSome = true ↔ P ∨ y.isSome = true := by
    intro P _ x y; split <;> simp_all
  unfold locate mapped
  by_cases h : a % 4 ≠ 0 ∨ 2 ^ 23 ≤ a
  · rw [if_pos h]
    simp only [Option.isSome_none, Bool.false_eq_true, false_iff]
    omega
  · rw [if_neg h]
    have hreg : (regTable[a / 4]?).isSome = true ↔ a < 0x44 := by
      rw [isSome_getElem?, show regTable.length = 17 from rfl]; omega
    by_cases h1 : a < 0x1000
    · rw [if_pos h1, Option.isSome_map, hreg]; omega
    · rw [if_neg h1]
      simp only [key, inWindow, Bool.and_eq_true, decide_eq_true_eq, Option.isSome_none, Bool.false_eq_true, or_false]
      simp only [tokBase, inBase, outBase, payBase]
      constructor
      · intro h2; exact ⟨by omega, by omega, by omega⟩
      · rintro ⟨_, _, h2⟩; omega

/-! An address in a window of R61 is located there, and no two windows share an address. -/

theorem locate_count (cfg : Config) {k : Nat} (h : k < 256) : locate cfg (0x001000 + 4 * k) = some (.count k) := by
  unfold locate inWindow
  simp only [Bool.and_eq_true, decide_eq_true_eq]
  simp (disch := omega) only [if_neg, if_pos]
  congr 2; omega

theorem locate_node (cfg : Config) {k w : Nat} (h : k < 512) (hw : w < 2) :
    locate cfg (0x002000 + 8 * k + 4 * w) = some (.node k w) := by
  unfold locate inWindow
  simp only [Bool.and_eq_true, decide_eq_true_eq]
  simp (disch := omega) only [if_neg, if_pos]
  congr 2 <;> omega

theorem locate_code (cfg : Config) {k m : Nat} (h : k < 256) (hm : m < 16) :
    locate cfg (0x004000 + 64 * k + 4 * m) = some (.code k m) := by
  unfold locate inWindow
  simp only [Bool.and_eq_true, decide_eq_true_eq]
  simp (disch := omega) only [if_neg, if_pos]
  congr 2 <;> omega

theorem locate_tok (cfg : Config) {k : Nat} (h : k < 256) : locate cfg (tokBase + 4 * k) = some (.tok k) := by
  unfold locate inWindow tokBase
  simp only [Bool.and_eq_true, decide_eq_true_eq]
  simp (disch := omega) only [if_neg, if_pos]
  congr 2; omega

theorem locate_inBuf {cfg : Config} (wf : cfg.wf = true) {k : Nat} (h : 4 * k + 3 < cfg.inCap) :
    locate cfg (inBase + 4 * k) = some (.inBuf k) := by
  have := (Config.wf_iff cfg).1 wf
  unfold locate inWindow tokBase inBase
  simp only [Bool.and_eq_true, decide_eq_true_eq]
  simp (disch := omega) only [if_neg, if_pos]
  congr 2; omega

theorem locate_outBuf {cfg : Config} (wf : cfg.wf = true) {k : Nat} (h : 4 * k + 3 < cfg.outCap) :
    locate cfg (outBase + 4 * k) = some (.outBuf k) := by
  have := (Config.wf_iff cfg).1 wf
  unfold locate inWindow tokBase inBase outBase
  simp only [Bool.and_eq_true, decide_eq_true_eq]
  simp (disch := omega) only [if_neg, if_pos]
  congr 2; omega

theorem locate_pay {cfg : Config} (wf : cfg.wf = true) {w : Nat} (h : w < cfg.payCap) :
    locate cfg (payBase + 4 * w) = some (.pay w) := by
  have := (Config.wf_iff cfg).1 wf
  unfold locate inWindow tokBase inBase outBase payBase
  simp only [Bool.and_eq_true, decide_eq_true_eq]
  simp (disch := omega) only [if_neg, if_pos]
  congr 2; omega

/-- What an address being a place says of the place's indices. -/
theorem locate_cases {cfg : Config} {a : Nat} {p : Place} (h : locate cfg a = some p) :
    match p with
    | .reg r => regTable[a / 4]? = some r ∧ a % 4 = 0
    | .count sym => sym < 256
    | .node k w => k < 512 ∧ w < 2
    | .code sym m => sym < 256 ∧ m < 16
    | .tok k => k < 256
    | .inBuf k => 4 * k < cfg.inCap
    | .outBuf k => 4 * k < cfg.outCap
    | .pay w => w < cfg.payCap := by
  unfold locate inWindow tokBase inBase outBase payBase at h
  simp only [Bool.and_eq_true, decide_eq_true_eq] at h
  split_ifs at h with _ hreg
  case pos =>
    obtain ⟨r, hr, rfl⟩ := Option.map_eq_some_iff.1 h
    exact ⟨hr, by omega⟩
  all_goals cases h; simp only; omega

/-- Only address 0 is `CMD` (R21, R72). -/
theorem locate_cmd {cfg : Config} {a : Nat} (h : locate cfg a = some (.reg .cmd)) : a = 0 := by
  obtain ⟨h1, h2⟩ := locate_cases h
  have hlt : a / 4 < 17 := by
    have := (isSome_getElem? regTable (a / 4)).1 (by rw [h1]; rfl)
    exact this
  have hz : ∀ n, n < 17 → regTable[n]? = some .cmd → n = 0 := by decide
  have := hz _ hlt h1
  omega

/-! ### The halves of a 64-bit register (R21) -/

theorem withLo_getLsbD (q : Quad) (v : Word) (i : Nat) :
    (withLo q v).getLsbD i = if i < 32 then v.getLsbD i else q.getLsbD i := by
  unfold withLo
  rw [BitVec.getLsbD_append, BitVec.getLsbD_extractLsb']
  split
  · rfl
  · by_cases h : i < 64
    · simp [show i - 32 < 32 by omega, show 32 + (i - 32) = i by omega]
    · rw [BitVec.getLsbD_of_ge q i (by omega)]; simp; omega

theorem withHi_getLsbD (q : Quad) (v : Word) (i : Nat) :
    (withHi q v).getLsbD i = if i < 32 then q.getLsbD i else v.getLsbD (i - 32) := by
  unfold withHi
  rw [BitVec.getLsbD_append, BitVec.getLsbD_extractLsb']
  split
  · next h => simp [h]
  · rfl

@[simp] theorem withLo_withLo (q : Quad) (v w : Word) : withLo (withLo q v) w = withLo q w := by
  refine BitVec.eq_of_getLsbD_eq fun i _ => ?_
  simp only [withLo_getLsbD]
  split <;> rfl

@[simp] theorem withHi_withHi (q : Quad) (v w : Word) : withHi (withHi q v) w = withHi q w := by
  refine BitVec.eq_of_getLsbD_eq fun i _ => ?_
  simp only [withHi_getLsbD]
  split <;> rfl

/-- A 64-bit register written as two words holds them. -/
theorem withHi_withLo (q r : Quad) : withHi (withLo q (r.extractLsb' 0 32)) (r.extractLsb' 32 32) = r := by
  refine BitVec.eq_of_getLsbD_eq fun i hi => ?_
  simp only [withHi_getLsbD, withLo_getLsbD, BitVec.getLsbD_extractLsb']
  split
  · next h => simp [h]
  · simp [show i - 32 < 32 by omega, show 32 + (i - 32) = i by omega]

end Sys2Proof.Machine
end

