-- ==== Sys2Proof/Laws/Invariant.lean ====
section
/-! SUPPORT. `State.Inv` under the operations of the machine, one lemma for each; what every completion does; runs. -/

namespace Sys2Proof.Machine

/-- `ERRCODE` after an error is 1 to 9 (R246). -/
theorem Err.code_range (e : Err) : e.code ≠ 0 ∧ e.code ≤ 9 := by cases e <;> decide

/-- Recording an error keeps the invariant (R126). -/
theorem State.Inv.failed {s : State} (h : s.Inv) (i : Instr) (e : Err) (info : Quad) : (s.failed i e info).Inv where
  params := h.params
  memory := h.memory
  storage := h.storage
  busy := by intro c l hh; simp [State.failed] at hh
  errFlag := iff_of_true (Err.code_range e).1 rfl
  errRange := (Err.code_range e).2
  errInfo := fun hh => absurd hh (Err.code_range e).1
  outBound := h.outBound
  counts := h.counts
  noCounts := h.noCounts
  arena := h.arena
  noArena := h.noArena
  codes := h.codes
  noCodes := h.noCodes

/-- A success that writes nothing else keeps the invariant (R125). -/
theorem State.Inv.succeeded {s : State} (h : s.Inv) (i : Instr) : (s.succeeded i).Inv where
  params := h.params
  memory := h.memory
  storage := h.storage
  busy := by intro c l hh; simp [State.succeeded] at hh
  errFlag := by simp [State.succeeded]
  errRange := by simp [State.succeeded]
  errInfo := by simp [State.succeeded]
  outBound := h.outBound
  counts := h.counts
  noCounts := h.noCounts
  arena := h.arena
  noArena := h.noArena
  codes := h.codes
  noCodes := h.noCodes

/-- Every command keeps the invariant. -/
theorem State.Inv.exec {i : Instr} {s t : State} (h : s.Inv) (he : exec i s = .next t) : t.Inv := by
  have hw := exec_storesWithin he
  have hm := hw.wf h.memory
  have hs := hw.storage h.storage
  have hwf := (Config.wf_iff _).1 h.params
  cases i with
  | nop => cases he; exact h.succeeded .nop
  | freq =>
    rw [exec_freq] at he
    cases he
    split
    · exact { h.failed .freq .capacity (s.inLen.setWidth 64) with counts := (by intro hh; simp [State.freqFailed] at hh), noCounts := fun _ => ⟨rfl, rfl⟩ }
    · split
      · exact { h.failed .freq .emptyInput 0 with counts := (by intro hh; simp [State.freqFailed] at hh), noCounts := fun _ => ⟨rfl, rfl⟩ }
      · rename_i h1 h2
        have hb : s.inLen.toNat ≠ 0 := fun hh => h2 (BitVec.eq_of_toNat_eq (by simpa using hh))
        exact { h.succeeded .freq with
          counts := fun _ => ⟨countBytes_length _, by
            rw [countBytes_sum _ (by rw [State.input_length]; exact s.inLen.isLt), State.input_length], by show 1 ≤ s.inLen.toNat; omega, by show s.inLen.toNat ≤ _; exact Nat.not_lt.1 h1⟩
          noCounts := (by intro hh; simp at hh) }
  | build =>
    rcases exec_build_cases he with ⟨_, rfl⟩ | ⟨hv, _⟩
    · exact h.failed _ _ _
    · obtain ⟨node, r, he2, _, ha, _⟩ := exec_build hv (leavesOf_ne_nil (h.counts hv))
      rw [he2] at he; cases he
      obtain ⟨e1, e2, e3⟩ := treeInstalled_arena (i := .build) (s := s) ha
      exact { h.succeeded .build with
        arena := fun _ => by rw [e1, e2, e3]; exact ha
        noArena := fun hh => by simp [State.treeInstalled] at hh
        codes := fun hh => by simp [State.treeInstalled] at hh
        noCodes := fun _ => rfl }
  | gencodes =>
    rcases exec_gencodes_cases he with ⟨_, rfl⟩ | ⟨_, sym, w, _, rfl⟩ | ⟨hv, code, w, l, r, hx, hc, rfl⟩
    · exact h.failed _ _ _
    · exact { h.failed .gencodes _ _ with codes := fun hh => by simp at hh, noCodes := fun _ => rfl }
    · refine { h.succeeded .gencodes with codes := fun _ => ⟨hv, hc, ?_⟩, noCodes := fun hh => by simp at hh }
      have ha := h.arena hv
      have hl := ha.twice; have hr := ha.rootLast; have hsz := ha.size
      have h0 := ha.nodes s.root.toNat (by omega)
      rw [nodeOk, hx] at h0
      simp at h0
      show 2 ≤ s.leafCount.toNat
      omega
  | serialize =>
    rcases exec_serialize_cases he with ⟨_, rfl⟩ | ⟨_, T, _, rfl⟩
    · exact h.failed _ _ _
    · exact { h.succeeded .serialize with memory := hm, storage := hs }
  | deserialize =>
    rcases exec_deserialize_cases he with ⟨_, _, rfl, _⟩ | ⟨T, d, r, hcap, ht, htr, ha, rfl⟩
    · exact { h.failed .deserialize _ _ with
        arena := fun hh => by simp [State.deserializeFailed] at hh
        noArena := fun _ => ⟨rfl, rfl, rfl, rfl⟩
        codes := fun hh => by simp [State.deserializeFailed] at hh
        noCodes := fun _ => rfl }
    · obtain ⟨e1, e2, e3⟩ := treeInstalled_arena (i := .deserialize) (s := s) ha
      exact { h.succeeded .deserialize with
        arena := fun _ => by rw [e1, e2, e3]; exact ha
        noArena := fun hh => by simp [State.treeInstalled] at hh
        codes := fun hh => by simp [State.treeInstalled] at hh
        noCodes := fun _ => rfl }
  | encode =>
    rcases exec_encode_cases he with ⟨_, rfl⟩ | ⟨hv, bits, e, hp, hcap, rfl | ⟨x, info, rfl⟩⟩
    · exact h.failed _ _ _
    · unfold State.encodeEnded at hm hs ⊢
      split
      · rename_i h1
        rw [if_pos h1] at hm hs
        exact { h.succeeded .encode with memory := hm, storage := hs }
      · rename_i h1
        rw [if_neg h1] at hm hs
        split
        · rename_i h2
          rw [if_pos h2] at hm hs
          exact { h.failed .encode .capacity (s.inLen.setWidth 64) with memory := hm, storage := hs }
        · rename_i h2
          rw [if_neg h2] at hm hs
          exact { h.succeeded .encode with memory := hm, storage := hs }
    · exact { h.failed .encode _ _ with memory := hm, storage := hs }
  | decode =>
    rcases exec_decode_cases he with ⟨_, rfl⟩ | ⟨hv, d, u, rfl, hu, hcap, _, _⟩
    · exact h.failed _ _ _
    · have hb : (State.decodeResult d u s).outLen.toNat ≤ s.cfg.outCap := by
        show (BitVec.ofNat 32 d.outLen).toNat ≤ _
        simp; omega
      rcases hu with rfl | ⟨x, info, rfl⟩
      · exact { h.succeeded .decode with memory := hm, storage := hs, outBound := hb }
      · exact { h.failed .decode x info with memory := hm, storage := hs, outBound := hb }
  | reset =>
    cases he
    exact {
      params := h.params, memory := h.memory, storage := h.storage
      busy := fun _ _ hh => by simp [resetRegisters] at hh
      errFlag := by simp [resetRegisters, startCommand, Flags.clear]
      errRange := by simp [resetRegisters]
      errInfo := fun _ => rfl
      outBound := Nat.zero_le _
      counts := fun hh => by simp [resetRegisters, Flags.clear] at hh
      noCounts := fun _ => ⟨rfl, rfl⟩
      arena := fun hh => by simp [resetRegisters, Flags.clear] at hh
      noArena := fun _ => ⟨rfl, rfl, rfl, rfl⟩
      codes := fun hh => by simp [resetRegisters, Flags.clear] at hh
      noCodes := fun _ => rfl }

/-- The hard reset establishes the invariant (R275). -/
theorem hardReset_inv {s : State} (h : s.cfg.wf = true) : (hardReset s).Inv where
  params := h
  memory := List.Pairwise.nil
  storage := by intro a ha; simp [hardReset] at ha
  busy := fun _ _ hh => by simp [hardReset, resetRegisters] at hh
  errFlag := by simp [hardReset, resetRegisters, Flags.clear]
  errRange := by simp [hardReset, resetRegisters]
  errInfo := fun _ => rfl
  outBound := Nat.zero_le _
  counts := fun hh => by simp [hardReset, resetRegisters, Flags.clear] at hh
  noCounts := fun _ => ⟨rfl, rfl⟩
  arena := fun hh => by simp [hardReset, resetRegisters, Flags.clear] at hh
  noArena := fun _ => ⟨rfl, rfl, rfl, rfl⟩
  codes := fun hh => by simp [hardReset, resetRegisters, Flags.clear] at hh
  noCodes := fun _ => rfl

/-- The windows a host write reaches are storage (R61). -/
theorem window_storage {cfg : Config} {base size a : Nat}
    (hb : (base = tokBase ∧ size = 2 * tokCap) ∨ (base = inBase ∧ size = cfg.inCap) ∨ (base = payBase ∧ size = 4 * cfg.payCap))
    (ha : base ≤ a ∧ a < base + size) : inStorage cfg a = true := by
  have := (inWindow_iff a base size).2 ha
  unfold inStorage
  rcases hb with ⟨rfl, rfl⟩ | ⟨rfl, rfl⟩ | ⟨rfl, rfl⟩ <;> simp [this]

/-- Issuing a command keeps the invariant (R121). -/
theorem State.Inv.issue {s : State} (h : s.Inv) (c : Word) : (issueCommand c s).Inv where
  params := h.params
  memory := h.memory
  storage := h.storage
  busy := by
    intro c' l hh
    simp [issueCommand, startCommand] at hh ⊢
    exact hh.1
  errFlag := by simp [issueCommand, startCommand]
  errRange := by simp [issueCommand, startCommand]
  errInfo := fun _ => rfl
  outBound := h.outBound
  counts := h.counts
  noCounts := h.noCounts
  arena := h.arena
  noArena := h.noArena
  codes := h.codes
  noCodes := h.noCodes

/-- A host write keeps the invariant. -/
theorem State.Inv.write {s t : State} {a : Nat} {v : Word} (h : s.Inv) (hw : hostWrite s a v = some t) : t.Inv := by
  have hwf := (Config.wf_iff _).1 h.params
  unfold hostWrite at hw
  cases hl : locate s.cfg a with
  | none => rw [hl] at hw; simp at hw
  | some p =>
    rw [hl] at hw
    simp only [Option.map_some, Option.some.injEq] at hw
    subst hw
    have hc := locate_cases hl
    cases p with
    | reg r => cases r <;> first | exact h | exact State.Inv.issue h v | exact { h with }
    | count | node | code | outBuf => exact h
    | tok k =>
      refine { h with memory := Memory.wf_setToken (Memory.wf_setToken h.memory _ _) _ _, storage := fun x hx => ?_ }
      show inStorage s.cfg x = true
      simp only [writePlace, Memory.get_setToken] at hx
      split at hx
      · exact window_storage (.inl ⟨rfl, rfl⟩) (by omega)
      · split at hx
        · exact window_storage (.inl ⟨rfl, rfl⟩) (by omega)
        · split at hx
          · exact window_storage (.inl ⟨rfl, rfl⟩) (by omega)
          · split at hx
            · exact window_storage (.inl ⟨rfl, rfl⟩) (by omega)
            · exact h.storage x hx
    | inBuf k =>
      refine { h with memory := Memory.wf_setWord h.memory _ _, storage := fun x hx => ?_ }
      show inStorage s.cfg x = true
      simp only [writePlace, Memory.get_setWord] at hx
      simp only at hc
      split at hx
      · exact window_storage (.inr (.inl ⟨rfl, rfl⟩)) (by omega)
      · exact h.storage x hx
    | pay w =>
      refine { h with memory := Memory.wf_setPay h.memory _ _, storage := fun x hx => ?_ }
      show inStorage s.cfg x = true
      simp only [writePlace, Memory.get_setPay] at hx
      simp only at hc
      split at hx
      · exact window_storage (.inr (.inr ⟨rfl, rfl⟩)) (by omega)
      · exact h.storage x hx

/-- A host access keeps the invariant. -/
theorem State.Inv.access {s : State} {x : Access} (h : s.Inv) : (performAccess x s).Inv := by
  cases x with
  | read a => unfold performAccess; simp only; split <;> exact { h with }
  | write a v =>
    unfold performAccess
    simp only
    split
    · rename_i t ht
      exact { State.Inv.write h ht with }
    · exact { h with }

/-- An illegal command word keeps the invariant (R232). -/
theorem State.Inv.illegal {s : State} (h : s.Inv) (c : Word) : (raiseError .illegalCommand (c.setWidth 64) (startCommand c 0 s)).Inv where
  params := h.params
  memory := h.memory
  storage := h.storage
  busy := by intro c l hh; simp [raiseError] at hh
  errFlag := by simp [raiseError, Err.code]
  errRange := by simp [raiseError, Err.code]
  errInfo := fun hh => by simp [raiseError, Err.code] at hh
  outBound := h.outBound
  counts := h.counts
  noCounts := h.noCounts
  arena := h.arena
  noArena := h.noArena
  codes := h.codes
  noCodes := h.noCodes

/-- A step of an idle block keeps the invariant. -/
theorem State.Inv.idleStep {s : State} (h : s.Inv) : (idleStep s).Inv := by
  unfold Machine.idleStep
  split
  · exact State.Inv.access { h with }
  · split
    · exact h
    · exact hardReset_inv h.params
    · exact State.Inv.access { h with }

/-- A step of a busy block short of its completion keeps the invariant. -/
theorem State.Inv.busyStep {s : State} {c : Word} {n : Nat} (h : s.Inv) (hr : s.run = .busy c (n + 1)) : (busyStep c n s).Inv := by
  have hb := h.busy _ _ hr
  have hrun : ({ s with run := .busy c n } : State).Inv :=
    { h with busy := fun c' l hh => by cases hh; exact hb }
  unfold Machine.busyStep
  split
  · exact hardReset_inv h.params
  · split
    · exact hrun
    · split
      · exact { hrun with }
      · exact { hrun with }
  · exact hrun

/-- A completed command leaves an idle block, and the port as it was. -/
theorem exec_idle {i : Instr} {s t : State} (he : exec i s = .next t) :
    t.run = .idle ∧ t.held = s.held ∧ t.port = s.port ∧ t.replies = s.replies := by
  cases i with
  | nop => cases he; exact ⟨rfl, rfl, rfl, rfl⟩
  | freq => rw [exec_freq] at he; cases he; split <;> [skip; split] <;> exact ⟨rfl, rfl, rfl, rfl⟩
  | build => rcases exec_build_cases he with ⟨_, rfl⟩ | ⟨_, _, _, _, rfl⟩ <;> exact ⟨rfl, rfl, rfl, rfl⟩
  | gencodes =>
    rcases exec_gencodes_cases he with ⟨_, rfl⟩ | ⟨_, _, _, _, rfl⟩ | ⟨_, _, _, _, _, _, _, rfl⟩ <;> exact ⟨rfl, rfl, rfl, rfl⟩
  | serialize => rcases exec_serialize_cases he with ⟨_, rfl⟩ | ⟨_, T, _, rfl⟩ <;> exact ⟨rfl, rfl, rfl, rfl⟩
  | deserialize =>
    rcases exec_deserialize_cases he with ⟨_, _, rfl, _⟩ | ⟨_, _, _, _, _, _, _, rfl⟩ <;> exact ⟨rfl, rfl, rfl, rfl⟩
  | encode =>
    rcases exec_encode_cases he with ⟨_, rfl⟩ | ⟨_, _, _, _, _, rfl | ⟨_, _, rfl⟩⟩
    · exact ⟨rfl, rfl, rfl, rfl⟩
    · unfold State.encodeEnded; split <;> [skip; split] <;> exact ⟨rfl, rfl, rfl, rfl⟩
    · exact ⟨rfl, rfl, rfl, rfl⟩
  | decode =>
    rcases exec_decode_cases he with ⟨_, rfl⟩ | ⟨_, _, _, rfl, rfl | ⟨_, _, rfl⟩, _⟩ <;> exact ⟨rfl, rfl, rfl, rfl⟩
  | reset => cases he; exact ⟨rfl, rfl, rfl, rfl⟩

/-- So does a command word, legal or not. -/
theorem execWord_idle {c : Word} {s t : State} (he : execWord c s = .next t) :
    t.run = .idle ∧ t.held = s.held ∧ t.port = s.port ∧ t.replies = s.replies := by
  unfold execWord at he
  split at he
  · exact exec_idle he
  · cases he; exact ⟨rfl, rfl, rfl, rfl⟩

/-- One more step of a run. -/
theorem run_next (M : Host.Core) {s t : M.State} (k : Nat) (h : M.step s = .next t) : M.run (k + 1) s = M.run k t := by
  simp only [Host.Core.run, h]
/-- A run from a state whose step answers a next state goes on from there. -/
theorem core_run_next {s t : State} (k : Nat) (h : step s = .next t) :
    Host.Core.run Sys2Proof.core (k + 1) s = Host.Core.run Sys2Proof.core k t := run_next Sys2Proof.core k h

end Sys2Proof.Machine
end

