-- ==== Sys2Proof/Laws/RoundTrip.lean ====
section
/-! SUPPORT. Commands after one another: what DECODE depends on, SERIALIZE then DESERIALIZE, BUILD's tree and its codes
(44_serialize.md R191, 46_decode.md R226). -/

namespace Sys2Proof.Machine

/-- DECODE depends on the tree, not on its numbering: two blocks with the same tree, registers and payload bits end
with the same bytes and the same record. -/
theorem exec_decode_agree {s u : State} {T : HTree} (hvs : s.flags.treeValid = true) (hvu : u.flags.treeValid = true)
    (has : ArenaOk s.node s.leafCount.toNat s.nodeCount.toNat s.root.toNat)
    (hau : ArenaOk u.node u.leafCount.toNat u.nodeCount.toNat u.root.toNat)
    (hts : s.tree = some T) (htu : u.tree = some T) (hcfg : u.cfg = s.cfg) (hwf : s.cfg.wf = true)
    (hb : u.bitCount = s.bitCount) (hw : u.payWords = s.payWords)
    (hbits : ∀ i, i < 32 * s.payWords.toNat → s.payWords.toNat ≤ s.cfg.payCap → u.payBit i = s.payBit i) :
    ∃ a b, exec .decode s = .next a ∧ exec .decode u = .next b ∧ a.output = b.output ∧ a.outLen = b.outLen ∧
      a.errCode = b.errCode ∧ a.errInfo = b.errInfo ∧ a.flags.partialEnd = b.flags.partialEnd ∧ a.flags.err = b.flags.err := by
  have hc := (Config.wf_iff _).1 hwf
  rcases Nat.lt_or_ge s.cfg.payCap s.payWords.toNat with hp | hp
  · refine ⟨_, _, exec_decode_capacity hvs hp, exec_decode_capacity hvu (by rw [hw, hcfg]; exact hp), ?_, rfl, rfl, ?_, rfl, rfl⟩
    · simp [State.output]
    · show s.payWords.setWidth 64 = u.payWords.setWidth 64; rw [hw]
  have hp' : u.payWords.toNat ≤ u.cfg.payCap := by rw [hw, hcfg]; exact hp
  have hpb : ∀ k, k ≤ 32 * s.payWords.toNat → u.payBits k = s.payBits k := fun k hk => by
    unfold State.payBits
    refine List.map_congr_left fun i hi => hbits i ?_ hp
    rw [List.mem_range] at hi; omega
  cases hl : T.isLeaf with
  | true =>
    obtain ⟨_, _, hx, rfl⟩ := State.root_of_leaf hts hl
    obtain ⟨_, _, hy, _⟩ := State.root_of_leaf htu hl
    refine ⟨_, _, exec_decode_leaf hvs hx hp, exec_decode_leaf hvu hy hp', ?_, rfl, ?_, ?_, ?_, ?_⟩
    · simp [State.decodeResult, State.output]
    · rw [hb, hw]; simp only [State.decodeResult]; split <;> [skip; split] <;> rfl
    · rw [hb, hw]; simp only [State.decodeResult]; split <;> [skip; split] <;> rfl
    · simp only [State.decodeResult, bne_self_eq_false]
    · rw [hb, hw]; simp only [State.decodeResult]; split <;> [skip; split] <;> rfl
  | false =>
    have hs := exec_decode_tree hvs has hts hl hp rfl
    have hu := exec_decode_tree hvu hau htu hl hp' rfl
    rw [hb, hw, hcfg, hpb _ (Nat.min_le_right _ _)] at hu
    have small : s.cfg.outCap < 2 ^ 32 := by omega
    rcases hs with ⟨hle, d, a1, a2, a3, a4⟩ | ⟨hlt, i, d, a0, a1, a2, a3, a4, a5, a6⟩
    · rcases hu with ⟨_, d', b1, b2, b3, b4⟩ | ⟨hlt, _⟩
      · have hcur : (d'.cur != u.root) = (d.cur != s.root) := by
          rw [Bool.eq_iff_iff, bne_iff_ne, bne_iff_ne, ne_eq, ne_eq, a3, b3]
        refine ⟨_, _, a4, b4, ?_, ?_, ?_, ?_, hcur.symm, ?_⟩
        · rw [State.decodeResult_output _ a2 a1 (by omega), State.decodeResult_output _ b2 b1 (by omega)]
        · simp only [State.decodeResult, a1, b1]
        all_goals simp only [State.decodeResult]; split <;> rfl
      · omega
    · rcases hu with ⟨hle, _⟩ | ⟨_, j, d', b0, b1, b2, b3, b4, b5, b6⟩
      · omega
      · rw [hpb j (by omega)] at b1 b4
        rw [hpb (j + 1) (by omega)] at b2
        obtain rfl : j = i := by
          rcases Nat.lt_trichotomy j i with h | h | h
          · have := s.emitted_mono T (show j + 1 ≤ i by omega); omega
          · exact h
          · have := s.emitted_mono T (show i + 1 ≤ j by omega); omega
        refine ⟨_, _, a6, b6, ?_, ?_, rfl, rfl, ?_, rfl⟩
        · rw [State.decodeResult_output _ a4 (by rw [a3, a1]) (by omega), State.decodeResult_output _ b4 (by rw [b3, b1]) (by omega)]
        · simp only [State.decodeResult, a3, b3]
        · have c1 : (d.cur != s.root) = true := by simpa using a5
          have c2 : (d'.cur != u.root) = true := by simpa using b5
          exact c1.trans c2.symm

/-- SERIALIZE, then DESERIALIZE, from a valid tree. -/
theorem serialize_deserialize {s : State} (h : s.Inv) (hv : s.flags.treeValid = true) {T : HTree} (hT : s.tree = some T) :
    ∃ t u, exec .serialize s = .next t ∧ exec .deserialize t = .next u ∧ u.flags.treeValid = true ∧ u.tree = some T ∧
      (∀ x ∈ u.node, x.weight = 0) ∧ t.mem = s.mem.setTokens 0 T.ser ∧ T.ser.length ≤ tokCap ∧
      ∃ node leaves r, u = t.treeInstalled .deserialize node leaves r ∧
        t = { s.succeeded .serialize with mem := s.mem.setTokens 0 T.ser, tokCount := BitVec.ofNat 64 T.ser.length } := by
  have ha := h.arena hv
  obtain ⟨T', hT', hcount⟩ := ha.tree
  obtain rfl : T = T' := by rw [show treeOf s.node s.root.toNat = some T from hT] at hT'; exact Option.some.inj hT'
  have hlen := T.ser_length
  have hb := ha.bound
  simp only [alphabet] at hb
  have hcap : T.ser.length ≤ tokCap := by unfold tokCap; omega
  have hs := exec_serialize hv hT
  have htok : ({ s.succeeded .serialize with mem := s.mem.setTokens 0 T.ser, tokCount := BitVec.ofNat 64 T.ser.length } : State).tokens = T.ser :=
    State.tokens_of_setTokens (m := s.mem) (by simp; unfold tokCap at hcap; omega) hcap rfl
  have hc : ({ s.succeeded .serialize with mem := s.mem.setTokens 0 T.ser, tokCount := BitVec.ofNat 64 T.ser.length } : State).tokCount.toNat ≤ tokCap := by
    simp; unfold tokCap at *; omega
  obtain ⟨d, r, hd, hstk, _⟩ := deserializeLoop_ser T hcap
  rcases exec_deserialize hc with ⟨T2, d, r, e1, e2, e3, e4, e5, e6⟩ | ⟨n, e1, e2, e3⟩ | ⟨n, e1, e2, e3, e4⟩
  · rw [htok] at e1
    obtain rfl := HTree.ser_injective e1
    obtain ⟨a1, a2, a3⟩ := treeInstalled_arena (i := .deserialize) (s := ({ s.succeeded .serialize with mem := s.mem.setTokens 0 T.ser, tokCount := BitVec.ofNat 64 T.ser.length } : State)) e3
    refine ⟨_, _, hs, e6, rfl, ?_, e4, rfl, hcap, _, _, _, rfl, rfl⟩
    unfold State.tree
    rw [a3]
    exact e2
  · rw [htok] at e1
    have := tokenDepth_ser T [] 0
    rw [List.append_nil] at this
    rw [this] at e1; simp [tokenDepth] at e1; omega
  · rw [htok] at e2 e3
    have h2 := tokenDepth_ser T [] 0
    rw [List.append_nil] at h2
    rw [← List.take_append_drop (n + 1) T.ser, tokenDepth_append, e3] at h2
    simp [tokenDepth] at h2

/-- A byte has a leaf exactly when it is among the leaves' bytes. -/
theorem HTree.mem_leafSyms (t : HTree) (sym : Byte) : sym ∈ t.leafSyms ↔ ∃ p, t.follow p = some (.leaf sym) := by
  rw [← t.leafSyms_paths [], Multiset.mem_coe, List.mem_map]
  constructor
  · rintro ⟨⟨s, p⟩, h, rfl⟩
    obtain ⟨q, _, hq⟩ := (t.mem_leafPaths [] s p).1 h
    exact ⟨q, hq⟩
  · rintro ⟨p, hp⟩
    exact ⟨(sym, p), (t.mem_leafPaths [] sym p).2 ⟨p, rfl, hp⟩, rfl⟩

/-- The bytes of BUILD's leaves: each byte with a nonzero count, once (R151). -/
theorem leafSyms_of_counts {count : List Word} {node : List Node} {nodeCount root : Nat} {t : HTree}
    (h : ArenaOk node (leavesOf count).length nodeCount root) (hp : leavesOf count <+: node) (ht : treeOf node root = some t) :
    t.leafSyms = (((List.range 256).filter fun sym => count.getD sym 0 != 0).map (BitVec.ofNat 8) : List Byte) := by
  rw [h.leafSyms hp (leavesOf_isLeaf count) ht, leavesOf_eq, List.map_map]
  generalize (List.range 256).filter _ = l
  induction l with
  | nil => rfl
  | cons x l ih => simp only [List.map_cons, List.sum_cons, ih]; rfl

theorem mem_leafSyms_of_counts {count : List Word} {t : HTree} {sym : Byte}
    (h : t.leafSyms = (((List.range 256).filter fun sym => count.getD sym 0 != 0).map (BitVec.ofNat 8) : List Byte)) :
    sym ∈ t.leafSyms ↔ count.getD sym.toNat 0 ≠ 0 := by
  rw [h, Multiset.mem_coe, List.mem_map]
  simp only [List.mem_filter, List.mem_range, bne_iff_ne, ne_eq]
  constructor
  · rintro ⟨k, ⟨hk, hc⟩, rfl⟩
    rwa [BitVec.toNat_ofNat, Nat.mod_eq_of_lt (show k < 2 ^ 8 by omega)]
  · intro hc
    exact ⟨sym.toNat, ⟨sym.isLt, hc⟩, by simp⟩

/-- A valid code entry holds the path to a leaf of its byte (R167). -/
theorem codeOf_path {s : State} {T : HTree} (hT : s.tree = some T) (hc : codeTableOf s.node s.root.toNat = some s.code)
    (hsmall : T.leafCount ≤ 256) (sym : Byte) :
    ((s.codeOf sym).valid = true ↔ ∃ p, T.follow p = some (.leaf sym)) ∧
    ((s.codeOf sym).valid = true → T.follow (s.codeOf sym).path = some (.leaf sym)) := by
  have hg := codeTableOf_getD hT hc sym
  unfold State.codeOf
  rw [hg, ← T.codeOf_isSome]
  cases hco : T.codeOf sym with
  | none => simp
  | some p =>
    have hf := T.codeOf_follow hco
    have hl := HTree.follow_length hf
    simp [CodeEntry.path_ofPath p (by omega), hf]

/-- On a tree of two leaves or more no path to a leaf is empty. -/
theorem HTree.follow_ne_nil {t : HTree} (h : t.isLeaf = false) {p : List Bool} {sym : Byte}
    (hp : t.follow p = some (.leaf sym)) : p ≠ [] := by
  rintro rfl
  cases t with
  | leaf => simp [HTree.isLeaf] at h
  | node => simp [HTree.follow] at hp

/-- DECODE of the codes of a byte sequence, on the tree the codes are of, gives the sequence back (R226). -/
theorem exec_decode_codes {u : State} {T : HTree} (hv : u.flags.treeValid = true)
    (ha : ArenaOk u.node u.leafCount.toNat u.nodeCount.toNat u.root.toNat) (hT : u.tree = some T) (hl : T.isLeaf = false)
    (hwf : u.cfg.wf = true) (x : List Byte) (code : Byte → List Bool) (hcode : ∀ b ∈ x, T.follow (code b) = some (.leaf b))
    (hb : u.bitCount.toNat = (x.flatMap code).length)
    (hbits : ∀ i, i < u.bitCount.toNat → u.payBit i = (x.flatMap code).getD i false)
    (hw : u.bitCount.toNat ≤ 32 * u.payWords.toNat) (hp : u.payWords.toNat ≤ u.cfg.payCap) (hx : x.length ≤ u.cfg.outCap) :
    ∃ d, exec .decode u = .next d ∧ d.flags.err = false ∧ d.flags.partialEnd = false ∧ d.outLen.toNat = x.length ∧
      d.output = x := by
  have hc := (Config.wf_iff _).1 hwf
  have hpb : u.payBits u.bitCount.toNat = x.flatMap code := by
    refine List.ext_getElem (by simp [State.payBits, hb]) fun i h1 h2 => ?_
    have := hbits i (by omega)
    simp only [State.payBits, List.getElem_map, List.getElem_range, this]
    rw [List.getD_eq_getElem?_getD, List.getElem?_eq_getElem h2]; rfl
  have hdec := HTree.decodeFrom_codes x code hcode fun b hb => HTree.follow_ne_nil hl (hcode b hb)
  have hmin : min u.bitCount.toNat (32 * u.payWords.toNat) = u.bitCount.toNat := by omega
  rcases exec_decode_tree hv ha hT hl hp rfl with ⟨_, d, h1, h2, h3, he⟩ | ⟨hlt, _⟩
  · rw [hmin, hpb, hdec] at h1 h2 h3
    simp only at h1 h2 h3
    rw [if_pos hw] at he
    refine ⟨_, he, rfl, ?_, ?_, State.decodeResult_output _ h2 h1 (by omega)⟩
    · show (d.cur != u.root) = false
      rw [h3.2 trivial]; simp
    · show (BitVec.ofNat 32 d.outLen).toNat = _
      rw [h1, BitVec.toNat_ofNat, Nat.mod_eq_of_lt (by omega)]
  · rw [hmin, hpb, hdec] at hlt
    simp only at hlt
    omega

/-! ### FREQ, BUILD, GENCODES one after another -/

/-- `t` is `s` but for the run state, the record of the last command and what the port has done: what happens between
two commands of a host that only issues them. -/
structure Carries (s t : State) : Prop where
  inv : s.Inv → t.Inv
  cfg : t.cfg = s.cfg
  flags : t.flags = { s.flags with done := t.flags.done, err := t.flags.err }
  inLen : t.inLen = s.inLen
  tokCount : t.tokCount = s.tokCount
  bitCount : t.bitCount = s.bitCount
  payWords : t.payWords = s.payWords
  count : t.count = s.count
  leafCount : t.leafCount = s.leafCount
  nodeCount : t.nodeCount = s.nodeCount
  root : t.root = s.root
  node : t.node = s.node
  code : t.code = s.code
  mem : t.mem = s.mem
  cycle : t.powerCycle = s.powerCycle

theorem Carries.refl (s : State) : Carries s s := ⟨id, rfl, rfl, rfl, rfl, rfl, rfl, rfl, rfl, rfl, rfl, rfl, rfl, rfl, rfl⟩

/-- Issuing a command carries the state. -/
theorem Carries.issue (c : Word) (r : Reply) (s : State) : Carries s (answer r (issueCommand c s)) :=
  ⟨fun h => { h.issue c with }, rfl, rfl, rfl, rfl, rfl, rfl, rfl, rfl, rfl, rfl, rfl, rfl, rfl, rfl⟩

theorem Carries.input {s t : State} (h : Carries s t) : t.input = s.input := by
  unfold State.input State.inByte State.byteAt
  rw [h.inLen, h.mem, h.cycle]

theorem Carries.tree {s t : State} (h : Carries s t) : t.tree = s.tree := by
  unfold State.tree
  rw [h.node, h.root]

theorem Carries.codeOf {s t : State} (h : Carries s t) : t.codeOf = s.codeOf := by
  funext b
  unfold State.codeOf
  rw [h.code]

theorem Carries.codesValid {s t : State} (h : Carries s t) : t.flags.codesValid = s.flags.codesValid := by rw [h.flags]
theorem Carries.treeValid {s t : State} (h : Carries s t) : t.flags.treeValid = s.flags.treeValid := by rw [h.flags]
theorem Carries.freqValid {s t : State} (h : Carries s t) : t.flags.freqValid = s.flags.freqValid := by rw [h.flags]

/-- FREQ then BUILD on an input that is not empty: a tree with a leaf for each byte of the input, once. `g` and `g'` are
what happens before each command. -/
theorem freq_build {g g' : State → State} (hg : ∀ s, Carries s (g s)) (hg' : ∀ s, Carries s (g' s)) {s : State} (h : s.Inv) (hne : s.inLen ≠ 0)
    (hin : s.inLen.toNat ≤ s.cfg.inCap) :
    ∃ s1 s2 T, exec .freq (g s) = .next s1 ∧ s1.flags.err = false ∧ exec .build (g' s1) = .next s2 ∧
      s2.flags.err = false ∧ s2.Inv ∧ s2.flags.treeValid = true ∧ s2.tree = some T ∧
      (∀ b, b ∈ T.leafSyms ↔ b ∈ s.input) ∧ T.leafSyms.Nodup ∧ T.leafCount ≤ 256 ∧ s2.inLen = s.inLen ∧
      s2.cfg = s.cfg ∧ s2.mem = s.mem ∧ s2.powerCycle = s.powerCycle := by
  have hc := (Config.wf_iff _).1 h.params
  have hgs := hg s
  have e1 := exec_freq (g s)
  rw [hgs.cfg, hgs.inLen, if_neg (by omega), if_neg hne, hgs.input] at e1
  generalize hs1 : ({ (g s).succeeded .freq with
    flags := { ((g s).succeeded .freq).flags with freqValid := true }
    count := countBytes s.input, total := s.inLen } : State) = s1 at e1
  have hi1 := (hgs.inv h).exec e1
  have hg1 := hg' s1
  have hi1' := hg1.inv hi1
  have hcnt : (g' s1).count = countBytes s.input := by rw [hg1.count, ← hs1]
  have hv1 : (g' s1).flags.freqValid = true := by rw [hg1.freqValid, ← hs1]
  obtain ⟨node, r, e2, hpre, harena, _⟩ := exec_build hv1 (leavesOf_ne_nil (hi1'.counts hv1))
  generalize hs2 : (g' s1).treeInstalled .build node (leavesOf (g' s1).count).length r = s2 at e2
  have hi2 := hi1'.exec e2
  have hv2 : s2.flags.treeValid = true := by rw [← hs2]; rfl
  obtain ⟨T, hT, hcount⟩ := (hi2.arena hv2).tree
  have hroot : s2.node = node ∧ s2.root.toNat = r := by
    rw [← hs2]; exact ⟨rfl, (treeInstalled_arena harena).2.2⟩
  have hleaf := leafSyms_of_counts harena hpre (by rw [← hroot.1, ← hroot.2]; exact hT)
  have hb := (hi2.arena hv2).bound
  unfold alphabet at hb
  refine ⟨s1, s2, T, e1, by rw [← hs1]; rfl, e2, by rw [← hs2]; rfl, hi2, hv2, hT, fun b => ?_, ?_, by omega, ?_, ?_, ?_, ?_⟩
  · rw [mem_leafSyms_of_counts hleaf, hcnt, countBytes_getD]
    have hle : s.input.count b ≤ s.input.length := List.count_le_length
    rw [State.input_length] at hle
    rw [← List.count_pos_iff, ne_eq, ← BitVec.toNat_inj, BitVec.toNat_ofNat, Nat.mod_eq_of_lt (by omega)]
    simp only [BitVec.ofNat_eq_ofNat, BitVec.toNat_ofNat, Nat.zero_mod]
    omega
  · rw [hleaf, Multiset.coe_nodup]
    refine List.Nodup.map_on (fun a ha b hb hab => ?_) (List.nodup_range.filter _)
    simp only [List.mem_filter, List.mem_range] at ha hb
    have := congrArg BitVec.toNat hab
    simpa [Nat.mod_eq_of_lt ha.1, Nat.mod_eq_of_lt hb.1] using this
  · rw [← hs2]; show (g' s1).inLen = _; rw [hg1.inLen, ← hs1]; exact hgs.inLen
  · rw [← hs2]; show (g' s1).cfg = _; rw [hg1.cfg, ← hs1]; exact hgs.cfg
  · rw [← hs2]; show (g' s1).mem = _; rw [hg1.mem, ← hs1]; exact hgs.mem
  · rw [← hs2]; show (g' s1).powerCycle = _; rw [hg1.cycle, ← hs1]; exact hgs.cycle

/-- A tree whose leaves hold distinct bytes has two leaves or more exactly when it has two bytes. -/
theorem HTree.isLeaf_of_syms {t : HTree} (h : t.leafSyms.Nodup) :
    t.isLeaf = false ↔ ∃ a ∈ t.leafSyms, ∃ b ∈ t.leafSyms, a ≠ b := by
  have some : ∀ t : HTree, ∃ a, a ∈ t.leafSyms := by
    intro t
    induction t with
    | leaf s => exact ⟨s, by simp [HTree.leafSyms]⟩
    | node l r hl _ => obtain ⟨a, ha⟩ := hl; exact ⟨a, by simp [HTree.leafSyms, ha]⟩
  cases t with
  | leaf s =>
    simp only [HTree.isLeaf, HTree.leafSyms, Multiset.mem_singleton, Bool.true_eq_false, false_iff]
    rintro ⟨a, rfl, b, rfl, hab⟩
    exact hab rfl
  | node l r =>
    simp only [HTree.isLeaf, true_iff]
    obtain ⟨a, ha⟩ := some l
    obtain ⟨b, hb⟩ := some r
    refine ⟨a, by simp [HTree.leafSyms, ha], b, by simp [HTree.leafSyms, hb], ?_⟩
    rintro rfl
    exact Multiset.disjoint_left.1 (Multiset.nodup_add.1 h).2.2 ha hb

/-- GENCODES on a tree of two leaves or more: each byte with a leaf has the path to a leaf of its own as code. -/
theorem gencodes_codes {s : State} (h : s.Inv) {T : HTree} (hv : s.flags.treeValid = true) (hT : s.tree = some T)
    (hl : T.isLeaf = false) :
    ∃ t, exec .gencodes s = .next t ∧ t.flags.err = false ∧ t.Inv ∧ t.flags.treeValid = true ∧ t.flags.codesValid = true ∧
      t.tree = some T ∧ (∀ b ∈ T.leafSyms, (t.codeOf b).valid = true ∧ T.follow (t.codeOf b).path = some (.leaf b)) ∧
      t.inLen = s.inLen ∧ t.cfg = s.cfg ∧ t.mem = s.mem ∧ t.powerCycle = s.powerCycle := by
  obtain ⟨code, hcode, he⟩ := exec_gencodes hv hT hl
  have hi := h.exec he
  obtain ⟨T', hT', hcount⟩ := (h.arena hv).tree
  obtain rfl : T = T' := Option.some.inj ((show treeOf s.node s.root.toNat = some T from hT).symm.trans hT')
  have hb := (h.arena hv).bound
  unfold alphabet at hb
  refine ⟨_, he, rfl, hi, hv, rfl, hT, fun b hb => ?_, rfl, rfl, rfl, rfl⟩
  obtain ⟨k1, k2⟩ := codeOf_path (s := { s.succeeded .gencodes with
    flags := { (s.succeeded .gencodes).flags with codesValid := true }, code := code }) hT hcode (by omega) b
  have := k1.2 ((T.mem_leafSyms b).1 hb)
  exact ⟨this, k2 this⟩

end Sys2Proof.Machine
end

