-- ==== Sys2Proof/Laws/Optimal.lean ====
section
/-! SUPPORT. Why a greedy merge makes an optimal code: the exchange argument, the merge loop's cost, Kraft's inequality for
a prefix code, and the cost of a tree (42_tree_build.md, 70_reset_and_hazards.md R298). -/

namespace Sys2Proof.Machine

/-- Exchanging two lengths so that the lighter of two members gets the longer one costs no more. -/
theorem swap_lengths (s : Finset Nat) (w l : Nat → Nat) {a m : Nat} (ha : a ∈ s) (hm : m ∈ s) (hw : w a ≤ w m)
    (hl : l a ≤ l m) :
    ∑ x ∈ s, w x * l (Equiv.swap a m x) ≤ ∑ x ∈ s, w x * l x ∧
      ∑ x ∈ s, (1 / 2 : ℚ) ^ l (Equiv.swap a m x) = ∑ x ∈ s, (1 / 2 : ℚ) ^ l x := by
  have hmem : ∀ x, x ∈ s ↔ Equiv.swap a m x ∈ s := fun x => by
    rcases eq_or_ne x a with rfl | h1
    · simp [ha, hm]
    · rcases eq_or_ne x m with rfl | h2
      · simp [ha, hm]
      · rw [Equiv.swap_apply_of_ne_of_ne h1 h2]
  refine ⟨?_, Finset.sum_equiv (Equiv.swap a m) hmem fun _ _ => rfl⟩
  rcases eq_or_ne a m with rfl | hne
  · simp
  · have hm' : m ∈ s.erase a := Finset.mem_erase.2 ⟨hne.symm, hm⟩
    rw [← Finset.add_sum_erase s _ ha, ← Finset.add_sum_erase s _ ha, ← Finset.add_sum_erase _ _ hm',
      ← Finset.add_sum_erase _ (fun x => w x * l x) hm']
    have hrest : ∑ x ∈ (s.erase a).erase m, w x * l (Equiv.swap a m x) = ∑ x ∈ (s.erase a).erase m, w x * l x := by
      refine Finset.sum_congr rfl fun x hx => ?_
      simp only [Finset.mem_erase] at hx
      rw [Equiv.swap_apply_of_ne_of_ne hx.2.1 hx.1]
    rw [hrest, Equiv.swap_apply_left, Equiv.swap_apply_right]
    obtain ⟨d, hd⟩ := Nat.exists_eq_add_of_le hl
    obtain ⟨e, he⟩ := Nat.exists_eq_add_of_le hw
    rw [hd, he]
    nlinarith [Nat.zero_le (d * e)]

/-- The step of Huffman's argument: lengths that Kraft allows for a queue give lengths that Kraft allows for the queue
with its two lightest members merged, at a cost smaller by their weight. -/
theorem merge_lengths (s : Finset Nat) (w l : Nat → Nat) {a b c : Nat} (ha : a ∈ s) (hb : b ∈ s) (hab : a ≠ b)
    (hwa : ∀ x ∈ s, w a ≤ w x) (hwb : ∀ x ∈ s, x ≠ a → w b ≤ w x) (kraft : ∑ x ∈ s, (1 / 2 : ℚ) ^ l x ≤ 1) (hc : c ∉ s) :
    ∃ l' : Nat → Nat, ∑ x ∈ insert c ((s.erase a).erase b), (1 / 2 : ℚ) ^ l' x ≤ 1 ∧
      ∑ x ∈ (s.erase a).erase b, w x * l' x + (w a + w b) * l' c + (w a + w b) ≤ ∑ x ∈ s, w x * l x := by
  obtain ⟨m, hm, hmax⟩ := Finset.exists_max_image s l ⟨a, ha⟩
  obtain ⟨c1, k1⟩ := swap_lengths s w l ha hm (hwa m hm) (hmax a ha)
  generalize hl1 : (fun x => l (Equiv.swap a m x)) = l1 at *
  have e1 : ∀ x, l (Equiv.swap a m x) = l1 x := fun x => by rw [← hl1]
  simp only [e1] at c1 k1
  have hb' : b ∈ s.erase a := Finset.mem_erase.2 ⟨hab.symm, hb⟩
  have max1 : ∀ x ∈ s, l1 x ≤ l1 a := fun x hx => by
    rw [← hl1]
    simp only [Equiv.swap_apply_left]
    refine hmax _ ?_
    rcases eq_or_ne x a with rfl | h1
    · simpa using hm
    · rcases eq_or_ne x m with rfl | h2
      · simpa using ha
      · rwa [Equiv.swap_apply_of_ne_of_ne h1 h2]
  obtain ⟨n, hn, nmax⟩ := Finset.exists_max_image (s.erase a) l1 ⟨b, hb'⟩
  have hn' := Finset.mem_erase.1 hn
  obtain ⟨c2, k2⟩ := swap_lengths s w l1 hb hn'.2 (hwb n hn'.2 hn'.1) (nmax b hb')
  generalize hl2 : (fun x => l1 (Equiv.swap b n x)) = l2 at *
  have e2 : ∀ x, l1 (Equiv.swap b n x) = l2 x := fun x => by rw [← hl2]
  simp only [e2] at c2 k2
  have l2a : l2 a = l1 a := by rw [← e2, Equiv.swap_apply_of_ne_of_ne hab hn'.1.symm]
  have max2 : ∀ x ∈ s.erase a, l2 x ≤ l2 b := fun x hx => by
    rw [← e2, ← e2, Equiv.swap_apply_left]
    refine nmax _ ?_
    rcases eq_or_ne x b with rfl | h1
    · simpa using hn'
    · rcases eq_or_ne x n with rfl | h2
      · simpa using ⟨hab.symm, hb⟩
      · rwa [Equiv.swap_apply_of_ne_of_ne h1 h2]
  have hba : l2 b ≤ l2 a := by
    rw [l2a, ← e2, Equiv.swap_apply_left]; exact max1 n hn'.2
  have kraft2 : ∑ x ∈ s, (1 / 2 : ℚ) ^ l2 x ≤ 1 := by rw [k2, k1]; exact kraft
  have cost2 : ∑ x ∈ s, w x * l2 x ≤ ∑ x ∈ s, w x * l x := c2.trans c1
  clear hl1 hl2 e1 e2 c1 c2 k1 k2 max1 nmax
  -- the two longest lengths may be taken equal
  generalize hM : l2 b = M at *
  have pos : ∀ x, (0 : ℚ) < (1 / 2) ^ l2 x := fun x => by positivity
  have hK : ∑ x ∈ s.erase a, (1 / 2 : ℚ) ^ l2 x = (∑ x ∈ s.erase a, 2 ^ (M - l2 x) : Nat) * (1 / 2 : ℚ) ^ M := by
    push_cast
    rw [Finset.sum_mul]
    refine Finset.sum_congr rfl fun x hx => ?_
    have := max2 x hx
    obtain ⟨d, hd⟩ := Nat.exists_eq_add_of_le this
    rw [hd, Nat.add_sub_cancel_left, pow_add, mul_comm ((1 / 2 : ℚ) ^ l2 x), ← mul_assoc, ← mul_pow]
    norm_num
  have hlt : ∑ x ∈ s.erase a, (1 / 2 : ℚ) ^ l2 x < 1 := by
    rw [← Finset.add_sum_erase s _ ha] at kraft2
    linarith [pos a]
  have hMpow : (1 / 2 : ℚ) ^ M * 2 ^ M = 1 := by rw [← mul_pow]; norm_num
  have hKlt : (∑ x ∈ s.erase a, 2 ^ (M - l2 x) : Nat) < 2 ^ M := by
    have h2 : (0 : ℚ) < 2 ^ M := by positivity
    have := mul_lt_mul_of_pos_right hlt h2
    rw [hK, mul_assoc, hMpow] at this
    have h3 : ((∑ x ∈ s.erase a, 2 ^ (M - l2 x) : Nat) : ℚ) < ((2 ^ M : Nat) : ℚ) := by push_cast at this ⊢; linarith
    exact_mod_cast h3
  have hM1 : 1 ≤ M := by
    rcases Nat.eq_zero_or_pos M with h0 | h0
    · rw [h0] at hKlt
      have : 1 ≤ ∑ x ∈ s.erase a, 2 ^ (0 - l2 x) :=
        (Nat.one_le_two_pow).trans (Finset.single_le_sum (f := fun x => 2 ^ (0 - l2 x)) (fun _ _ => Nat.zero_le _) hb')
      omega
    · exact h0
  have hle : ∑ x ∈ s.erase a, (1 / 2 : ℚ) ^ l2 x + (1 / 2) ^ M ≤ 1 := by
    have h4 : ((∑ x ∈ s.erase a, 2 ^ (M - l2 x) : Nat) : ℚ) + 1 ≤ 2 ^ M := by exact_mod_cast hKlt
    have h5 : (0 : ℚ) ≤ (1 / 2) ^ M := by positivity
    have := mul_le_mul_of_nonneg_right h4 h5
    rw [mul_comm ((2 : ℚ) ^ M), hMpow] at this
    rw [hK]; linarith
  refine ⟨fun x => if x = c then M - 1 else l2 x, ?_, ?_⟩
  · have hcn : c ∉ (s.erase a).erase b := fun h => hc (Finset.mem_of_mem_erase (Finset.mem_of_mem_erase h))
    rw [Finset.sum_insert hcn]
    simp only [if_true]
    have hrest : ∑ x ∈ (s.erase a).erase b, (1 / 2 : ℚ) ^ (if x = c then M - 1 else l2 x) =
        ∑ x ∈ (s.erase a).erase b, (1 / 2 : ℚ) ^ l2 x :=
      Finset.sum_congr rfl fun x hx => by rw [if_neg (ne_of_mem_of_not_mem hx hcn)]
    rw [hrest]
    rw [← Finset.add_sum_erase _ _ hb', hM] at hle
    have hhalf : (1 / 2 : ℚ) ^ (M - 1) = 2 * (1 / 2) ^ M := by
      obtain ⟨d, rfl⟩ : ∃ d, M = d + 1 := ⟨M - 1, by omega⟩
      rw [Nat.add_sub_cancel, pow_succ]; ring
    rw [hhalf]; linarith
  · have hcn : c ∉ (s.erase a).erase b := fun h => hc (Finset.mem_of_mem_erase (Finset.mem_of_mem_erase h))
    have hrest : ∑ x ∈ (s.erase a).erase b, w x * (if x = c then M - 1 else l2 x) = ∑ x ∈ (s.erase a).erase b, w x * l2 x :=
      Finset.sum_congr rfl fun x hx => by rw [if_neg (ne_of_mem_of_not_mem hx hcn)]
    simp only [if_true]
    rw [hrest]
    rw [← Finset.add_sum_erase s _ ha, ← Finset.add_sum_erase _ _ hb', hM] at cost2
    refine le_trans ?_ cost2
    obtain ⟨d, rfl⟩ : ∃ d, M = d + 1 := ⟨M - 1, by omega⟩
    have := Nat.mul_le_mul_left (w a) hba
    rw [Nat.add_sub_cancel]
    nlinarith

/-! ### The merge loop -/

/-- The weight of a node as a number. -/
def weightNat (node : List Node) (k : Nat) : Nat := (weightAt node k).toNat

/-- The weights of the internal nodes, added up. -/
def innerWeights (node : List Node) : Nat :=
  (node.map fun x => match x with | .leaf _ _ => 0 | .internal w _ _ => w.toNat).sum

/-- No weight of an internal node wraps. -/
def NoWrap (node : List Node) : Prop :=
  ∀ k w left right, node[k]? = some (Node.internal w left right) →
    left.toNat < k ∧ right.toNat < k ∧ w.toNat = weightNat node left.toNat + weightNat node right.toNat

theorem weightNat_append {node : List Node} {k : Nat} (h : k < node.length) (x : List Node) :
    weightNat (node ++ x) k = weightNat node k := by
  unfold weightNat; rw [weightAt_append h]

theorem weightNat_le_of_precedes {node : List Node} {x y : Nat} (h : precedes node x y = true) :
    weightNat node x ≤ weightNat node y := by
  rcases (precedes_iff _ _ _).1 h with h | ⟨h, _⟩
  · exact h.le
  · exact h.le

/-- What one merge does to the queue and the arena. -/
theorem Merging.mergeStep_eq {leaves node : List Node} {pq : List Nat} (h : Merging leaves node pq) (hpq : 2 ≤ pq.length) :
    ∃ a b, a ∈ pq ∧ b ∈ pq ∧ a ≠ b ∧ (∀ x ∈ pq, weightNat node a ≤ weightNat node x) ∧
      (∀ x ∈ pq, x ≠ a → weightNat node b ≤ weightNat node x) ∧
      mergeStep node pq = some
        (node ++ [.internal (weightAt node a + weightAt node b) (BitVec.ofNat 9 a) (BitVec.ofNat 9 b)],
          (pq.erase a).erase b ++ [node.length]) := by
  have hnd : pq.Nodup := (List.nodup_append.1 (h.owned.nodup_iff.2 List.nodup_range)).1
  cases ha : minMember node pq with
  | none => rw [(minMember_eq_none _ _).1 ha] at hpq; simp at hpq
  | some a =>
    obtain ⟨ha1, ha2⟩ := minMember_spec ha
    have hl1 : (pq.erase a).length + 1 = pq.length := by rw [List.length_erase_of_mem ha1]; omega
    cases hb : minMember node (pq.erase a) with
    | none => rw [(minMember_eq_none _ _).1 hb] at hl1; simp at hl1; omega
    | some b =>
      obtain ⟨hb1, hb2⟩ := minMember_spec hb
      have hba : b ≠ a := fun e => by subst e; exact (hnd.not_mem_erase) hb1
      refine ⟨a, b, ha1, List.mem_of_mem_erase hb1, hba.symm, fun x hx => ?_, fun x hx hxa => ?_, ?_⟩
      · rcases eq_or_ne x a with rfl | hne
        · exact le_rfl
        · exact weightNat_le_of_precedes (ha2 x hx hne)
      · rcases eq_or_ne x b with rfl | hne
        · exact le_rfl
        · exact weightNat_le_of_precedes (hb2 x ((List.mem_erase_of_ne hxa).2 hx) hne)
      · simp [mergeStep, extractMin, ha, hb]

/-- Huffman's theorem for the merge loop: the internal weights it adds are at most the cost of any lengths that Kraft
allows for the queue; and no weight wraps. -/
theorem mergeLoop_cost {leaves : List Node} (hsmall : leaves.length ≤ alphabet) (fuel : Nat) {node : List Node}
    {pq : List Nat} (h : Merging leaves node pq) (hpos : 1 ≤ pq.length) (hf : pq.length ≤ fuel + 1) (hw : NoWrap node)
    (hsum : ∑ x ∈ pq.toFinset, weightNat node x < 2 ^ 32) (l : Nat → Nat)
    (kraft : ∑ x ∈ pq.toFinset, (1 / 2 : ℚ) ^ l x ≤ 1) :
    NoWrap (mergeLoop fuel node pq).1 ∧
      innerWeights (mergeLoop fuel node pq).1 ≤ innerWeights node + ∑ x ∈ pq.toFinset, weightNat node x * l x := by
  induction fuel generalizing node pq l with
  | zero => exact ⟨hw, Nat.le_add_right _ _⟩
  | succ fuel ih =>
    rcases Nat.lt_or_ge pq.length 2 with h1 | h2
    · obtain ⟨a, rfl⟩ := List.length_eq_one_iff.1 (show pq.length = 1 by omega)
      have hnone : mergeStep node [a] = none := by simp [mergeStep, extractMin, minMember]
      simp only [mergeLoop, hnone]
      exact ⟨hw, Nat.le_add_right _ _⟩
    · obtain ⟨node', pq', he, hm, hl⟩ := h.step hsmall h2
      obtain ⟨a, b, ha, hb, hab, hwa, hwb, he'⟩ := h.mergeStep_eq h2
      have hlen : node.length < 511 := by have := h.total; simp only [alphabet] at hsmall; omega
      have hnd : pq.Nodup := (List.nodup_append.1 (h.owned.nodup_iff.2 List.nodup_range)).1
      have hlt : ∀ x ∈ pq, x < node.length := fun x hx => by
        have : x ∈ pq ++ childList node := List.mem_append_left _ hx
        rw [h.owned.mem_iff] at this; simpa using this
      rw [he'] at he
      simp only [Option.some.injEq, Prod.mk.injEq] at he
      obtain ⟨hn, hq⟩ := he
      have ta : (BitVec.ofNat 9 a).toNat = a := by have := hlt a ha; simp; omega
      have tb : (BitVec.ofNat 9 b).toNat = b := by have := hlt b hb; simp; omega
      have hset : pq'.toFinset = insert node.length ((pq.toFinset.erase a).erase b) := by
        ext x
        rw [← hq]
        simp only [List.mem_toFinset, List.mem_append, List.mem_singleton, Finset.mem_insert, Finset.mem_erase,
          (hnd.erase a).mem_erase_iff, hnd.mem_erase_iff]
        tauto
      have hc : node.length ∉ pq.toFinset := fun hx => by have := hlt _ (List.mem_toFinset.1 hx); omega
      have hcn : node.length ∉ (pq.toFinset.erase a).erase b :=
        fun hx => hc (Finset.mem_of_mem_erase (Finset.mem_of_mem_erase hx))
      have hold : ∀ x ∈ (pq.toFinset.erase a).erase b, weightNat node' x = weightNat node x := fun x hx => by
        rw [← hn, weightNat_append (hlt x (by simpa using (Finset.mem_of_mem_erase (Finset.mem_of_mem_erase hx))))]
      have hsum2 : weightNat node a + weightNat node b + ∑ x ∈ (pq.toFinset.erase a).erase b, weightNat node x =
          ∑ x ∈ pq.toFinset, weightNat node x := by
        rw [← Finset.add_sum_erase _ _ (List.mem_toFinset.2 ha),
          ← Finset.add_sum_erase _ _ (Finset.mem_erase.2 ⟨hab.symm, List.mem_toFinset.2 hb⟩)]
        omega
      have hnew : weightNat node' node.length = weightNat node a + weightNat node b := by
        rw [← hn]
        unfold weightNat at *
        rw [show weightAt (node ++ _) node.length = weightAt node a + weightAt node b by
          simp [weightAt, Node.weight], BitVec.toNat_add, Nat.mod_eq_of_lt (by omega)]
      have hw' : NoWrap node' := by
        intro k w left right hk
        rw [← hn] at hk ⊢
        rcases Nat.lt_or_ge k node.length with hk' | hk'
        · rw [List.getElem?_append_left hk'] at hk
          obtain ⟨h1, h2, h3⟩ := hw k w left right hk
          refine ⟨h1, h2, ?_⟩
          rw [weightNat_append (by omega), weightNat_append (by omega)]; exact h3
        · obtain rfl : k = node.length := by
            have := (List.getElem?_eq_some_iff.1 hk).1
            simp at this; omega
          rw [List.getElem?_concat_length] at hk
          simp only [Option.some.injEq, Node.internal.injEq] at hk
          obtain ⟨rfl, rfl, rfl⟩ := hk
          rw [ta, tb, weightNat_append (hlt a ha), weightNat_append (hlt b hb)]
          refine ⟨hlt a ha, hlt b hb, ?_⟩
          unfold weightNat at *
          rw [BitVec.toNat_add, Nat.mod_eq_of_lt (by omega)]
      obtain ⟨l', kraft', cost'⟩ := merge_lengths pq.toFinset (weightNat node) l (List.mem_toFinset.2 ha)
        (List.mem_toFinset.2 hb) hab (fun x hx => hwa x (List.mem_toFinset.1 hx))
        (fun x hx => hwb x (List.mem_toFinset.1 hx)) kraft hc
      have key := ih hm (by omega) (by omega) hw'
        (by rw [hset, Finset.sum_insert hcn, Finset.sum_congr rfl hold, hnew, hsum2]; exact hsum) l'
        (by rw [hset]; exact kraft')
      have hstep : mergeLoop (fuel + 1) node pq = mergeLoop fuel node' pq' := by
        simp only [mergeLoop, he', hn, hq]
      rw [hstep]
      refine ⟨key.1, key.2.trans ?_⟩
      have hinner : innerWeights node' = innerWeights node + (weightNat node a + weightNat node b) := by
        rw [← hnew, ← hn]
        simp [innerWeights, weightNat, weightAt, Node.weight]
      rw [hinner, hset, Finset.sum_insert hcn, hnew,
        Finset.sum_congr rfl (g := fun x => weightNat node x * l' x) (fun x hx => by rw [hold x hx])]
      omega

/-- Members that add nothing may be left out of a sum. -/
theorem sum_filter_of_zero (l : List Nat) (p : Nat → Bool) (f : Nat → Nat) (h : ∀ x ∈ l, p x = false → f x = 0) :
    ((l.filter p).map f).sum = (l.map f).sum := by
  induction l with
  | nil => rfl
  | cons x l ih =>
    have ih := ih fun y hy => h y (List.mem_cons_of_mem _ hy)
    cases hp : p x with
    | true => rw [List.filter_cons_of_pos hp, List.map_cons, List.sum_cons, ih, List.map_cons, List.sum_cons]
    | false => rw [List.filter_cons_of_neg (by simp [hp]), ih, List.map_cons, List.sum_cons, h x (by simp) hp, Nat.zero_add]

/-- BUILD's leaves weigh what the counts add up to (R136, R151). -/
theorem leavesOf_weights {count : List Word} (h : count.length = 256) :
    ((leavesOf count).map fun x => x.weight.toNat).sum = (count.map BitVec.toNat).sum := by
  rw [leavesOf_eq, List.map_map]
  rw [show ((fun x : Node => x.weight.toNat) ∘ fun sym => Node.leaf (BitVec.ofNat 8 sym) (count.getD sym 0)) =
    fun sym => (count.getD sym 0).toNat from rfl]
  rw [sum_filter_of_zero _ _ _ fun x _ hx => by
    rw [show count.getD x 0 = 0 by simpa using hx]; rfl]
  congr 1
  refine List.ext_getElem (by simp [h]) fun k h1 h2 => ?_
  simp only [List.length_map] at h2
  simp [List.getD_eq_getElem?_getD, h2]

/-! ### Kraft's inequality for a prefix code -/

/-- The codes that begin with a bit, without it. -/
def tailsOf (b : Bool) (cs : List (List Bool)) : List (List Bool) :=
  cs.filterMap fun p => match p with | [] => none | c :: q => if c = b then some q else none

theorem mem_tailsOf {b : Bool} {cs : List (List Bool)} {q : List Bool} : q ∈ tailsOf b cs ↔ (b :: q) ∈ cs := by
  unfold tailsOf
  rw [List.mem_filterMap]
  constructor
  · rintro ⟨p, hp, h⟩
    cases p with
    | nil => simp at h
    | cons c p =>
      simp only at h
      split at h
      · rename_i hcb; simp only [Option.some.injEq] at h; rw [← hcb, ← h]; exact hp
      · simp at h
  · intro h
    exact ⟨b :: q, h, by simp⟩

/-- Two codes neither of which begins the other. -/
def Apart (p q : List Bool) : Prop := ¬ p <+: q ∧ ¬ q <+: p

theorem tailsOf_pairwise {b : Bool} {cs : List (List Bool)} (h : cs.Pairwise Apart) : (tailsOf b cs).Pairwise Apart := by
  unfold tailsOf
  rw [List.pairwise_filterMap]
  refine h.imp fun {p q} hpq p' hp' q' hq' => ?_
  cases p with
  | nil => simp at hp'
  | cons c p =>
    cases q with
    | nil => simp at hq'
    | cons d q =>
      simp only [Option.ite_none_right_eq_some, Option.some.injEq] at hp' hq'
      obtain ⟨rfl, rfl⟩ := hp'
      obtain ⟨rfl, rfl⟩ := hq'
      simpa [Apart] using hpq

/-- Kraft's inequality, in integers. -/
theorem kraft_nat (n : Nat) (cs : List (List Bool)) (h : cs.Pairwise Apart) (hn : ∀ p ∈ cs, p.length ≤ n) :
    (cs.map fun p => 2 ^ (n - p.length)).sum ≤ 2 ^ n := by
  have single : ∀ cs : List (List Bool), cs.Pairwise Apart → [] ∈ cs → cs = [[]] := by
    intro cs h hm
    match cs, hm with
    | [p], hm => simp at hm; rw [hm]
    | p :: q :: cs, hm =>
      exfalso
      rw [List.pairwise_cons] at h
      rcases List.mem_cons.1 hm with e | hm'
      · exact (h.1 q (by simp)).1 (e ▸ List.nil_prefix)
      · exact (h.1 [] hm').2 List.nil_prefix
  induction n generalizing cs with
  | zero =>
    cases cs with
    | nil => simp
    | cons p cs =>
      have hp : p = [] := List.length_eq_zero_iff.1 (Nat.le_zero.1 (hn p (by simp)))
      rw [single (p :: cs) h (by simp [hp])]
      simp
  | succ n ih =>
    by_cases hm : [] ∈ cs
    · rw [single cs h hm]; simp
    · have hsplit : ∀ cs : List (List Bool), [] ∉ cs → (cs.map fun p => 2 ^ (n + 1 - p.length)).sum =
          ((tailsOf false cs).map fun p => 2 ^ (n - p.length)).sum + ((tailsOf true cs).map fun p => 2 ^ (n - p.length)).sum := by
        intro cs hm
        induction cs with
        | nil => rfl
        | cons p cs ihc =>
          have hm' : [] ∉ cs := fun h => hm (List.mem_cons_of_mem _ h)
          cases p with
          | nil => exact absurd (List.mem_cons_self ..) hm
          | cons c p =>
            have e : ∀ b, tailsOf b ((c :: p) :: cs) = if c = b then p :: tailsOf b cs else tailsOf b cs := fun b => by
              unfold tailsOf
              rw [List.filterMap_cons]
              split <;> simp_all
            rw [e, e, List.map_cons, List.sum_cons, ihc hm', List.length_cons, Nat.add_sub_add_right]
            cases c <;> simp <;> omega
      rw [hsplit cs hm, pow_succ]
      have h0 := ih _ (tailsOf_pairwise (b := false) h) fun q hq => by
        have := hn _ (mem_tailsOf.1 hq); simpa using this
      have h1 := ih _ (tailsOf_pairwise (b := true) h) fun q hq => by
        have := hn _ (mem_tailsOf.1 hq); simpa using this
      omega

/-- Kraft's inequality for a prefix code over the members of a list. -/
theorem kraft_prefix {xs : List Nat} (hnd : xs.Nodup) (code : Nat → List Bool)
    (h : ∀ x ∈ xs, ∀ y ∈ xs, x ≠ y → ¬ code x <+: code y) : ∑ x ∈ xs.toFinset, (1 / 2 : ℚ) ^ (code x).length ≤ 1 := by
  obtain ⟨m, hm⟩ : ∃ m, ∀ p ∈ xs.map code, p.length ≤ m :=
    ⟨((xs.map code).map List.length).sum, fun p hp => List.single_le_sum (by simp) _ (List.mem_map_of_mem hp)⟩
  have hp : (xs.map code).Pairwise Apart := by
    rw [List.pairwise_map]
    exact hnd.imp_of_mem fun {x y} hx hy hxy => ⟨h x hx y hy hxy, h y hy x hx hxy.symm⟩
  have key := kraft_nat m _ hp hm
  rw [List.map_map, ← List.sum_toFinset _ hnd] at key
  have h2 : (0 : ℚ) < 2 ^ m := by positivity
  refine le_of_mul_le_mul_right ?_ h2
  rw [Finset.sum_mul, one_mul]
  have key' : ((∑ x ∈ xs.toFinset, 2 ^ (m - (code x).length) : Nat) : ℚ) ≤ ((2 ^ m : Nat) : ℚ) := by exact_mod_cast key
  push_cast at key'
  refine le_trans (le_of_eq (Finset.sum_congr rfl fun x hx => ?_)) key'
  have := hm (code x) (List.mem_map_of_mem (by simpa using hx))
  obtain ⟨d, hd⟩ := Nat.exists_eq_add_of_le this
  rw [hd, Nat.add_sub_cancel_left, pow_add, ← mul_assoc, ← mul_pow]
  norm_num

/-! ### The cost of a tree -/

/-- The weight of a tree: its leaves' counts, added up. -/
def HTree.weightOf (c : Byte → Nat) : HTree → Nat
  | .leaf sym => c sym
  | .node l r => l.weightOf c + r.weightOf c

/-- The weighted path length of a tree. -/
def HTree.costOf (c : Byte → Nat) : HTree → Nat
  | .leaf _ => 0
  | .node l r => l.costOf c + r.costOf c + (l.weightOf c + r.weightOf c)

theorem HTree.leafPaths_cost (c : Byte → Nat) (t : HTree) (pre : List Bool) :
    ((t.leafPaths pre).map fun x => x.2.length * c x.1).sum = pre.length * t.weightOf c + t.costOf c := by
  induction t generalizing pre with
  | leaf s => simp [HTree.leafPaths, HTree.weightOf, HTree.costOf]
  | node l r hl hr =>
    simp only [HTree.leafPaths, List.map_append, List.sum_append, hl, hr, List.length_append, List.length_singleton,
      HTree.weightOf, HTree.costOf]
    ring

/-- A sum over the leaves of a tree by their bytes. -/
theorem HTree.leafPaths_sum (f : Byte → Nat) (t : HTree) : ((t.leafPaths []).map fun x => f x.1).sum = (t.leafSyms.map f).sum := by
  rw [← t.leafSyms_paths [], Multiset.map_coe, Multiset.sum_coe, List.map_map]
  rfl

/-- The weighted path length of an arena's tree is the sum of its internal weights. -/
theorem ArenaOk.cost {node : List Node} {leafCount nodeCount root : Nat} (h : ArenaOk node leafCount nodeCount root)
    (hw : NoWrap node) (c : Byte → Nat) (hc : ∀ sym w, Node.leaf sym w ∈ node → w.toNat = c sym) {t : HTree}
    (ht : treeOf node root = some t) : t.costOf c = innerWeights node := by
  have hlen : root + 1 = node.length := by rw [h.size, h.rootLast]
  have total : ∀ k, k < node.length → ∃ t, treeFrom node node.length k = some t := fun k hk => by
    obtain ⟨t, ht⟩ := treeFrom_total h.nodes hk
    exact ⟨t, treeFrom_fuel ht (by omega)⟩
  have hweight : ∀ fuel k t, treeFrom node fuel k = some t → t.weightOf c = weightNat node k := by
    intro fuel
    induction fuel with
    | zero => intro k t ht; simp [treeFrom] at ht
    | succ fuel ih =>
      intro k t ht
      rcases treeFrom_cases ht with ⟨sym, w, hx, rfl⟩ | ⟨w, left, right, l, r, hx, hl, hr, rfl⟩
      · rw [HTree.weightOf, ← hc sym w (List.mem_of_getElem? hx)]
        simp [weightNat, weightAt, hx, Node.weight]
      · rw [HTree.weightOf, ih _ _ hl, ih _ _ hr, ← (hw k w left right hx).2.2]
        simp [weightNat, weightAt, hx, Node.weight]
  have key := root_eq_sum node root (fun k => ((treeFrom node node.length k).map (HTree.costOf c)).getD 0)
    (fun x => match x with | .leaf _ _ => 0 | .internal w _ _ => w.toNat) hlen h.owner (fun k hk => by
      obtain ⟨t, ht⟩ := total k hk
      obtain ⟨n, hn⟩ : ∃ n, node.length = n + 1 := ⟨root, by omega⟩
      have ht' := ht
      rw [hn] at ht'
      rcases treeFrom_cases ht' with ⟨sym, w, hx, rfl⟩ | ⟨w, left, right, l, r, hx, hl, hr, rfl⟩
      · rw [List.getElem?_eq_getElem hk, Option.some.injEq] at hx
        simp [ht, hx, Node.children, HTree.costOf]
      · have hl' := treeFrom_fuel hl (show n ≤ node.length by omega)
        have hr' := treeFrom_fuel hr (show n ≤ node.length by omega)
        have h3 := (hw k w left right hx).2.2
        rw [List.getElem?_eq_getElem hk, Option.some.injEq] at hx
        simp only [ht, hx, Node.children, List.map_cons, List.map_nil, List.sum_cons, List.sum_nil, hl', hr', Option.map_some,
          Option.getD_some, HTree.costOf, hweight _ _ _ hl, hweight _ _ _ hr, h3]
        omega)
  have e : treeFrom node node.length root = some t := ht
  simp only [e, Option.map_some, Option.getD_some] at key
  exact key

/-- BUILD's tree costs no more than any code lengths that Kraft's inequality allows for the bytes that occur; and its
leaves are those bytes. -/
theorem build_cost_le {s t : State} {T : HTree} (hv : s.flags.freqValid = true)
    (hcnt : CountsOk s.count s.total.toNat s.cfg.inCap) (he : exec .build s = .next t) (hT : t.tree = some T) (len : Byte → Nat)
    (kraft : ∑ x ∈ ((List.range 256).filter fun sym => s.count.getD sym 0 != 0).toFinset, (1 / 2 : ℚ) ^ len (BitVec.ofNat 8 x) ≤ 1) :
    ((T.leafPaths []).map fun x => x.2.length * (s.count.getD x.1.toNat 0).toNat).sum ≤
      ((T.leafPaths []).map fun x => len x.1 * (s.count.getD x.1.toNat 0).toNat).sum := by
  have hne := leavesOf_ne_nil hcnt
  obtain ⟨node, r, hloop, hstart, harena, _⟩ := mergeLoop_arena hne
  obtain ⟨node', r', he', hstart', harena', _⟩ := exec_build hv hne
  -- the arena of `exec` is the merge loop's
  have hbody : t.node = node ∧ t.root.toNat = r := by
    have hb : buildBody (startCommand (encode .build) 0 s) = .done ((startCommand (encode .build) 0 s).clearTree.installTree node (leavesOf s.count).length r) := by
      unfold buildBody
      simp only [startCommand_count]
      rw [hloop]
      simp [extractMin, minMember]
    have h2 : exec .build s = .next (completeCommand ((startCommand (encode .build) 0 s).clearTree.installTree node (leavesOf s.count).length r)) :=
      runCommand_done (i := .build) (by simp [missingFlag, hv]) hb
    rw [h2] at he; cases he
    refine ⟨rfl, ?_⟩
    exact (treeInstalled_arena (i := .build) (s := s) harena).2.2
  have hT' : treeOf node r = some T := by rw [← hbody.1, ← hbody.2]; exact hT
  generalize hL : leavesOf s.count = leaves at *
  have hleq : leaves = ((List.range 256).filter fun sym => s.count.getD sym 0 != 0).map (fun sym => Node.leaf (BitVec.ofNat 8 sym) (s.count.getD sym 0)) := by
    rw [← hL]; exact leavesOf_eq _
  have hisleaf : ∀ x ∈ leaves, x.isLeaf = true := by rw [← hL]; exact leavesOf_isLeaf _
  -- the symbol of a leaf
  generalize hS : (List.range 256).filter (fun sym => s.count.getD sym 0 != 0) = S at *
  have hSlt : ∀ x ∈ S, x < 256 ∧ s.count.getD x 0 ≠ 0 := fun x hx => by
    rw [← hS] at hx; simpa using hx
  have hSnd : S.Nodup := by rw [← hS]; exact List.nodup_range.filter _
  have hlen : leaves.length = S.length := by rw [hleq, List.length_map]
  let symOf : Nat → Byte := fun k => BitVec.ofNat 8 (S.getD k 0)
  let l : Nat → Nat := fun k => len (symOf k)
  have symNat : ∀ k (h : k < S.length), (symOf k).toNat = S[k] := fun k h => by
    have := (hSlt S[k] (List.getElem_mem h)).1
    simp [symOf, List.getD_eq_getElem?_getD, h]; omega
  have hsumS : ∀ {M : Type} [AddCommMonoid M] (f : Byte → M), ∑ x ∈ (List.range leaves.length).toFinset, f (symOf x) =
      (S.map fun x => f (BitVec.ofNat 8 x)).sum := fun f => by
    rw [List.sum_toFinset _ List.nodup_range, hlen]
    congr 1
    refine List.ext_getElem (by simp) fun k h1 h2 => ?_
    simp only [List.length_map, List.length_range] at h1
    simp [symOf, List.getD_eq_getElem?_getD, h1]
  have hkraft : ∑ x ∈ (List.range leaves.length).toFinset, (1 / 2 : ℚ) ^ l x ≤ 1 := by
    rw [hsumS fun b => (1 / 2 : ℚ) ^ len b, ← List.sum_toFinset _ hSnd]
    exact kraft
  have hw : ∀ k (h : k < S.length), weightNat leaves k = (s.count.getD (symOf k).toNat 0).toNat := fun k h => by
    rw [symNat k h]
    simp [weightNat, weightAt, hleq, h, Node.weight]
  have hcount : ∑ x ∈ (List.range leaves.length).toFinset, weightNat leaves x = s.total.toNat := by
    have e1 : ∑ x ∈ (List.range leaves.length).toFinset, weightNat leaves x = (leaves.map fun x => x.weight.toNat).sum := by
      rw [List.sum_toFinset _ List.nodup_range]
      congr 1
      refine List.ext_getElem (by simp) fun k h1 h2 => ?_
      simp only [List.length_map, List.length_range] at h1
      simp [weightNat, weightAt, h1]
    rw [e1, ← hL, leavesOf_weights hcnt.size, hcnt.sum]
  have hnw : NoWrap leaves := fun k w left right hk => by
    have := hisleaf _ (List.mem_of_getElem? hk)
    simp [Node.isLeaf] at this
  obtain ⟨nw, hcost⟩ := mergeLoop_cost (by rw [← hL]; exact leavesOf_length_le _) leaves.length (Merging.init leaves hisleaf)
    (by simp; exact List.length_pos_of_ne_nil hne) (by simp) hnw (by rw [hcount]; exact s.total.isLt) l hkraft
  rw [hloop] at nw hcost
  simp only at nw hcost
  have hinner0 : innerWeights leaves = 0 := by
    unfold innerWeights
    refine List.sum_eq_zero fun m hm => ?_
    obtain ⟨x, hx, rfl⟩ := List.mem_map.1 hm
    have := hisleaf x hx
    cases x with
    | leaf => rfl
    | internal => simp [Node.isLeaf] at this
  let c : Byte → Nat := fun b => (s.count.getD b.toNat 0).toNat
  have hleafc : ∀ sym w, Node.leaf sym w ∈ node → w.toNat = c sym := by
    intro sym w hm
    obtain ⟨rest, rfl⟩ := hstart
    have hcnt2 := harena.leaves
    rw [List.countP_append, List.countP_eq_length.2 hisleaf] at hcnt2
    have : rest.countP Node.isLeaf = 0 := by omega
    rw [List.countP_eq_zero] at this
    rcases List.mem_append.1 hm with h | h
    · rw [hleq] at h
      obtain ⟨x, hx, e⟩ := List.mem_map.1 h
      simp only [Node.leaf.injEq] at e
      obtain ⟨rfl, rfl⟩ := e
      have := (hSlt x hx).1
      simp [c, Nat.mod_eq_of_lt this]
    · have := this _ h; simp [Node.isLeaf] at this
  have hc1 := T.leafPaths_cost c []
  rw [harena.cost nw c hleafc hT'] at hc1
  simp only [List.length_nil, Nat.zero_mul, Nat.zero_add] at hc1
  rw [show ((T.leafPaths []).map fun x => x.2.length * (s.count.getD x.1.toNat 0).toNat).sum = innerWeights node from hc1]
  rw [hinner0, Nat.zero_add] at hcost
  refine hcost.trans (le_of_eq ?_)
  have hrhs := T.leafPaths_sum (fun b => len b * c b)
  have hsy := leafSyms_of_counts (count := s.count) (by rw [hL]; exact harena) (by rw [hL]; exact hstart) hT'
  rw [hS] at hsy
  rw [show ((T.leafPaths []).map fun x => len x.1 * (s.count.getD x.1.toNat 0).toNat).sum = _ from hrhs, hsy,
    Multiset.map_coe, Multiset.sum_coe, List.map_map]
  rw [show ((fun b => len b * c b) ∘ BitVec.ofNat 8) = fun x => (fun b => len b * c b) (BitVec.ofNat 8 x) from rfl, ← hsumS (fun b => len b * c b)]
  refine Finset.sum_congr rfl fun x hx => ?_
  have hx' : x < S.length := by rw [← hlen]; simpa using hx
  rw [hw x hx', Nat.mul_comm]

end Sys2Proof.Machine
end

