-- ==== Sys2Proof/Laws/Sequences.lean ====
section
/-! SUPPORT. The host's sequences (47_control.md R236 to R239): what loading a window does, and the file's bytes. -/

namespace Sys2Proof.Machine

/-! ### The file as bytes (R103) -/

@[simp] theorem leBytes_length (n v : Nat) : (leBytes n v).length = n := by
  induction n generalizing v with
  | zero => rfl
  | succ n ih => simp [leBytes, ih]

/-- A number comes back from its bytes. -/
theorem leNumber_leBytes (n v : Nat) (h : v < 256 ^ n) : leNumber (leBytes n v) = v := by
  induction n generalizing v with
  | zero => simp at h; simp [leBytes, leNumber, h]
  | succ n ih =>
    rw [leBytes, leNumber, ih (v / 256) (by rw [Nat.pow_succ] at h; omega)]
    simp
    omega

/-- Elements come back from their bytes, whatever follows. -/
theorem splitElements_flatMap (size : Nat) (vs : List Nat) (rest : List Byte) (h : ∀ v ∈ vs, v < 256 ^ size) :
    splitElements size vs.length (vs.flatMap (leBytes size) ++ rest) = vs := by
  induction vs with
  | nil => rfl
  | cons v vs ih =>
    rw [List.length_cons, splitElements, List.flatMap_cons, List.append_assoc, if_neg (by simp)]
    rw [List.take_left' (leBytes_length _ _), List.drop_left' (leBytes_length _ _),
      leNumber_leBytes _ _ (h v (by simp)), ih fun w hw => h w (by simp [hw])]

theorem length_flatMap_leBytes (size : Nat) (vs : List Nat) : (vs.flatMap (leBytes size)).length = size * vs.length := by
  induction vs with
  | nil => rfl
  | cons v vs ih => simp [ih, Nat.mul_succ, Nat.add_comm]

/-- A well-formed file is read back from its bytes (R103, R238, R239). -/
theorem parseFile_bytes (f : CompressedFile) (ht : f.treeTokenCount.toNat = f.treeTokens.length)
    (hw : f.packedWords.length = wordsFor f.totalBitCount.toNat) : parseFile f.bytes = some f := by
  have e1 : f.treeTokens.flatMap (fun t => leBytes 2 t.toNat) = (f.treeTokens.map BitVec.toNat).flatMap (leBytes 2) := by
    rw [List.flatMap_map]
  have e2 : f.packedWords.flatMap (fun t => leBytes 4 t.toNat) = (f.packedWords.map BitVec.toNat).flatMap (leBytes 4) := by
    rw [List.flatMap_map]
  have l1 := length_flatMap_leBytes 2 (f.treeTokens.map BitVec.toNat)
  have l2 := length_flatMap_leBytes 4 (f.packedWords.map BitVec.toNat)
  rw [List.length_map] at l1 l2
  unfold parseFile CompressedFile.bytes
  rw [e1, e2]
  generalize hA : (f.treeTokens.map BitVec.toNat).flatMap (leBytes 2) = A at *
  generalize hB : (f.packedWords.map BitVec.toNat).flatMap (leBytes 4) = B at *
  have q64 : ∀ q : Quad, leNumber (leBytes 8 q.toNat) = q.toNat := fun q => leNumber_leBytes _ _ q.isLt
  simp only [List.append_assoc]
  rw [if_neg (by simp), List.take_left' (leBytes_length _ _), List.drop_left' (leBytes_length _ _), q64, ht]
  rw [if_neg (by simp [l1]), List.drop_left' l1, List.take_left' (leBytes_length _ _), q64]
  have hd : (A ++ (leBytes 8 f.totalBitCount.toNat ++ B)).drop (2 * f.treeTokens.length + 8) = B := by
    rw [← List.drop_drop, List.drop_left' l1, List.drop_left' (leBytes_length _ _)]
  rw [hd, ← hw]
  have s1 := splitElements_flatMap 2 (f.treeTokens.map BitVec.toNat) (leBytes 8 f.totalBitCount.toNat ++ B)
    (fun v hv => by obtain ⟨t, _, rfl⟩ := List.mem_map.1 hv; exact t.isLt)
  have s2 := splitElements_flatMap 4 (f.packedWords.map BitVec.toNat) []
    (fun v hv => by obtain ⟨t, _, rfl⟩ := List.mem_map.1 hv; exact t.isLt)
  rw [List.length_map] at s1 s2
  rw [hA] at s1
  rw [hB, List.append_nil] at s2
  rw [s1, s2]
  have t1 : (f.treeTokens.map BitVec.toNat).map (BitVec.ofNat 16) = f.treeTokens := by simp [Function.comp_def]
  have t2 : (f.packedWords.map BitVec.toNat).map (BitVec.ofNat 32) = f.packedWords := by simp [Function.comp_def]
  rw [t1, t2, ← ht]
  simp

/-! ### Loading a window (R105) -/

/-- Consecutive words from an address upward. -/
def Memory.setWords : Memory → Nat → List Word → Memory
  | m, _, [] => m
  | m, a, v :: vs => Memory.setWords (m.setWord a v) (a + 4) vs

theorem Memory.get_setWords (m : Memory) (a : Nat) (vs : List Word) (x : Nat) :
    (m.setWords a vs).get x =
      if a ≤ x ∧ x < a + 4 * vs.length then some (byteOf (vs.getD ((x - a) / 4) 0) ((x - a) % 4)) else m.get x := by
  induction vs generalizing m a with
  | nil => rw [if_neg (by simp only [List.length_nil]; omega)]; rfl
  | cons v vs ih =>
    rw [Memory.setWords, ih, Memory.get_setWord, List.length_cons]
    by_cases h1 : a + 4 ≤ x ∧ x < a + 4 + 4 * vs.length
    · rw [if_pos h1, if_pos (by omega), show (x - a) / 4 = (x - (a + 4)) / 4 + 1 by omega,
        show (x - a) % 4 = (x - (a + 4)) % 4 by omega]
      rfl
    · rw [if_neg h1]
      by_cases h2 : a ≤ x ∧ x < a + 4
      · rw [if_pos h2, if_pos (by omega), show (x - a) / 4 = 0 by omega, show (x - a) % 4 = x - a by omega]
        rfl
      · rw [if_neg h2, if_neg (by omega)]

theorem loadLines_cons (a : Nat) (v : Word) (vs : List Word) :
    loadLines a (v :: vs) = .wr a v :: loadLines (a + 4) vs := by
  unfold loadLines
  rw [List.mapIdx_cons]
  simp only [Nat.mul_zero, Nat.add_zero, List.cons.injEq, true_and]
  congr 1
  funext k w
  congr 1
  omega

/-- A line that writes (R105). -/
theorem runLines_wr {a : Nat} {v : Word} {s t : State} (h : hostWrite s a v = some t) (ls : List HostLine) :
    runLines (.wr a v :: ls) s = runLines ls (answer .okWrite t) := by
  simp [runLines, runLine, performAccess, h, HostLine.failed]

/-- Loading words into `IN_BUF` or `PAY_BUF` (R65, R68). -/
theorem runLines_load (base : Nat) (vs : List Word) (rest : List HostLine) (s : State) (hI : s.Inv)
    (h : ∀ (t : State) k v, t.cfg = s.cfg → k < vs.length →
      hostWrite t (base + 4 * k) v = some { t with mem := t.mem.setWord (base + 4 * k) v }) :
    ∃ r, runLines (loadLines base vs ++ rest) s =
        runLines rest { s with mem := s.mem.setWords base vs, replies := r } ∧
      ({ s with mem := s.mem.setWords base vs, replies := r } : State).Inv := by
  induction vs generalizing base s with
  | nil => exact ⟨s.replies, rfl, { hI with }⟩
  | cons v vs ih =>
    have h0 := h s 0 v rfl (by simp)
    simp only [Nat.mul_zero, Nat.add_zero] at h0
    have hI' : (answer .okWrite { s with mem := s.mem.setWord base v }).Inv := { hI.write h0 with }
    obtain ⟨r, hr, hri⟩ := ih (base + 4) _ hI' (fun t k w ht hk => by
      have := h t (k + 1) w ht (by simpa using hk)
      rwa [show base + 4 * (k + 1) = base + 4 + 4 * k by omega] at this)
    refine ⟨r, ?_, ?_⟩
    · rw [loadLines_cons, List.cons_append, runLines_wr h0, hr]; rfl
    · exact { hri with }

/-- Loading tokens into `TOK_BUF` (R67); of an odd number the last word also writes the cell after them, if there is one. -/
theorem runLines_loadTokens (ts : List Token) (j : Nat) (rest : List HostLine) (s : State) (hI : s.Inv)
    (hj : 2 * j + ts.length ≤ tokCap) :
    ∃ r m, runLines (loadLines (tokBase + 4 * j) (packTokens ts) ++ rest) s =
        runLines rest { s with mem := m, replies := r } ∧ ({ s with mem := m, replies := r } : State).Inv ∧
      (∀ x, x < tokBase ∨ tokBase + 2 * tokCap ≤ x → m.get x = s.mem.get x) ∧
      ∀ x, x < tokBase + 2 * (2 * j + ts.length) → m.get x = (s.mem.setTokens (2 * j) ts).get x := by
  have write : ∀ (t : State) v, 2 * j < tokCap → hostWrite t (tokBase + 4 * j) v = some { t with
      mem := (t.mem.setToken (2 * j) (v.extractLsb' 0 16)).setToken (2 * j + 1) (v.extractLsb' 16 16) } := fun t v hlt => by
    unfold hostWrite
    rw [locate_tok _ (show j < 256 by unfold tokCap at hlt; omega)]
    rfl
  match ts with
  | [] => exact ⟨s.replies, s.mem, rfl, { hI with }, fun _ _ => rfl, fun _ _ => rfl⟩
  | [t0] =>
    simp only [List.length_singleton] at hj
    have hw := write s ((0 : Token) ++ t0) (by omega)
    have lo : ((0 : Token) ++ t0 : Word).extractLsb' 0 16 = t0 := by
      refine BitVec.eq_of_getLsbD_eq fun i hi => ?_
      simp only [BitVec.getLsbD_extractLsb', BitVec.getLsbD_append]
      simp [hi]
    refine ⟨s.replies ++ [.okWrite], _, ?_, { hI.write hw with }, fun x hx => ?_, fun x hx => ?_⟩
    · rw [packTokens, loadLines_cons, List.cons_append, runLines_wr hw,
        show loadLines (tokBase + 4 * j + 4) [] = [] by rfl, List.nil_append]; rfl
    · simp only [Memory.get_setToken_outside _ _ _ (show x < tokBase ∨ tokBase + 2 * tokCap ≤ x from hx)]
    · simp only [List.length_singleton] at hx
      rw [lo, Memory.get_setToken, if_neg (by omega), if_neg (by omega)]
      rfl
  | t0 :: t1 :: ts =>
    simp only [List.length_cons] at hj
    have hw := write s (t1 ++ t0) (by omega)
    have lo : (t1 ++ t0 : Word).extractLsb' 0 16 = t0 := by
      refine BitVec.eq_of_getLsbD_eq fun i hi => ?_
      simp only [BitVec.getLsbD_extractLsb', BitVec.getLsbD_append]
      simp [hi]
    have hi : (t1 ++ t0 : Word).extractLsb' 16 16 = t1 := by
      refine BitVec.eq_of_getLsbD_eq fun i hi => ?_
      simp only [BitVec.getLsbD_extractLsb', BitVec.getLsbD_append]
      simp [hi]
    rw [lo, hi] at hw
    obtain ⟨r, m, h1, h2, h3, h4⟩ := runLines_loadTokens ts (j + 1) rest
      (answer .okWrite { s with mem := (s.mem.setToken (2 * j) t0).setToken (2 * j + 1) t1 }) { hI.write hw with } (by omega)
    refine ⟨r, m, ?_, { h2 with }, fun x hx => ?_, fun x hx => ?_⟩
    · rw [packTokens, loadLines_cons, List.cons_append, runLines_wr hw,
        show tokBase + 4 * j + 4 = tokBase + 4 * (j + 1) by omega, h1]; rfl
    · rw [h3 x hx]
      simp only [answer, Memory.get_setToken_outside _ _ _ hx]
    · simp only [List.length_cons] at hx
      rw [h4 x (by omega)]
      rfl

/-- The bytes of packed bytes (R65). -/
theorem packBytes_spec (x : List Byte) : (packBytes x).length = (x.length + 3) / 4 ∧
    ∀ j, j < x.length → byteOf ((packBytes x).getD (j / 4) 0) (j % 4) = x.getD j 0 := by
  induction x using packBytes.induct with
  | case1 => exact ⟨rfl, fun j hj => by simp at hj⟩
  | case2 b0 =>
    refine ⟨by simp [packBytes], fun j hj => ?_⟩
    obtain rfl : j = 0 := by simp at hj; omega
    simp [packBytes, byteOf_wordOf]
  | case3 b0 b1 =>
    refine ⟨by simp [packBytes], fun j hj => ?_⟩
    obtain rfl | rfl : j = 0 ∨ j = 1 := by simp at hj; omega
    all_goals simp [packBytes, byteOf_wordOf]
  | case4 b0 b1 b2 =>
    refine ⟨by simp [packBytes], fun j hj => ?_⟩
    obtain rfl | rfl | rfl : j = 0 ∨ j = 1 ∨ j = 2 := by simp at hj; omega
    all_goals simp [packBytes, byteOf_wordOf]
  | case5 b0 b1 b2 b3 bs ih =>
    refine ⟨by simp [packBytes, ih.1]; omega, fun j hj => ?_⟩
    simp only [List.length_cons] at hj
    rcases Nat.lt_or_ge j 4 with h | h
    · obtain rfl | rfl | rfl | rfl : j = 0 ∨ j = 1 ∨ j = 2 ∨ j = 3 := by omega
      all_goals simp [packBytes, byteOf_wordOf]
    · obtain ⟨k, rfl⟩ : ∃ k, j = k + 4 := ⟨j - 4, by omega⟩
      have := ih.2 k (by omega)
      rw [packBytes, show (k + 4) / 4 = k / 4 + 1 by omega, show (k + 4) % 4 = k % 4 by omega, List.getD_cons_succ, this]
      rfl

/-- Writing `TOK_COUNT` as two words (R105). -/
theorem runLines_tokCount (q : Quad) (ls : List HostLine) (s : State) (hI : s.Inv) :
    ∃ r, runLines (quadLines tokCountAddr q ++ ls) s = runLines ls { s with tokCount := q, replies := r } ∧
      ({ s with tokCount := q, replies := r } : State).Inv := by
  refine ⟨s.replies ++ [.okWrite] ++ [.okWrite], ?_, { hI with }⟩
  have w1 : hostWrite s tokCountAddr (q.extractLsb' 0 32) =
    some { s with tokCount := withLo s.tokCount (q.extractLsb' 0 32) } := rfl
  rw [quadLines, List.cons_append, runLines_wr w1]
  have w2 : ∀ t : State, hostWrite t (tokCountAddr + 4) (q.extractLsb' 32 32) =
    some { t with tokCount := withHi t.tokCount (q.extractLsb' 32 32) } := fun _ => rfl
  rw [List.cons_append, runLines_wr (w2 _), List.nil_append]
  simp only [answer, withHi_withLo]

/-- Writing `BIT_COUNT` as two words (R105). -/
theorem runLines_bitCount (q : Quad) (ls : List HostLine) (s : State) (hI : s.Inv) :
    ∃ r, runLines (quadLines bitCountAddr q ++ ls) s = runLines ls { s with bitCount := q, replies := r } ∧
      ({ s with bitCount := q, replies := r } : State).Inv := by
  refine ⟨s.replies ++ [.okWrite] ++ [.okWrite], ?_, { hI with }⟩
  have w1 : hostWrite s bitCountAddr (q.extractLsb' 0 32) =
    some { s with bitCount := withLo s.bitCount (q.extractLsb' 0 32) } := rfl
  rw [quadLines, List.cons_append, runLines_wr w1]
  have w2 : ∀ t : State, hostWrite t (bitCountAddr + 4) (q.extractLsb' 32 32) =
    some { t with bitCount := withHi t.bitCount (q.extractLsb' 32 32) } := fun _ => rfl
  rw [List.cons_append, runLines_wr (w2 _), List.nil_append]
  simp only [answer, withHi_withLo]

/-- Writing `PAY_WORDS`. -/
theorem runLines_payWords (v : Word) (ls : List HostLine) (s : State) (hI : s.Inv) :
    ∃ r, runLines (.wr payWordsAddr v :: ls) s = runLines ls { s with payWords := v, replies := r } ∧
      ({ s with payWords := v, replies := r } : State).Inv := by
  have w1 : hostWrite s payWordsAddr v = some { s with payWords := v } := rfl
  exact ⟨_, runLines_wr w1 ls, { hI with }⟩

/-- Writing `IN_LEN`. -/
theorem runLines_inLen (v : Word) (ls : List HostLine) (s : State) (hI : s.Inv) :
    ∃ r, runLines (.wr inLenAddr v :: ls) s = runLines ls { s with inLen := v, replies := r } ∧
      ({ s with inLen := v, replies := r } : State).Inv := by
  have w1 : hostWrite s inLenAddr v = some { s with inLen := v } := rfl
  exact ⟨_, runLines_wr w1 ls, { hI with }⟩

/-- The state a command line runs its command from. -/
def issued (i : Instr) (s : State) : State := answer .okWrite (issueCommand (encode i) s)

theorem issued_carries (i : Instr) (s : State) : Carries s (issued i s) := Carries.issue _ _ _

/-- A command line (R105): the sequence goes on when the command succeeded (R236). -/
theorem runLines_command {i : Instr} {s t : State} (h : exec i (issued i s) = .next t) (ls : List HostLine) :
    runLines (.command i :: ls) s = if t.flags.err then .next t else runLines ls t := by
  simp only [runLines, runLine]
  rw [show exec i (answer .okWrite (issueCommand (encode i) s)) = .next t from h]
  rfl

/-- DESERIALIZE of the tokens of a tree: the tree. -/
theorem deserialize_ser {s : State} {T : HTree} (hI : s.Inv) (hcap : T.ser.length ≤ tokCap)
    (hn : s.tokCount.toNat = T.ser.length) (ht : s.tokens = T.ser) :
    ∃ t, exec .deserialize s = .next t ∧ t.flags.err = false ∧ t.Inv ∧ t.flags.treeValid = true ∧ t.tree = some T ∧
      t.cfg = s.cfg ∧ t.mem = s.mem ∧ t.powerCycle = s.powerCycle ∧ t.bitCount = s.bitCount ∧ t.payWords = s.payWords := by
  rcases exec_deserialize (s := s) (by omega) with ⟨T2, d, r, e1, e2, e3, _, _, e6⟩ | ⟨n, e1, e2, _⟩ | ⟨n, _, e2, e3, _⟩
  · rw [ht] at e1
    obtain rfl := HTree.ser_injective e1
    obtain ⟨_, _, a3⟩ := treeInstalled_arena (i := .deserialize) (s := s) e3
    exact ⟨_, e6, rfl, hI.exec e6, rfl, by unfold State.tree; rw [a3]; exact e2, rfl, rfl, rfl, rfl, rfl⟩
  · rw [ht] at e1
    have := tokenDepth_ser T [] 0
    rw [List.append_nil] at this
    rw [this] at e1
    simp only [tokenDepth, Option.some.injEq] at e1
    omega
  · rw [ht] at e2 e3
    have h2 := tokenDepth_ser T [] 0
    rw [List.append_nil, ← List.take_append_drop (n + 1) T.ser, tokenDepth_append, e3] at h2
    simp [tokenDepth] at h2

/-! ### The sequences (R236, R237) -/

theorem lengthWord_toNat {n : Nat} (h : n < 2 ^ 32) : (lengthWord n).toNat = n := by
  simp only [lengthWord, BitVec.toNat_ofNat]
  omega

/-- A number that is above a capacity is written as one that is (R27, R30). -/
theorem lt_lengthWord {n c : Nat} (hc : c ≤ capLimit) (h : c < n) : c < (lengthWord n).toNat := by
  simp only [lengthWord, BitVec.toNat_ofNat]
  unfold capLimit at hc
  omega

/-- No code of a byte is longer than 255 bits. -/
theorem codes_short {T : HTree} {code : Byte → List Bool} (hT : T.leafCount ≤ 256) (x : List Byte)
    (h : ∀ b ∈ x, T.follow (code b) = some (.leaf b)) : (x.flatMap code).length ≤ 255 * x.length := by
  induction x with
  | nil => simp
  | cons b x ih =>
    have h1 := HTree.follow_length (h b (by simp))
    have h2 := ih fun c hc => h c (by simp [hc])
    simp only [List.flatMap_cons, List.length_append, List.length_cons]
    omega

/-- The loads of COMPRESS (R236): its commands then run on a block that holds the input and its length. -/
theorem compress_loaded (x : List Byte) (s : State) (h : s.Inv) :
    ∃ b, runLines (compressLines s.cfg x) s =
        runLines [.command .freq, .command .build, .command .gencodes, .command .serialize, .command .encode] b ∧
      b.Inv ∧ b.cfg = s.cfg ∧ b.inLen = lengthWord x.length ∧ (x.length ≤ s.cfg.inCap → b.input = x) := by
  have hc := (Config.wf_iff _).1 h.params
  obtain ⟨hpl, hpb⟩ := packBytes_spec (x.take s.cfg.inCap)
  rw [List.length_take] at hpl hpb
  obtain ⟨r, hr, hri⟩ := runLines_load inBase (packBytes (x.take s.cfg.inCap))
    (.wr inLenAddr (lengthWord x.length) ::
      [.command .freq, .command .build, .command .gencodes, .command .serialize, .command .encode]) s h (fun t k v ht hk => by
      unfold hostWrite
      rw [locate_inBuf (by rw [ht]; exact h.params) (by rw [ht]; omega)]; rfl)
  obtain ⟨r2, hr2, hi2⟩ := runLines_inLen (lengthWord x.length)
    [.command .freq, .command .build, .command .gencodes, .command .serialize, .command .encode] _ hri
  refine ⟨_, ?_, hi2, rfl, rfl, fun hx => ?_⟩
  · rw [compressLines, List.append_assoc, List.cons_append, List.nil_append, hr, hr2]
  · have hlen : (lengthWord x.length).toNat = x.length := lengthWord_toNat (by omega)
    refine List.ext_getElem (by rw [State.input_length]; exact hlen) fun j h1 h2 => ?_
    simp only [State.input, List.getElem_map, List.getElem_range]
    refine State.byteAt_of_get ?_
    show (s.mem.setWords inBase _).get (inBase + j) = _
    rw [Memory.get_setWords, if_pos (by omega), Nat.add_sub_cancel_left, hpb j (by omega), List.take_of_length_le hx]
    simp [List.getD_eq_getElem?_getD, h2]

/-- The first half of DECOMPRESS (R237): the tokens are loaded and the tree rebuilt. -/
theorem decompress_tokens (u : State) (h : u.Inv) (T : HTree) (q : Quad) (ls : List HostLine) (h256 : T.leafCount ≤ 256)
    (hq : q.toNat = T.ser.length) :
    ∃ t, runLines (loadLines tokBase (packTokens T.ser) ++ (quadLines tokCountAddr q ++ (.command .deserialize :: ls))) u =
      runLines ls t ∧ t.Inv ∧ t.flags.treeValid = true ∧ t.tree = some T ∧ t.cfg = u.cfg := by
  have sl := T.ser_length
  have htc : T.ser.length ≤ tokCap := by unfold tokCap; omega
  obtain ⟨r, m, h1, hi1, hout, hin⟩ := runLines_loadTokens T.ser 0 (quadLines tokCountAddr q ++ (.command .deserialize :: ls)) u h (by omega)
  simp only [Nat.mul_zero, Nat.add_zero, Nat.zero_add] at h1 hin
  obtain ⟨r2, h2, hi2⟩ := runLines_tokCount q (.command .deserialize :: ls) _ hi1
  rw [h1, h2]
  generalize hu3 : ({ ({ u with mem := m, replies := r } : State) with tokCount := q, replies := r2 } : State) = u3 at hi2
  have c4 := issued_carries .deserialize u3
  have hm : (issued .deserialize u3).mem = m := by rw [c4.mem, ← hu3]
  have hq4 : (issued .deserialize u3).tokCount.toNat = T.ser.length := by rw [c4.tokCount, ← hu3]; exact hq
  obtain ⟨t, e1, e2, e3, e4, e5, e6, _⟩ := deserialize_ser (c4.inv hi2) htc hq4 (by
    refine List.ext_getElem (by simp [State.tokens, hq4]) fun k g1 g2 => ?_
    simp only [State.tokens, List.getElem_map, List.getElem_range]
    have := State.token_of_setTokens (s := issued .deserialize u3) (m := u.mem) 0 T.ser k g2 (by omega) (fun y _ hy => by rw [hm]; exact hin y (by omega))
    rwa [Nat.zero_add] at this)
  refine ⟨t, ?_, e3, e4, e5, ?_⟩
  · rw [runLines_command e1, e2, if_neg (by simp)]
  · rw [e6, c4.cfg, ← hu3]

/-- The second half of DECOMPRESS (R237): the payload and its counts are loaded and decoded. -/
theorem decompress_payload (x : List Byte) (u : State) (h : u.Inv) (hx : x.length ≤ u.cfg.outCap) (T : HTree) (code : Byte → List Bool)
    (ws : List Word) (q : Quad) (hv : u.flags.treeValid = true) (hT : u.tree = some T) (hl : T.isLeaf = false)
    (hcode : ∀ b ∈ x, T.follow (code b) = some (.leaf b))
    (hbits : q.toNat = (x.flatMap code).length) (hwords : ws.length = wordsFor q.toNat)
    (hcap : ws.length ≤ u.cfg.payCap)
    (hpay : ∀ i, i < (x.flatMap code).length → (ws.getD (i / 32) 0).getLsbD (i % 32) = (x.flatMap code).getD i false) :
    ∃ t, runLines (loadLines payBase ws ++ (quadLines bitCountAddr q ++ [.wr payWordsAddr (lengthWord ws.length), .command .decode])) u = .next t ∧
      t.flags.err = false ∧ t.output = x := by
  have hc := (Config.wf_iff _).1 h.params
  obtain ⟨r6, l6, hi6⟩ := runLines_load payBase ws (quadLines bitCountAddr q ++ [.wr payWordsAddr (lengthWord ws.length), .command .decode]) u h (fun t k v ht hk => by
      unfold hostWrite
      rw [locate_pay (by rw [ht]; exact h.params) (by rw [ht]; omega)]; rfl)
  obtain ⟨r7, l7, hi7⟩ := runLines_bitCount q [.wr payWordsAddr (lengthWord ws.length), .command .decode] _ hi6
  obtain ⟨r8, l8, hi8⟩ := runLines_payWords (lengthWord ws.length) [.command .decode] _ hi7
  rw [l6, l7, l8]
  generalize hu9 : ({ ({ ({ u with mem := u.mem.setWords payBase ws, replies := r6 } : State) with bitCount := q, replies := r7 } : State) with payWords := lengthWord ws.length, replies := r8 } : State) = u9 at hi8
  have f9 : u9.bitCount = q ∧ u9.payWords = lengthWord ws.length ∧ u9.cfg = u.cfg ∧ u9.flags = u.flags ∧ u9.tree = u.tree ∧ u9.mem = u.mem.setWords payBase ws := by
    rw [← hu9]; exact ⟨rfl, rfl, rfl, rfl, rfl, rfl⟩
  obtain ⟨g1, g2, g3, g4, g5, g6⟩ := f9
  clear hu9
  have c10 := issued_carries .decode u9
  have hi10 := c10.inv hi8
  have b10 : (issued .decode u9).bitCount = q := by rw [c10.bitCount, g1]
  have p10 : (issued .decode u9).payWords.toNat = ws.length := by rw [c10.payWords, g2, lengthWord_toNat (by omega)]
  have cfg10 : (issued .decode u9).cfg = u.cfg := by rw [c10.cfg, g3]
  have v10 : (issued .decode u9).flags.treeValid = true := by rw [c10.treeValid, g4]; exact hv
  have T10 : (issued .decode u9).tree = some T := by rw [c10.tree, g5]; exact hT
  have mem10 : (issued .decode u9).mem = u.mem.setWords payBase ws := by rw [c10.mem, g6]
  have word : ∀ w, w < ws.length → (issued .decode u9).payWord w = ws.getD w 0 := fun w hw => by
    refine State.wordAt_of_setWord (m := []) fun y hy1 hy2 => ?_
    rw [mem10, Memory.get_setWords, if_pos (by omega), Memory.get_setWord, if_pos (by omega),
      show (y - payBase) / 4 = w by omega, show (y - payBase) % 4 = y - (payBase + 4 * w) by omega]
  have wl : ws.length = ((x.flatMap code).length + 31) / 32 := by rw [hwords, hbits]; rfl
  obtain ⟨dd, k1, k2, k3, k4, k5⟩ := exec_decode_codes v10 (hi10.arena v10) T10 hl hi10.params x code hcode (by rw [b10, hbits])
    (fun i hi => by rw [b10, hbits] at hi; unfold State.payBit; rw [word _ (by omega)]; exact hpay i hi)
    (by rw [b10, p10]; omega) (by rw [p10, cfg10]; exact hcap) (by rw [cfg10]; exact hx)
  refine ⟨dd, ?_, k2, k5⟩
  rw [runLines_command k1, k2, if_neg (by simp)]
  rfl

end Sys2Proof.Machine
end

