-- ==== Sys2Proof/Tests/Slice0.lean ====
section
/-! SUPPORT. Tests: ill-formed words and parameters, the command words written out, one or two vectors of
spec/95_test_vectors.md per command (each named), and for every statement with hypotheses a state that meets them. -/

namespace Sys2Proof.Tests

open Sys2Proof Sys2Proof.Machine

/-! ### What WellFormed refuses (R8, R90 to R92) -/

theorem test_legalWord_reserved_bits : legalWord 0x00000101 = false := by decide
theorem test_legalWord_top_bit : legalWord 0x80000000 = false := by decide
theorem test_legalWord_reserved_opcode : legalWord 0x00000009 = false := by decide
theorem test_legalWord_last : legalWord 0x00000008 = true := by decide
theorem test_byteCapOk_not_multiple : byteCapOk 6 = false := by decide
theorem test_byteCapOk_zero : byteCapOk 0 = false := by decide
theorem test_byteCapOk_too_large : byteCapOk (2 ^ 20 + 4) = false := by decide
theorem test_wordCapOk_zero : wordCapOk 0 = false := by decide
theorem test_wordCapOk_too_large : wordCapOk (2 ^ 20 + 1) = false := by decide
theorem test_config_inCap : ({ inCap := 3, outCap := 4, payCap := 1 } : Config).wf = false := by decide
theorem test_config_outCap : ({ inCap := 4, outCap := 2 ^ 21, payCap := 1 } : Config).wf = false := by decide
theorem test_config_payCap : ({ inCap := 4, outCap := 4, payCap := 0 } : Config).wf = false := by decide
theorem test_config_smallest : ({ inCap := 4, outCap := 4, payCap := 1 } : Config).wf = true := by decide
theorem test_config_huffcore1 : Config.huffcore1.wf = true := by decide

/-! ### Decoding: bits 31:8 zero, then the opcode of R91's table, bit by bit -/

theorem test_decode_nop : decode 0b00000000000000000000000000000000 = .ok .nop := rfl
theorem test_decode_freq : decode 0b00000000000000000000000000000001 = .ok .freq := rfl
theorem test_decode_build : decode 0b00000000000000000000000000000010 = .ok .build := rfl
theorem test_decode_gencodes : decode 0b00000000000000000000000000000011 = .ok .gencodes := rfl
theorem test_decode_serialize : decode 0b00000000000000000000000000000100 = .ok .serialize := rfl
theorem test_decode_deserialize : decode 0b00000000000000000000000000000101 = .ok .deserialize := rfl
theorem test_decode_encode : decode 0b00000000000000000000000000000110 = .ok .encode := rfl
theorem test_decode_decode : decode 0b00000000000000000000000000000111 = .ok .decode := rfl
theorem test_decode_reset : decode 0b00000000000000000000000000001000 = .ok .reset := rfl
theorem test_decode_opcode_09 : decode 0x00000009 = .error .reservedOpcode := rfl
theorem test_decode_opcode_FF : decode 0x000000FF = .error .reservedOpcode := rfl
theorem test_decode_bit_8 : decode 0x00000101 = .error .reservedBits := rfl
theorem test_decode_all_ones : decode 0xFFFFFFFF = .error .reservedBits := rfl

/-! ### States -/

/-- The state a command ends in. -/
def ran (i : Instr) (s : State) : State :=
  match exec i s with
  | .next t => t
  | _ => s

/-- A command ends in a next state. -/
def completes (i : Instr) (s : State) : Bool :=
  match exec i s with
  | .next _ => true
  | _ => false

theorem ran_eq {i : Instr} {s : State} (h : completes i s = true) : exec i s = .next (ran i s) := by
  unfold completes at h
  unfold ran
  split at h
  · rename_i t ht; rw [ht]
  · simp at h

def A : Byte := 0x41
def B : Byte := 0x42
def C : Byte := 0x43
def D : Byte := 0x44

/-- A table with a value for each listed byte. -/
def tableOf {α : Type} (absent : α) (xs : List (Byte × α)) : List α :=
  (List.range 256).map fun k => ((xs.find? fun x => x.1.toNat == k).map Prod.snd).getD absent

/-- Bytes at consecutive addresses. -/
def bytesAt (base : Nat) (bs : List Byte) : Memory := bs.mapIdx fun k b => (base + k, b)

/-- "AAAABBBCCD" (S-1). -/
def text : List Byte := [A, A, A, A, B, B, B, C, C, D]

/-- The tree of S-1: A left, then B, then D before C. -/
def tree1 : HTree := .node (.leaf A) (.node (.leaf B) (.node (.leaf D) (.leaf C)))

/-- V-B1's arena. -/
def arena1 : List Node :=
  [.leaf A 4, .leaf B 3, .leaf C 2, .leaf D 1, .internal 3 3 2, .internal 6 1 4, .internal 10 0 5]

/-- V-G1's code table: A `0`, B `10`, C `111`, D `110`. -/
def codes1 : List CodeEntry :=
  tableOf { valid := false, len := 0, bits := 0 }
    [(A, { valid := true, len := 1, bits := 0 }), (B, { valid := true, len := 2, bits := 1 }),
      (C, { valid := true, len := 3, bits := 7 }), (D, { valid := true, len := 3, bits := 3 })]

/-- V-F1's counts. -/
def counts1 : List Word := tableOf 0 [(A, 4), (B, 3), (C, 2), (D, 1)]

/-- The input of V-F1 in a block just reset. -/
def inputOnly : State := { State.reset with inLen := 10, mem := bytesAt inBase text }

/-- The block after FREQ, BUILD, GENCODES, SERIALIZE and ENCODE of S-1 (P1's end state). -/
def full : State :=
  { State.reset with
    flags := { Flags.clear with done := true, freqValid := true, treeValid := true, codesValid := true }
    lastCmd := 6
    inLen := 10
    tokCount := 7
    bitCount := 19
    payWords := 1
    total := 10
    leafCount := 4
    nodeCount := 7
    root := 6
    count := counts1
    node := arena1
    code := codes1
    mem := bytesAt tokBase [0x41, 0, 0x42, 0, 0x44, 0, 0x43, 0, 0xFF, 0xFF, 0xFF, 0xFF, 0xFF, 0xFF]
      ++ bytesAt inBase text ++ bytesAt payBase [0x50, 0xFD, 0x03, 0x00] }

/-- The same with counts only. -/
def countedOnly : State :=
  { full with
    flags := { Flags.clear with freqValid := true }
    leafCount := 0, nodeCount := 0, root := 0, node := [], code := [] }

/-- The same without a code table. -/
def uncoded : State := { full with flags := { full.flags with codesValid := false }, code := [] }

/-- V-B5: the single leaf A. -/
def oneLeaf : State :=
  { State.reset with
    flags := { Flags.clear with treeValid := true }
    leafCount := 1, nodeCount := 1, root := 0, node := [.leaf A 4] }

/-- V-E3's tree `65, 66, -1`, A = `0`, B = `1`, and an input, with room for one payload word (V-E6). -/
def abTree (input : List Byte) : State :=
  { State.reset with
    cfg := { Config.huffcore1 with payCap := 1 }
    flags := { Flags.clear with treeValid := true, codesValid := true }
    inLen := BitVec.ofNat 32 input.length
    leafCount := 2, nodeCount := 3, root := 2, node := [.leaf A 0, .leaf B 0, .internal 0 0 1]
    code := tableOf { valid := false, len := 0, bits := 0 }
      [(A, { valid := true, len := 1, bits := 0 }), (B, { valid := true, len := 1, bits := 1 })]
    mem := bytesAt inBase input }

/-- Tokens in a block just reset. -/
def tokensOnly (bytes : List Byte) (n : Quad) : State :=
  { State.reset with tokCount := n, mem := bytesAt tokBase bytes }

/-! ### One command at a time -/

-- V-F1
theorem test_freq_counts : (ran .freq inputOnly).count = counts1 ∧ hostRead (ran .freq inputOnly) 0x000034 = some 10 ∧
    hostRead (ran .freq inputOnly) 0x000004 = some 0x0000000A := by decide +kernel
-- V-F3
theorem test_freq_empty : hostRead (ran .freq State.reset) 0x000004 = some 0x00000006 ∧
    hostRead (ran .freq State.reset) 0x000008 = some 1 ∧ hostRead (ran .freq State.reset) 0x00000C = some 1 := by decide +kernel
-- V-B1
theorem test_build_arena : (ran .build countedOnly).node = arena1 ∧ (ran .build countedOnly).root = 6 ∧
    hostRead (ran .build countedOnly) 0x002034 = some 0x800A0000 := by decide +kernel
-- V-B3, "AABC": at equal weight the leaf comes before the internal node
theorem test_build_tie : (ran .build { countedOnly with count := tableOf 0 [(A, 2), (B, 1), (C, 1)], total := 4 }).node =
    [.leaf A 2, .leaf B 1, .leaf C 1, .internal 2 1 2, .internal 4 0 3] := by decide +kernel
-- V-G1
theorem test_gencodes_table : (ran .gencodes uncoded).code = codes1 ∧
    hostRead (ran .gencodes uncoded) 0x0050C0 = some 0x80000003 ∧ hostRead (ran .gencodes uncoded) 0x0050C4 = some 7 := by
  decide +kernel
-- V-G6: of two leaves of one byte the right one, visited last, wins
theorem test_gencodes_duplicate : ((ran .gencodes { abTree [] with node := [.leaf A 0, .leaf A 0, .internal 0 0 1] }).codeOf A).path =
    [true] := by decide +kernel
-- V-S1
theorem test_serialize_tokens : (ran .serialize uncoded).tokens = [0x41, 0x42, 0x44, 0x43, 0xFFFF, 0xFFFF, 0xFFFF] ∧
    hostRead (ran .serialize uncoded) 0x008004 = some 0x00430044 := by decide +kernel
-- V-B5 then V-S2
theorem test_serialize_single : (ran .serialize oneLeaf).tokens = [0x41] := by decide +kernel
-- V-D1
theorem test_deserialize_arena : (ran .deserialize full).node =
    [.leaf A 0, .leaf B 0, .leaf D 0, .leaf C 0, .internal 0 2 3, .internal 0 1 4, .internal 0 0 5] ∧
    hostRead (ran .deserialize full) 0x000004 = some 0x0000001A := by decide +kernel
-- V-D2, `65, 66, -1, -1`
theorem test_deserialize_underflow :
    (ran .deserialize (tokensOnly [0x41, 0, 0x42, 0, 0xFF, 0xFF, 0xFF, 0xFF] 4)).errInfo = 3 ∧
    (ran .deserialize (tokensOnly [0x41, 0, 0x42, 0, 0xFF, 0xFF, 0xFF, 0xFF] 4)).errCode = 2 := by decide +kernel
-- V-E1
theorem test_encode_word : (ran .encode { full with bitCount := 0, payWords := 0 }).bitCount = 19 ∧
    hostRead (ran .encode { full with mem := bytesAt inBase text }) 0x400000 = some 0x0003FD50 := by decide +kernel
-- V-E5
theorem test_encode_no_code : (ran .encode (abTree [A, B, C])).errCode = 8 ∧ (ran .encode (abTree [A, B, C])).errInfo = 2 ∧
    (ran .encode (abTree [A, B, C])).payWords = 0 := by decide +kernel
-- V-X1, `BIT_COUNT` 5
theorem test_decode_partial : (ran .decode { full with bitCount := 5 }).output = [A, A, A, A] ∧
    (ran .decode { full with bitCount := 5 }).flags.partialEnd = true := by decide +kernel
-- V-X4
theorem test_decode_full_buffer : (ran .decode { full with cfg := { full.cfg with outCap := 4 } }).errInfo = 5 ∧
    (ran .decode { full with cfg := { full.cfg with outCap := 4 } }).output = [A, A, A, A] := by decide +kernel
-- V-C2
theorem test_nop_clears_error : hostRead (ran .nop (ran .freq State.reset)) 0x000004 = some 0x00000002 ∧
    hostRead (ran .nop (ran .freq State.reset)) 0x00000C = some 0 := by decide +kernel
-- V-C3
theorem test_reset_clears : hostRead (ran .reset full) 0x000004 = some 0 ∧ hostRead (ran .reset full) 0x00003C = some 0 ∧
    hostRead (ran .reset full) 0x100000 = some 0x41414141 := by decide +kernel

/-- What a step ends in. -/
def stepped (s : State) : State :=
  match step s with
  | .next t => t
  | _ => s

-- V-C1
theorem test_illegal_word : (stepped { State.reset with run := .busy 0x00000101 0 }).errCode = 7 ∧
    (stepped { State.reset with run := .busy 0x00000101 0 }).errInfo = 0x101 := by decide +kernel
-- V-C4: a STATUS read while busy, and another access, which is held
theorem test_busy_status :
    (stepped { State.reset with run := .busy 1 3, port := [.access (.read 4)] }).replies = [.okRead 1] := by decide +kernel
theorem test_busy_hold :
    (stepped { State.reset with run := .busy 1 3, port := [.access (.read 8)] }).held = some (.read 8) := by decide +kernel
-- V-M1
theorem test_bus_errors : hostRead full 0x000002 = none ∧ hostRead full 0x000044 = none ∧ hostRead full 0x001400 = none ∧
    hostRead full 0x300000 = none ∧ hostRead full 0x800000 = none := by decide +kernel
-- V-M2
theorem test_token_slot_511 : (hostWrite State.reset 0x0083FC 0xABCD1234).bind (hostRead · 0x0083FC) = some 0x00001234 := by
  decide +kernel
-- V-M4
theorem test_in_buf_order : (hostWrite State.reset 0x100000 0x44434241).map (fun s => s.inByte 1) = some 0x42 := by decide +kernel
-- R91's rows and how the host's word runs next (log 8)
theorem test_withFetchWord : (stepped (State.reset.withFetchWord 32 2)).errCode = 6 := by decide +kernel
-- S-11: the whole file of scenario 1
theorem test_compress_file : compress text State.reset = some
    ([0x07, 0, 0, 0, 0, 0, 0, 0] ++ [0x41, 0, 0x42, 0, 0x44, 0, 0x43, 0, 0xFF, 0xFF, 0xFF, 0xFF, 0xFF, 0xFF]
      ++ [0x13, 0, 0, 0, 0, 0, 0, 0] ++ [0x50, 0xFD, 0x03, 0x00]) := by decide +kernel

/-! ### States that meet the hypotheses of the statements -/

/-- Storage, checked on the cells listed. -/
theorem storage_of_cells {cfg : Config} {m : Memory} (h : (m.all fun c => inStorage cfg c.1) = true) :
    ∀ a, (m.get a).isSome = true → inStorage cfg a = true := by
  induction m with
  | nil => intro a ha; simp at ha
  | cons c m ih =>
    simp only [List.all_cons, Bool.and_eq_true] at h
    intro a ha
    rw [Memory.get] at ha
    split at ha
    · rename_i e; rw [e]; exact h.1
    · exact ih h.2 a ha

theorem full_arena : ArenaOk arena1 4 7 6 where
  size := rfl
  rootLast := rfl
  leaves := rfl
  twice := rfl
  bound := by decide
  nodes := by decide +kernel
  owner := by decide +kernel

theorem full_counts : CountsOk counts1 10 (2 ^ 20) where
  size := by decide +kernel
  sum := by decide +kernel
  pos := by decide
  bound := by decide

/-- A block with everything valid meets the invariant. -/
theorem full_inv : full.Inv where
  params := by decide
  memory := by decide +kernel
  storage := storage_of_cells (by decide +kernel)
  busy := fun _ _ h => by simp [full, State.reset] at h
  errFlag := by decide
  errRange := by decide
  errInfo := fun _ => rfl
  outBound := by decide
  counts := fun _ => full_counts
  noCounts := fun h => by simp [full] at h
  arena := fun _ => full_arena
  noArena := fun h => by simp [full] at h
  codes := fun _ => ⟨rfl, by decide +kernel, by decide⟩
  noCodes := fun h => by simp [full] at h

/-- So does a single-leaf tree. -/
theorem oneLeaf_inv : oneLeaf.Inv where
  params := by decide
  memory := List.Pairwise.nil
  storage := storage_of_cells rfl
  busy := fun _ _ h => by simp [oneLeaf, State.reset] at h
  errFlag := by decide
  errRange := by decide
  errInfo := fun _ => rfl
  outBound := by decide
  counts := fun h => by simp [oneLeaf, Flags.clear] at h
  noCounts := fun _ => ⟨rfl, rfl⟩
  arena := fun _ => { size := rfl, rootLast := rfl, leaves := rfl, twice := rfl, bound := by decide, nodes := by decide +kernel, owner := by decide +kernel }
  noArena := fun h => by simp [oneLeaf] at h
  codes := fun h => by simp [oneLeaf, Flags.clear] at h
  noCodes := fun _ => rfl

theorem full_tree : full.tree = some tree1 ∧ tree1.isLeaf = false := by decide +kernel

theorem witness_EncodeAndDecodeAgree : decode 0x00000008 = .ok .reset := rfl

theorem witness_StatusWordLayout : full.run = .idle ∧ ({ full with run := .busy 7 2 } : State).run = .busy 7 2 := ⟨rfl, rfl⟩

/-- Not mapped: misaligned, the gap after `ROOT`, the end of the code window's gap, 2^23; mapped: the ends of each range. -/
theorem witness_BusErrorExactlyWhereUnmapped :
    (∀ a ∈ [0x000002, 0x000044, 0x001400, 0x003000, 0x008400, 0x300000, 0x800000],
      (locate full.cfg a).isSome = false) ∧
    ∀ a ∈ [0x000000, 0x000040, 0x0013FC, 0x002FFC, 0x007FFC, 0x0083FC, 0x1FFFFC, 0x2FFFFC, 0x7FFFFC],
      (locate full.cfg a).isSome = true := by decide +kernel

theorem witness_WritesStoreOnlyWhereWritable : full.cfg.wf = true ∧ 0x2FFFFC % 4 = 0 ∧ 0x200000 ≤ 0x2FFFFC ∧
    0x2FFFFC < 0x200000 + full.cfg.outCap := by decide

theorem witness_InBufWordView : full.cfg.wf = true ∧ 4 * 0 + 3 < full.cfg.inCap ∧ 4 * 0x3FFFF + 3 < full.cfg.inCap := by decide

theorem witness_TokBufWordView : 0 < 256 ∧ 254 < 256 ∧ 255 < 256 := by decide

theorem witness_PayBufWordView : full.cfg.wf = true ∧ 0 < full.cfg.payCap ∧ 0xFFFFF < full.cfg.payCap := by decide

theorem witness_OutBufReadsGatedByOutLen : full.cfg.wf = true ∧ 4 * 0x3FFFF + 3 < full.cfg.outCap := by decide

theorem witness_CountWindowGated : 0 < 256 ∧ 255 < 256 := by decide

/-- Entry 7 is gated (`NODE_COUNT` is 7), entries 0 and 6 are a leaf and the root. -/
theorem witness_NodeWindowLayout : 7 < 512 ∧ ¬ (full.flags.treeValid = true ∧ 7 < full.nodeCount.toNat) ∧
    full.flags.treeValid = true ∧ 6 < full.nodeCount.toNat ∧ full.node[0]? = some (.leaf A 4) ∧
    full.node[6]? = some (.internal 10 0 5) := by decide +kernel

theorem witness_CodeWindowLayout : uncoded.flags.codesValid = false ∧ full.flags.codesValid = true ∧ 9 ≤ 15 ∧ 15 < 16 ∧
    0 < 256 ∧ 255 < 256 := by decide

theorem witness_OnlyCmdWritesHaveSideEffects : full.mem.wf ∧ 0x100000 ≠ 0 ∧
    (hostWrite full 0x100000 5).isSome = true := by decide +kernel

theorem witness_StepRunsTheDecodedCommand : ({ full with run := .busy 7 0 } : State).run = .busy 7 0 ∧
    decode 7 = .ok .decode ∧ ({ full with run := .busy 9 0 } : State).run = .busy 9 0 ∧ decode 9 = .error .reservedOpcode ∧
    decodeTableWord 32 7 = some .decode := ⟨rfl, rfl, rfl, rfl, rfl⟩

theorem witness_CmdWriteStartsTheCommand : ∃ s : State, s.run = .idle ∧ s.held = none ∧
    s.port = .access (.write 0x000000 3) :: [] :=
  ⟨{ full with port := [.access (.write 0x000000 3)] }, rfl, rfl, rfl⟩

theorem witness_AccessesAreHeldWhileBusy :
    (∃ s : State, s.run = .busy 1 (0 + 1) ∧ s.port = .access (.read 0x000008) :: [] ∧ s.held = none ∧
      Access.read 0x000008 ≠ .read 0x000004) ∧
    (∃ s : State, s.run = .busy 1 (0 + 1) ∧ s.held = some (.read 0x000008) ∧ ∀ rest, s.port ≠ .hardReset :: rest) ∧
    (∃ s : State, s.run = .busy 1 (0 + 1) ∧ s.port = .access (.read 0x000004) :: [] ∧ s.held = none) ∧
    (∃ s : State, s.run = .idle ∧ s.held = some (.read 0x000008)) ∧
    ∃ s t : State, s.run = .busy 0 0 ∧ step s = .next t :=
  ⟨⟨{ full with run := .busy 1 1, port := [.access (.read 8)] }, rfl, rfl, rfl, by decide⟩,
    ⟨{ full with run := .busy 1 1, held := some (.read 8) }, rfl, rfl, fun _ h => by simp [full, State.reset] at h⟩,
    ⟨{ full with run := .busy 1 1, port := [.access (.read 4)] }, rfl, rfl, rfl⟩,
    ⟨{ full with held := some (.read 8) }, rfl, rfl⟩, { full with run := .busy 0 0 }, _, rfl, rfl⟩

theorem witness_IdleBlockServesThePortInOrder : (full.run = .idle ∧ full.held = none ∧ full.port = []) ∧
    ∃ s : State, s.run = .idle ∧ s.held = none ∧ s.port = .access (.read 0x000004) :: [] :=
  ⟨⟨rfl, rfl, rfl⟩, { full with port := [.access (.read 4)] }, rfl, rfl, rfl⟩

theorem busy_inv : ({ full with run := .busy 6 2, flags := { full.flags with done := false } } : State).Inv :=
  { full_inv with busy := fun c left h => by cases h; exact ⟨rfl, rfl, rfl⟩ }

theorem witness_BusyBlockReturnsToIdle : ∃ s : State, s.Inv ∧ s.run = .busy 6 2 ∧ ∀ e ∈ s.port, e ≠ .hardReset :=
  ⟨_, busy_inv, rfl, fun _ h => by simp [full, State.reset] at h⟩

theorem witness_MissingPrerequisiteFails : State.reset.flags.freqValid = false ∧ State.reset.flags.treeValid = false ∧
    State.reset.flags.codesValid = false := ⟨rfl, rfl, rfl⟩

theorem witness_CommandsWriteOnlyTheirOwn : full.cfg.wf = true ∧ exec .decode full = .next (ran .decode full) :=
  ⟨by decide, ran_eq (by decide +kernel)⟩

theorem witness_IllegalWordFails : (0x00000100 : Word).extractLsb' 8 24 ≠ 0 ∧
    0x08 < ((0x00000009 : Word).extractLsb' 0 8).toNat := by decide

theorem witness_HardResetAbandonsTheCommand :
    (∃ s : State, s.port = .hardReset :: [] ∧ s.run = .busy 6 (0 + 1)) ∧
    ∃ s : State, s.port = .hardReset :: [] ∧ s.run = .idle ∧ s.held = none :=
  ⟨⟨{ full with port := [.hardReset], run := .busy 6 1 }, rfl, rfl⟩, { full with port := [.hardReset] }, rfl, rfl, rfl⟩

/-- The shortest and the longest input that is accepted. -/
theorem witness_FreqCountsTheInput : full.cfg.wf = true ∧ (1 ≤ (1 : Word).toNat ∧ (1 : Word).toNat ≤ full.cfg.inCap) ∧
    1 ≤ (0x100000 : Word).toNat ∧ (0x100000 : Word).toNat ≤ full.cfg.inCap := by decide

theorem witness_FreqRejectsEmptyAndTooLong : State.reset.inLen = 0 ∧ State.reset.cfg.inCap < (0x100001 : Word).toNat := by decide

/-- For the three statements about BUILD on valid counts. -/
theorem witness_Build : countedOnly.flags.freqValid = true ∧
    CountsOk countedOnly.count countedOnly.total.toNat countedOnly.cfg.inCap := ⟨rfl, full_counts⟩

theorem witness_BuildOfOneByteIsASingleLeaf : ∃ s : State, s.flags.freqValid = true ∧
    CountsOk s.count s.total.toNat s.cfg.inCap ∧ ∀ b : Byte, s.count.getD b.toNat 0 ≠ 0 ↔ b = A :=
  ⟨{ countedOnly with count := tableOf 0 [(A, 4)], total := 4 }, rfl,
    { size := by decide +kernel, sum := by decide +kernel, pos := by decide, bound := by decide }, by decide +kernel⟩

/-- A two-bit code for A, B, C, D. -/
def twoBits (b : Byte) : List Bool := if b = A then [false, false] else if b = B then [false, true] else if b = C then [true, false] else [true, true]

theorem witness_BuildCodeIsOptimal : countedOnly.flags.freqValid = true ∧
    CountsOk countedOnly.count countedOnly.total.toNat countedOnly.cfg.inCap ∧
    exec .build countedOnly = .next (ran .build countedOnly) ∧ (ran .build countedOnly).tree = some tree1 ∧
    ∀ a b : Byte, countedOnly.count.getD a.toNat 0 ≠ 0 → countedOnly.count.getD b.toNat 0 ≠ 0 → a ≠ b →
      ¬ twoBits a <+: twoBits b := by
  refine ⟨rfl, full_counts, ran_eq (by decide +kernel), by decide +kernel, fun a b ha hb hab => ?_⟩
  have used : ∀ x : Byte, countedOnly.count.getD x.toNat 0 ≠ 0 → x ∈ [A, B, C, D] := by decide +kernel
  have apart : ∀ x ∈ [A, B, C, D], ∀ y ∈ [A, B, C, D], x ≠ y → ¬ twoBits x <+: twoBits y := by decide
  exact apart a (used a ha) b (used b hb) hab

/-- For the statements about GENCODES and SERIALIZE on a tree; A has a code in it, byte 0 has none. -/
theorem witness_GencodesRecordsThePaths : full.Inv ∧ full.flags.treeValid = true ∧ full.tree = some tree1 ∧ tree1.isLeaf = false ∧
    tree1.codeOf A = some [false] ∧ tree1.codeOf 0 = none := ⟨full_inv, rfl, full_tree.1, rfl, by decide, by decide⟩

theorem witness_GencodesRejectsASingleLeaf : oneLeaf.flags.treeValid = true ∧ oneLeaf.node[oneLeaf.root.toNat]? = some (.leaf A 4) :=
  ⟨rfl, rfl⟩

theorem witness_ValidCodesArePrefixFree : full.Inv ∧ full.flags.codesValid = true ∧ full.tree = some tree1 ∧ A ≠ B ∧
    (full.codeOf A).valid = true ∧ (full.codeOf B).valid = true := ⟨full_inv, rfl, full_tree.1, by decide, by decide +kernel, by decide +kernel⟩

theorem witness_SerializeWritesPostOrder : full.Inv ∧ full.flags.treeValid = true ∧ full.tree = some tree1 := ⟨full_inv, rfl, full_tree.1⟩

theorem witness_DeserializeRebuildsTheTree : full.tokCount.toNat ≤ 511 ∧ full.tokens = tree1.ser := by decide +kernel

/-- V-D2: `65, 66, -1, -1` is malformed at 3; `65, 66` leaves two nodes; no token at all leaves none. -/
theorem witness_DeserializeRejectsMalformedStreams :
    (∃ s : State, s.tokCount.toNat ≤ 511 ∧ 3 < s.tokCount.toNat ∧ (tokenDepth (s.tokens.take 3) 0).isSome = true ∧
      tokenDepth (s.tokens.take (3 + 1)) 0 = none) ∧
    (∃ s : State, s.tokCount.toNat ≤ 511 ∧ tokenDepth s.tokens 0 = some 2) ∧
    ∃ s : State, s.tokCount.toNat ≤ 511 ∧ tokenDepth s.tokens 0 = some 0 :=
  ⟨⟨tokensOnly [0x41, 0, 0x42, 0, 0xFF, 0xFF, 0xFF, 0xFF] 4, by decide +kernel⟩,
    ⟨tokensOnly [0x41, 0, 0x42, 0] 2, by decide +kernel⟩, State.reset, by decide +kernel⟩

theorem witness_DeserializeRejectsTooManyTokens : 511 < (512 : Quad).toNat := by decide

theorem witness_TreeRoundTrip : full.Inv ∧ full.flags.treeValid = true ∧
    exec .deserialize full = .next (ran .deserialize full) ∧ (ran .deserialize full).flags.err = false :=
  ⟨full_inv, rfl, ran_eq (by decide +kernel), by decide +kernel⟩

theorem witness_EncodePacksTheCodes : full.cfg.wf = true ∧ full.flags.codesValid = true ∧ full.inLen.toNat ≤ full.cfg.inCap ∧
    (∀ b ∈ full.input, (full.codeOf b).valid = true) ∧ (full.codeBits full.input).length ≤ 32 * full.cfg.payCap := by decide +kernel

/-- V-E5. -/
theorem witness_EncodeStopsAtAByteWithoutCode : ∃ s : State, s.cfg.wf = true ∧ s.flags.codesValid = true ∧
    s.inLen.toNat ≤ s.cfg.inCap ∧ 2 < s.inLen.toNat ∧ (∀ b ∈ s.input.take 2, (s.codeOf b).valid = true) ∧
    (s.codeOf (s.inByte 2)).valid = false ∧ (s.codeBits (s.input.take 2)).length / 32 ≤ s.cfg.payCap :=
  ⟨abTree [A, B, C], by decide +kernel⟩

/-- V-E6: 64 bytes, whose second full word has no room at byte 63; and 33 bytes, whose last partial word has none. -/
theorem witness_EncodeStopsWhenThePayloadIsFull :
    (∃ s : State, s.cfg.wf = true ∧ s.flags.codesValid = true ∧ s.inLen.toNat ≤ s.cfg.inCap ∧ 63 < s.inLen.toNat ∧
      (∀ b ∈ s.input.take (63 + 1), (s.codeOf b).valid = true) ∧ (s.codeBits (s.input.take 63)).length / 32 ≤ s.cfg.payCap ∧
      s.cfg.payCap < (s.codeBits (s.input.take (63 + 1))).length / 32) ∧
    ∃ s : State, s.cfg.wf = true ∧ s.flags.codesValid = true ∧ s.inLen.toNat ≤ s.cfg.inCap ∧ 33 = s.inLen.toNat ∧
      (∀ b ∈ s.input, (s.codeOf b).valid = true) ∧ (s.codeBits s.input).length / 32 = s.cfg.payCap ∧
      (s.codeBits s.input).length % 32 ≠ 0 :=
  ⟨⟨abTree (List.replicate 64 A), by decide +kernel⟩, abTree (List.replicate 33 B), by decide +kernel⟩

theorem witness_EncodeOfEmptyAndOfTooLongInput : (abTree []).flags.codesValid = true ∧ (abTree []).inLen = 0 ∧
    (abTree []).cfg.inCap < (0x100001 : Word).toNat := by decide

theorem witness_BitCountIsSumOfLengthTimesCount : full.Inv ∧ full.flags.freqValid = true ∧ full.inLen.toNat ≤ full.cfg.inCap ∧
    (∀ b : Byte, (full.count.getD b.toNat 0).toNat = full.input.count b) ∧ exec .encode full = .next (ran .encode full) ∧
    (ran .encode full).flags.err = false :=
  ⟨full_inv, rfl, by decide, by decide +kernel, ran_eq (by decide +kernel), by decide +kernel⟩

theorem witness_DecodeWalksTheTree : full.Inv ∧ full.flags.treeValid = true ∧ full.tree = some tree1 ∧ tree1.isLeaf = false ∧
    full.payWords.toNat ≤ full.cfg.payCap ∧ full.bitCount.toNat ≤ 32 * full.payWords.toNat ∧
    (tree1.decodeFrom tree1 (full.payBits full.bitCount.toNat)).1.length ≤ full.cfg.outCap :=
  ⟨full_inv, rfl, full_tree.1, rfl, by decide, by decide, by decide +kernel⟩

theorem witness_DecodeOfNoBits : oneLeaf.flags.treeValid = true ∧ oneLeaf.bitCount = 0 ∧ oneLeaf.payWords.toNat ≤ oneLeaf.cfg.payCap := by
  decide

/-- V-X1's last row, one bit beyond the word there is; and V-X7, no word at all. -/
theorem witness_DecodeOfTruncatedPayload : ∃ s : State, s.Inv ∧ s.flags.treeValid = true ∧ s.tree = some tree1 ∧
    (tree1.isLeaf = false ∨ s.payWords = 0) ∧ s.payWords.toNat ≤ s.cfg.payCap ∧ 32 * s.payWords.toNat < s.bitCount.toNat ∧
    (tree1.decodeFrom tree1 (s.payBits (32 * s.payWords.toNat))).1.length ≤ s.cfg.outCap :=
  ⟨{ full with bitCount := 33 }, { full_inv with }, rfl, full_tree.1, .inl rfl, by decide, by decide, by decide +kernel⟩

theorem witness_DecodeOfTruncatedPayload_noWord : ∃ s : State, s.Inv ∧ s.flags.treeValid = true ∧ s.tree = some (.leaf A) ∧
    s.payWords = 0 ∧ 32 * s.payWords.toNat < s.bitCount.toNat :=
  ⟨{ oneLeaf with bitCount := 1 }, { oneLeaf_inv with }, rfl, by decide +kernel, rfl, by decide⟩

/-- V-X3. -/
theorem witness_DecodeOnASingleLeaf : oneLeaf.flags.treeValid = true ∧ oneLeaf.node[oneLeaf.root.toNat]? = some (.leaf A 4) ∧
    1 ≤ (1 : Quad).toNat ∧ (1 : Word).toNat ≤ oneLeaf.cfg.payCap := ⟨rfl, rfl, by decide, by decide⟩

/-- V-X4: the fifth symbol completes at bit 5. -/
theorem witness_DecodeIntoAFullBuffer : ∃ s : State, s.Inv ∧ s.flags.treeValid = true ∧ s.tree = some tree1 ∧
    s.payWords.toNat ≤ s.cfg.payCap ∧ 5 < s.bitCount.toNat ∧ 5 < 32 * s.payWords.toNat ∧
    (tree1.decodeFrom tree1 (s.payBits 5)).1.length = s.cfg.outCap ∧
    (tree1.decodeFrom tree1 (s.payBits (5 + 1))).1.length = s.cfg.outCap + 1 :=
  ⟨{ full with cfg := { full.cfg with outCap := 4 } },
    { full_inv with params := by decide, storage := storage_of_cells (by decide +kernel), outBound := by decide },
    rfl, full_tree.1, by decide, by decide, by decide, by decide +kernel, by decide +kernel⟩

theorem witness_DecodeOfTooManyWords : full.flags.treeValid = true ∧ full.cfg.payCap < (0x100001 : Word).toNat := by decide

/-- V-X2: other padding bits, and a second word that is not needed. -/
theorem witness_DecodeNeverReadsThePadding : full.Inv ∧ full.flags.treeValid = true ∧
    (∀ i, i < full.bitCount.toNat →
      ({ full with mem := full.mem.setPay 0 0xFFFBFD50 } : State).payBit i = full.payBit i) ∧
    (full.bitCount.toNat + 31) / 32 ≤ full.payWords.toNat ∧ full.payWords.toNat ≤ full.cfg.payCap ∧
    (full.bitCount.toNat + 31) / 32 ≤ (2 : Word).toNat ∧ (2 : Word).toNat ≤ full.cfg.payCap :=
  ⟨full_inv, rfl, by decide +kernel, by decide, by decide, by decide, by decide⟩

theorem witness_PayloadRoundTrip : full.Inv ∧ full.inLen.toNat ≤ full.cfg.inCap ∧ full.inLen.toNat ≤ full.cfg.outCap ∧
    ∃ a ∈ full.input, ∃ b ∈ full.input, a ≠ b := ⟨full_inv, by decide, by decide, by decide +kernel⟩

/-- ENCODE succeeds on it. -/
theorem witness_MeanCodeLengthMeetsTheEntropy : full.Inv ∧ full.inLen.toNat ≤ full.cfg.inCap ∧
    (∃ a ∈ full.input, ∃ b ∈ full.input, a ≠ b) ∧
    (ran .encode (ran .gencodes (ran .build (ran .freq full)))).flags.err = false :=
  ⟨full_inv, by decide, by decide +kernel, by decide +kernel⟩

/-- The shortest input that is too long, and one longer than 32 bits can say. -/
theorem witness_CompressStopsOnWhatItCannotCode : full.Inv ∧ full.run = .idle ∧
    full.cfg.inCap < (List.replicate (2 ^ 20 + 1) A).length ∧ full.cfg.inCap < (List.replicate (2 ^ 32) A).length ∧
    [A, A] ≠ [] ∧ [A, A].length ≤ full.cfg.inCap ∧ ∀ a ∈ [A, A], ∀ b ∈ [A, A], a = b :=
  ⟨full_inv, rfl, by rw [List.length_replicate]; decide, by rw [List.length_replicate]; decide, by decide, by decide, by decide⟩

/-- With `test_compress_file`, on the block just reset. -/
theorem witness_FileRoundTrip : full.Inv ∧ full.run = .idle ∧ text.length ≤ full.cfg.inCap ∧ text.length ≤ full.cfg.outCap ∧
    (∃ a ∈ text, ∃ b ∈ text, a ≠ b) ∧ 255 * text.length ≤ 32 * full.cfg.payCap :=
  ⟨full_inv, rfl, by decide, by decide, by decide, by decide⟩

theorem witness_EveryStepKeepsTheInvariant : full.Inv ∧ step full = .next full := ⟨full_inv, rfl⟩

theorem witness_NothingStopsTheMachine : full.Inv := full_inv

end Sys2Proof.Tests
end

section
/-! SUPPORT. What a host read of a register returns (10_state.md R21 to R35), what every reset reads as (R55), and the
proofs of the statements about the state: the registers, BUILD's arena, the code table, the invariant of every run. -/

namespace Sys2Proof.Machine

/-! ### The registers (R21 to R35) -/

/-- `STATUS` of an idle block, bit by bit from the top (R23). -/
theorem Flags.toWord_eq_append (f : Flags) : f.toWord =
    0#25 ++ BitVec.ofBool f.partialEnd ++ BitVec.ofBool f.codesValid ++ BitVec.ofBool f.treeValid ++
      BitVec.ofBool f.freqValid ++ BitVec.ofBool f.err ++ BitVec.ofBool f.done ++ 0#1 := by
  obtain ⟨done, err, freqValid, treeValid, codesValid, partialEnd⟩ := f
  revert done err freqValid treeValid codesValid partialEnd
  decide

/-- Register word `n` is at byte address `4n` (R21). -/
theorem locate_reg (cfg : Config) {n : Nat} {r : Reg} (h : regTable[n]? = some r) : locate cfg (4 * n) = some (.reg r) := by
  have hn : n < 17 := (isSome_getElem? regTable n).1 (by rw [h]; rfl)
  unfold locate
  rw [if_neg (by omega), if_pos (by omega), show 4 * n / 4 = n by omega, h]
  rfl

/-- A host read of a register word returns the register (R62). -/
theorem hostRead_reg (s : State) (n : Nat) (r : Reg) (h : regTable[n]? = some r) :
    hostRead s (4 * n) = some (regRead s r) := by
  unfold hostRead
  rw [locate_reg s.cfg h]
  rfl

/-- After either reset every register reads 0, and the tables and `OUT_BUF` read as 0 through their gates (R55). -/
theorem resetRegisters_atReset (s : State) : (resetRegisters s).AtReset := by
  refine ⟨rfl, ?_, fun _ => rfl, fun _ _ => rfl, fun _ _ => rfl, fun k => ?_⟩
  · have flags : Flags.clear.toWord = 0 := by decide
    have high : (0 : Quad).extractLsb' 32 32 = 0 := by decide
    intro r
    cases r with
    | status => exact flags
    | errInfoHi | tokCountHi | bitCountHi => exact high
    | _ => rfl
  · have gate : ∀ j, readOutByte (resetRegisters s) j = 0 := fun j => if_neg (Nat.not_lt_zero j)
    simp only [readOut, gate]
    rfl

/-! ### The code table (R46, R170) -/

@[simp] theorem CodeEntry.path_length (e : CodeEntry) : e.path.length = e.len.toNat := by
  simp [CodeEntry.path]

/-- A tree with two leaves or more is not a single leaf. -/
theorem HTree.isLeaf_eq_false {t : HTree} (h : 2 ≤ t.leafCount) : t.isLeaf = false := by
  cases t with
  | leaf => simp [HTree.leafCount] at h
  | node => rfl

/-- While the code table is valid the tree in the block has `LEAF_COUNT` leaves, at least two and at most 256. -/
theorem State.Inv.leafCount_tree {s : State} (h : s.Inv) (hv : s.flags.codesValid = true) {T : HTree}
    (hT : s.tree = some T) : T.leafCount = s.leafCount.toNat ∧ 2 ≤ T.leafCount ∧ T.leafCount ≤ 256 := by
  obtain ⟨htree, -, htwo⟩ := h.codes hv
  have harena := h.arena htree
  obtain ⟨T', hT', hcount⟩ := harena.tree
  obtain rfl : T' = T := Option.some.inj (hT'.symm.trans hT)
  exact ⟨hcount, hcount ▸ htwo, hcount ▸ harena.bound⟩

/-! ### The invariant of every run -/

/-- The whole of a command word, legal or not, keeps the invariant (R122). -/
theorem State.Inv.execWord {c : Word} {s t : State} (h : s.Inv) (he : execWord c s = .next t) : t.Inv := by
  unfold Machine.execWord at he
  split at he
  · exact h.exec he
  · cases he
    exact h.illegal c

/-- One step keeps the invariant, whatever the block is doing. -/
theorem State.Inv.step {s t : State} (h : s.Inv) (he : step s = .next t) : t.Inv := by
  unfold Machine.step at he
  match hr : s.run with
  | .busy c 0 =>
    rw [hr] at he
    exact h.execWord he
  | .busy c (left + 1) =>
    rw [hr] at he
    cases he
    exact h.busyStep hr
  | .idle =>
    rw [hr] at he
    cases he
    exact h.idleStep

/-- The reset state meets the invariant: it differs from a hard reset only in the count of hard resets. -/
theorem reset_inv : State.reset.Inv := { hardReset_inv (s := State.reset) (by decide) with }

/-! ### The statements -/

/-- Settles O31: the invariant `Merging` of the merge loop makes BUILD's arena valid and each of its merges greedy. -/
theorem buildMergesGreedily : Obligations.BuildMergesGreedily := by
  intro s hv hc
  obtain ⟨node, r, hexec, -, harena, hgreedy⟩ := exec_build hv (leavesOf_ne_nil hc)
  obtain ⟨hleaves, hnodes, hroot⟩ := treeInstalled_arena (i := .build) (s := s) harena
  refine ⟨_, hexec, rfl, ?_, hgreedy⟩
  rw [hleaves, hnodes, hroot]
  exact harena

/-- Settles O59: a step completes a command word, counts down its busy time, or serves the port; each keeps the
invariant. -/
theorem everyStepKeepsTheInvariant : Obligations.EveryStepKeepsTheInvariant := fun _ _ h he => h.step he

/-- Settles O37: the valid entries hold the paths to the leaves of one tree, none of which goes on from another. -/
theorem validCodesArePrefixFree : Obligations.ValidCodesArePrefixFree := by
  intro s T h hv hT
  obtain ⟨-, htable, -⟩ := h.codes hv
  obtain ⟨hcount, htwo, h256⟩ := h.leafCount_tree hv hT
  have leads : ∀ a, (s.codeOf a).valid = true → T.follow (s.codeOf a).path = some (.leaf a) :=
    fun a => (codeOf_path hT htable h256 a).2
  refine ⟨fun a b hab ha hb hpre => hab ?_, fun a => ⟨(codeOf_path hT htable h256 a).1, fun ha => ⟨?_, ?_⟩⟩⟩
  · have hsame := HTree.follow_prefix (leads a ha) (leads b hb) hpre
    have hleaf := leads a ha
    rw [hsame, leads b hb] at hleaf
    exact (HTree.leaf.inj (Option.some.inj hleaf)).symm
  · have hne := HTree.follow_ne_nil (HTree.isLeaf_eq_false htwo) (leads a ha)
    rw [← CodeEntry.path_length]
    exact List.length_pos_of_ne_nil hne
  · rw [← CodeEntry.path_length, ← hcount]
    exact HTree.follow_length (leads a ha)

/-- Settles O3, from the bits of the flags on an idle block and the fixed word on a busy one. -/
theorem statusWordLayout : Obligations.StatusWordLayout := by
  refine ⟨fun s hr => ?_, fun s c left hr => ?_⟩
  · rw [State.statusWord, hr]
    exact s.flags.toWord_eq_append
  · rw [State.statusWord, hr]

/-- Settles O4: register word `n` of R21's table is read at address `4n`, a narrow register zero-extended. -/
theorem registerReadsShowTheRegisters : Obligations.RegisterReadsShowTheRegisters := by
  intro s
  have nine : ∀ x : BitVec 9, some (x.setWidth 32) = some (0#23 ++ x) :=
    fun _ => congrArg some (BitVec.setWidth_eq_append (by decide))
  exact ⟨hostRead_reg s 0 .cmd rfl, hostRead_reg s 1 .status rfl,
    (hostRead_reg s 2 .errCode rfl).trans (congrArg some (BitVec.setWidth_eq_append (by decide))),
    hostRead_reg s 3 .lastCmd rfl, hostRead_reg s 4 .errInfoLo rfl, hostRead_reg s 5 .errInfoHi rfl,
    hostRead_reg s 6 .inLen rfl, hostRead_reg s 7 .outLen rfl, hostRead_reg s 8 .tokCountLo rfl,
    hostRead_reg s 9 .tokCountHi rfl, hostRead_reg s 10 .bitCountLo rfl, hostRead_reg s 11 .bitCountHi rfl,
    hostRead_reg s 12 .payWords rfl, hostRead_reg s 13 .total rfl,
    (hostRead_reg s 14 .leafCount rfl).trans (nine _), (hostRead_reg s 15 .nodeCount rfl).trans (nine _),
    (hostRead_reg s 16 .root rfl).trans (nine _)⟩

/-- Settles O27: the reset state is what RESET leaves, and no cell of its buffers is written. -/
theorem resetMeetsTheInvariant : Obligations.ResetMeetsTheInvariant := ⟨reset_inv, resetRegisters_atReset State.reset⟩

end Sys2Proof.Machine
end

section
/-! SUPPORT. The host port (20_memory.md): what an access answers by the place its address names, what a step does at the
port, the words of an entry of NODE and of CODE, the bytes a host write leaves in memory, that a write repeated changes
nothing more; and the proofs of the statements of that file. -/

namespace Sys2Proof.Machine

/-! ### Accesses by place (R62 to R64) -/

theorem hostRead_of_locate {s : State} {a : Nat} {p : Place} (h : locate s.cfg a = some p) :
    hostRead s a = some (readPlace s p) := by
  rw [hostRead, h, Option.map_some]

theorem hostWrite_of_locate {s : State} {a : Nat} {p : Place} (h : locate s.cfg a = some p) (v : Word) :
    hostWrite s a v = some (writePlace s v p) := by
  rw [hostWrite, h, Option.map_some]

/-- A write that completes is the write of the place its address names. -/
theorem hostWrite_eq_some {s t : State} {a : Nat} {v : Word} (h : hostWrite s a v = some t) :
    ∃ p, locate s.cfg a = some p ∧ writePlace s v p = t := Option.map_eq_some_iff.1 h

/-- A host write of a register word writes the register (R62). -/
theorem hostWrite_reg (s : State) (v : Word) (n : Nat) (r : Reg) (h : regTable[n]? = some r) :
    hostWrite s (4 * n) v = some (regWrite s v r) := hostWrite_of_locate (locate_reg s.cfg h) v

/-- An access to an address that is no place is a bus error (R63). -/
theorem performAccess_of_locate_none {s : State} {a : Nat} (h : locate s.cfg a = none) (v : Word) :
    performAccess (.read a) s = answer .err s ∧ performAccess (.write a v) s = answer .err s := by
  constructor
  · simp [performAccess, hostRead, h]
  · simp [performAccess, hostWrite, h]

/-- An access to a place completes (R62). -/
theorem performAccess_of_locate {s : State} {a : Nat} {p : Place} (h : locate s.cfg a = some p) (v : Word) :
    performAccess (.read a) s = answer (.okRead (readPlace s p)) s ∧
      performAccess (.write a v) s = answer .okWrite (writePlace s v p) := by
  constructor
  · simp only [performAccess, hostRead_of_locate h]
  · simp only [performAccess, hostWrite_of_locate h]

/-- Whatever its address, a read only answers (R72). -/
theorem performAccess_read (s : State) (a : Nat) : ∃ r, performAccess (.read a) s = answer r s := by
  match h : locate s.cfg a with
  | none => exact ⟨_, (performAccess_of_locate_none h 0).1⟩
  | some p => exact ⟨_, (performAccess_of_locate h 0).1⟩

/-- What the port has answered is not among the things a host read shows. -/
@[simp] theorem hostRead_answer (r : Reply) (s : State) (b : Nat) : hostRead (answer r s) b = hostRead s b := by
  have place : ∀ p, readPlace (answer r s) p = readPlace s p := fun p => by cases p <;> rfl
  rw [hostRead, hostRead, funext place, answer_cfg]

/-- The words of the windows that ignore a write (R64). -/
theorem hostWrite_readOnly {s : State} {a : Nat} (v : Word) (wf : s.cfg.wf = true) (h4 : a % 4 = 0)
    (h : (0x001000 ≤ a ∧ a < 0x001400) ∨ (0x002000 ≤ a ∧ a < 0x003000) ∨ (0x004000 ≤ a ∧ a < 0x008000) ∨
      (0x200000 ≤ a ∧ a < 0x200000 + s.cfg.outCap)) : hostWrite s a v = some s := by
  rcases h with h | h | h | h
  · obtain ⟨k, rfl⟩ : ∃ k, a = 0x001000 + 4 * k := ⟨(a - 0x001000) / 4, by omega⟩
    exact hostWrite_of_locate (locate_count s.cfg (by omega)) v
  · obtain ⟨k, w, hw, rfl⟩ : ∃ k w, w < 2 ∧ a = 0x002000 + 8 * k + 4 * w :=
      ⟨(a - 0x002000) / 8, (a - 0x002000) % 8 / 4, by omega, by omega⟩
    exact hostWrite_of_locate (locate_node s.cfg (by omega) hw) v
  · obtain ⟨k, m, hm, rfl⟩ : ∃ k m, m < 16 ∧ a = 0x004000 + 64 * k + 4 * m :=
      ⟨(a - 0x004000) / 64, (a - 0x004000) % 64 / 4, by omega, by omega⟩
    exact hostWrite_of_locate (locate_code s.cfg (by omega) hm) v
  · obtain ⟨-, ⟨hout, -, -⟩, -, -⟩ := (Config.wf_iff s.cfg).1 wf
    obtain ⟨k, rfl⟩ : ∃ k, a = outBase + 4 * k := ⟨(a - 0x200000) / 4, by unfold outBase; omega⟩
    exact hostWrite_of_locate (locate_outBuf wf (by unfold outBase at h; omega)) v

/-! ### A step at the port (R73, R75, R127) -/

theorem step_idle {s : State} (h : s.run = .idle) : step s = .next (idleStep s) := by
  rw [step, h]

theorem step_busy_zero {s : State} {c : Word} (h : s.run = .busy c 0) : step s = execWord c s := by
  rw [step, h]

theorem step_busy_succ {s : State} {c : Word} {n : Nat} (h : s.run = .busy c (n + 1)) :
    step s = .next (busyStep c n s) := by
  rw [step, h]

theorem idleStep_held {s : State} {x : Access} (h : s.held = some x) :
    idleStep s = performAccess x { s with held := none } := by
  rw [idleStep, h]

theorem idleStep_nothing {s : State} (hh : s.held = none) (hp : s.port = []) : idleStep s = s := by
  rw [idleStep, hh, hp]

theorem idleStep_access {s : State} {x : Access} {rest : List HostEvent} (hh : s.held = none)
    (hp : s.port = .access x :: rest) : idleStep s = performAccess x { s with port := rest } := by
  rw [idleStep, hh, hp]

/-- A busy block takes an access it does not answer, and the host waits (R73). -/
theorem busyStep_hold {s : State} {c : Word} {n : Nat} {x : Access} {rest : List HostEvent} (hh : s.held = none)
    (hp : s.port = .access x :: rest) (hx : x ≠ .read statusAddr) :
    busyStep c n s = { s with run := .busy c n, port := rest, held := some x } := by
  simp only [busyStep, hp, hh, if_neg hx]

/-- A read of `STATUS` is answered in the busy time (R127). -/
theorem busyStep_status {s : State} {c : Word} {n : Nat} {rest : List HostEvent} (hh : s.held = none)
    (hp : s.port = .access (.read statusAddr) :: rest) :
    busyStep c n s = answer (.okRead 1) { s with run := .busy c n, port := rest } := by
  simp only [busyStep, hp, hh, if_true]

/-- While an access is held the host does nothing more (R73). -/
theorem busyStep_waiting {s : State} {c : Word} {n : Nat} {x : Access} (hh : s.held = some x)
    (hp : ∀ rest, s.port ≠ .hardReset :: rest) : busyStep c n s = { s with run := .busy c n } := by
  match h : s.port with
  | [] => simp only [busyStep, h]
  | .hardReset :: rest => exact absurd h (hp rest)
  | .access y :: rest => simp only [busyStep, h, hh]

/-! ### The words of an entry (R70, R71, R98, R99) -/

theorem readNode_closed {s : State} {k : Nat} (h : ¬ (s.flags.treeValid = true ∧ k < s.nodeCount.toNat)) (word : Nat) :
    readNode s k word = 0 := by
  simp [readNode, h]

theorem readNode_open {s : State} {k : Nat} {n : Node} (hv : s.flags.treeValid = true) (hk : k < s.nodeCount.toNat)
    (hn : s.node[k]? = some n) : readNode s k 0 = n.word0 ∧ readNode s k 1 = n.word1 := by
  simp [readNode, hv, hk, hn]

theorem readCode_closed {s : State} (h : s.flags.codesValid = false) (sym m : Nat) : readCode s sym m = 0 := by
  simp [readCode, h]

theorem readCode_open {s : State} (h : s.flags.codesValid = true) (sym : Byte) (m : Nat) :
    readCode s sym.toNat m = (s.codeOf sym).word m := by
  simp [readCode, h, State.codeOf]

/-- Word 1 of an internal node, field by field from the top (R98). -/
theorem Node.word1_internal (w : Word) (left right : NodeIx) :
    (Node.internal w left right).word1 = 1#1 ++ 0#5 ++ right ++ left ++ 0#8 := by
  rw [← BitVec.setWidth_eq (1#1 ++ 0#5 ++ right ++ left ++ 0#8)]
  simp only [BitVec.setWidth_append_eq_shiftLeft_setWidth_or, BitVec.shiftLeft_or_distrib, ← BitVec.shiftLeft_add]
  simp [Node.word1]

/-- The header word, field by field from the top (R99). -/
theorem CodeEntry.word_zero (e : CodeEntry) : e.word 0 = BitVec.ofBool e.valid ++ 0#22 ++ e.len := by
  rw [← BitVec.setWidth_eq (BitVec.ofBool e.valid ++ 0#22 ++ e.len)]
  simp only [BitVec.setWidth_append_eq_shiftLeft_setWidth_or, BitVec.shiftLeft_or_distrib, ← BitVec.shiftLeft_add]
  cases h : e.valid <;> simp [CodeEntry.word, flagBit, h]

/-- Code bit `k` is bit `k mod 32` of word `1 + k / 32` (R99). -/
theorem CodeEntry.word_bits (e : CodeEntry) {k : Nat} (h : k < 256) :
    (e.word (1 + k / 32)).getLsbD (k % 32) = e.bits.getLsbD k := by
  rw [CodeEntry.word, if_neg (by omega), if_pos (by omega), BitVec.getLsbD_extractLsb',
    show 32 * (1 + k / 32 - 1) + k % 32 = k by omega]
  simp [Nat.mod_lt]

theorem CodeEntry.word_high (e : CodeEntry) {m : Nat} (h : 9 ≤ m) : e.word m = 0 := by
  rw [CodeEntry.word, if_neg (by omega), if_neg (by omega)]

/-! ### The bytes a host write leaves (R65, R67, R68) -/

theorem State.byteAt_setWord (s : State) (a : Nat) (v : Word) (x : Nat) :
    ({ s with mem := s.mem.setWord a v } : State).byteAt x =
      if a ≤ x ∧ x < a + 4 then byteOf v (x - a) else s.byteAt x := by
  simp only [State.byteAt, Memory.get_setWord]
  split <;> rfl

theorem State.byteAt_setWord_inside (s : State) (a : Nat) (v : Word) {n : Nat} (h : n < 4) :
    ({ s with mem := s.mem.setWord a v } : State).byteAt (a + n) = byteOf v n := by
  rw [State.byteAt_setWord, if_pos (by omega), Nat.add_sub_cancel_left]

theorem State.byteAt_setWord_outside (s : State) (a : Nat) (v : Word) {x : Nat} (h : x < a ∨ a + 4 ≤ x) :
    ({ s with mem := s.mem.setWord a v } : State).byteAt x = s.byteAt x := by
  rw [State.byteAt_setWord, if_neg (by omega)]

/-- A token's write stays in its cell, and is dropped where there is none (R67). -/
theorem Memory.get_setToken_outside_cell (m : Memory) {t : Nat} (v : Token) {x : Nat}
    (h : tokCap ≤ t ∨ x < tokBase + 2 * t ∨ tokBase + 2 * t + 2 ≤ x) : (m.setToken t v).get x = m.get x := by
  rw [Memory.get_setToken, if_neg (by omega), if_neg (by omega)]

/-! ### A write repeated (R72) -/

theorem Memory.setWord_setWord {m : Memory} (h : m.wf) (a : Nat) (v : Word) :
    (m.setWord a v).setWord a v = m.setWord a v := by
  refine Memory.ext (Memory.wf_setWord (Memory.wf_setWord h a v) a v) (Memory.wf_setWord h a v) fun x => ?_
  simp only [Memory.get_setWord]
  split <;> rfl

/-- The same two tokens written again. -/
theorem Memory.setToken_pair_again {m : Memory} (h : m.wf) (t : Nat) (lo hi : Token) :
    ((((m.setToken t lo).setToken (t + 1) hi).setToken t lo).setToken (t + 1) hi) =
      (m.setToken t lo).setToken (t + 1) hi := by
  have wf1 := Memory.wf_setToken (Memory.wf_setToken h t lo) (t + 1) hi
  refine Memory.ext (Memory.wf_setToken (Memory.wf_setToken wf1 t lo) (t + 1) hi) wf1 fun x => ?_
  simp only [Memory.get_setToken]
  split_ifs <;> rfl

/-- Outside `CMD` a host write changes at most the buffers and the read-write registers (R72). -/
theorem writePlace_stores (s : State) (v : Word) {p : Place} (hp : p ≠ .reg .cmd) :
    writePlace s v p = { s with
      mem := (writePlace s v p).mem
      inLen := (writePlace s v p).inLen
      tokCount := (writePlace s v p).tokCount
      bitCount := (writePlace s v p).bitCount
      payWords := (writePlace s v p).payWords } := by
  cases p with
  | reg r =>
    cases r with
    | cmd => exact absurd rfl hp
    | _ => rfl
  | _ => rfl

/-- Outside `CMD` a host write done again leaves the same state (R72). -/
theorem writePlace_writePlace {s : State} (hm : s.mem.wf) (v : Word) {p : Place} (hp : p ≠ .reg .cmd) :
    writePlace (writePlace s v p) v p = writePlace s v p := by
  cases p with
  | reg r =>
    cases r with
    | cmd => exact absurd rfl hp
    | tokCountLo | tokCountHi | bitCountLo | bitCountHi => simp [writePlace, regWrite]
    | _ => rfl
  | count | node | code | outBuf => rfl
  | tok k => simp only [writePlace, Memory.setToken_pair_again hm]
  | inBuf k => simp only [writePlace, Memory.setWord_setWord hm]
  | pay w => simp only [writePlace, Memory.setPay, Memory.setWord_setWord hm]

/-! ### The statements -/

/-- Settles O5: an address names a place exactly when it is aligned, below 2^23 and mapped. -/
theorem busErrorExactlyWhereUnmapped : Obligations.BusErrorExactlyWhereUnmapped := by
  intro s a v
  rw [← locate_isSome]
  match h : locate s.cfg a with
  | none => exact ⟨fun _ => performAccess_of_locate_none h v, fun hs => by cases hs⟩
  | some p =>
    obtain ⟨hread, hwrite⟩ := performAccess_of_locate h v
    exact ⟨fun hs => absurd rfl hs, fun _ => ⟨⟨_, hread⟩, _, hostWrite_of_locate h v, hwrite⟩⟩

/-- Settles O6: the place of each address, and what `writePlace` does there. -/
theorem writesStoreOnlyWhereWritable : Obligations.WritesStoreOnlyWhereWritable := by
  intro s v wf
  have reg := hostWrite_reg s v
  refine ⟨?_, fun a h4 h => hostWrite_readOnly v wf h4 h, reg 6 .inLen rfl, reg 8 .tokCountLo rfl,
    reg 9 .tokCountHi rfl, reg 10 .bitCountLo rfl, reg 11 .bitCountHi rfl, reg 12 .payWords rfl, hostRead_reg s 0 .cmd rfl⟩
  simp only [List.forall_mem_cons]
  exact ⟨reg 1 .status rfl, reg 2 .errCode rfl, reg 3 .lastCmd rfl, reg 4 .errInfoLo rfl, reg 5 .errInfoHi rfl,
    reg 7 .outLen rfl, reg 13 .total rfl, reg 14 .leafCount rfl, reg 15 .nodeCount rfl, reg 16 .root rfl,
    List.forall_mem_nil _⟩

/-- Settles O7, from the bytes of a word that was written. -/
theorem inBufWordView : Obligations.InBufWordView := by
  intro s k wf hk
  have place := locate_inBuf wf hk
  refine ⟨hostRead_of_locate place, fun v => ⟨_, hostWrite_of_locate place v, rfl, ?_⟩⟩
  have byte {n : Nat} (hn : n < 4) := s.byteAt_setWord_inside (inBase + 4 * k) v hn
  exact ⟨byte (n := 0) (by decide), byte (n := 1) (by decide), byte (n := 2) (by decide), byte (n := 3) (by decide),
    fun a ha => s.byteAt_setWord_outside _ v ha⟩

/-- Settles O8: slot 511 is no cell, and the write of one token leaves the other's bytes alone. -/
theorem tokBufWordView : Obligations.TokBufWordView := by
  intro s k hk
  have place := locate_tok s.cfg hk
  refine ⟨(hostRead_of_locate place).trans ?_, fun i => rfl, fun v => ⟨_, hostWrite_of_locate place v, rfl, ?_, ?_, ?_⟩⟩
  · have last : 2 * k + 1 < tokCap ↔ ¬ k = 255 := by unfold tokCap; omega
    simp only [readPlace, readTok, last, ite_not]
  · refine State.token_of_setToken (m := s.mem) (by unfold tokCap; omega) fun x _ hx => ?_
    exact Memory.get_setToken_outside_cell _ _ (by omega)
  · intro hlt
    exact State.token_of_setToken (by unfold tokCap; omega) fun _ _ _ => rfl
  · intro a ha
    have low : a < tokBase + 2 * (2 * k) ∨ tokBase + 2 * (2 * k) + 2 ≤ a := by
      unfold tokBase
      split at ha <;> omega
    have high : tokCap ≤ 2 * k + 1 ∨ a < tokBase + 2 * (2 * k + 1) ∨ tokBase + 2 * (2 * k + 1) + 2 ≤ a := by
      unfold tokBase tokCap
      split at ha <;> omega
    exact State.byteAt_congr a
      ((Memory.get_setToken_outside_cell _ _ high).trans (Memory.get_setToken_outside_cell _ _ (.inr low))) rfl

/-- Settles O9, from the word that was written and the bytes outside it. -/
theorem payBufWordView : Obligations.PayBufWordView := by
  intro s w wf hw
  have place := locate_pay wf hw
  refine ⟨hostRead_of_locate place, fun b hb => ?_, rfl, fun v => ⟨_, hostWrite_of_locate place v, rfl, ?_, ?_⟩⟩
  · rw [State.payBit, show (32 * w + b) / 32 = w by omega, show (32 * w + b) % 32 = b by omega]
  · exact State.wordAt_of_setWord (m := s.mem) fun _ _ _ => rfl
  · exact fun a ha => s.byteAt_setWord_outside _ v ha

/-- Settles O13: the gate, then the words of an entry. -/
theorem codeWindowLayout : Obligations.CodeWindowLayout := by
  intro s sym
  have word : ∀ m, m < 16 → hostRead s (0x004000 + 64 * sym.toNat + 4 * m) = some (readCode s sym.toNat m) :=
    fun m hm => hostRead_of_locate (locate_code s.cfg sym.isLt hm)
  refine ⟨fun hv m hm => ?_, fun hv => ⟨?_, fun k hk => ⟨_, word _ (by omega), ?_⟩, fun m h9 hm => ?_⟩⟩
  · rw [word m hm, readCode_closed hv]
  · rw [← CodeEntry.word_zero, ← readCode_open hv]
    exact word 0 (by decide)
  · rw [readCode_open hv, CodeEntry.word_bits _ hk]
  · rw [word m hm, readCode_open hv, CodeEntry.word_high _ h9]

/-- Settles O14: a read only answers; a write stores at the place of its address, and again stores the same. -/
theorem onlyCmdWritesHaveSideEffects : Obligations.OnlyCmdWritesHaveSideEffects := by
  refine ⟨fun s a => ?_, fun s c => ⟨_, _, hostWrite_reg s c 0 .cmd rfl, rfl⟩, fun s t a v hm ha hw => ?_⟩
  · obtain ⟨r, hr⟩ := performAccess_read s a
    exact ⟨r, hr, fun b => by rw [hr, hostRead_answer]⟩
  · obtain ⟨p, hloc, rfl⟩ := hostWrite_eq_some hw
    have hp : p ≠ .reg .cmd := by
      rintro rfl
      exact ha (locate_cmd hloc)
    have stores := writePlace_stores s v hp
    have hcfg : (writePlace s v p).cfg = s.cfg := by rw [stores]
    refine ⟨stores, ?_⟩
    rw [hostWrite_of_locate (hcfg ▸ hloc), writePlace_writePlace hm v hp]

/-- Settles O10: each byte of the word passes its own gate. -/
theorem outBufReadsGatedByOutLen : Obligations.OutBufReadsGatedByOutLen := by
  intro s k v wf hk
  have place := locate_outBuf wf hk
  refine ⟨⟨_, hostRead_of_locate place, fun n hn => ?_⟩, hostWrite_of_locate place v⟩
  have byte : byteOf (readOut s k) n = readOutByte s (4 * k + n) := by
    rw [readOut, byteOf_wordOf _ _ _ _ n hn]
    rcases (by omega : n = 0 ∨ n = 1 ∨ n = 2 ∨ n = 3) with rfl | rfl | rfl | rfl <;> rfl
  exact byte

/-- Settles O11: the place of each address of the window is the count of its byte. -/
theorem countWindowGated : Obligations.CountWindowGated :=
  fun s _ h => hostRead_of_locate (locate_count s.cfg h)

/-- Settles O12: the gate, then the words of a leaf and of an internal node. -/
theorem nodeWindowLayout : Obligations.NodeWindowLayout := by
  intro s k hk
  have word0 : hostRead s (0x002000 + 8 * k) = some (readNode s k 0) :=
    hostRead_of_locate (locate_node s.cfg hk (w := 0) (by decide))
  have word1 : hostRead s (0x002000 + 8 * k + 4) = some (readNode s k 1) :=
    hostRead_of_locate (locate_node s.cfg hk (w := 1) (by decide))
  rw [word0, word1]
  refine ⟨fun h => ?_, fun hv hlt => ⟨fun sym w hn => ?_, fun w left right hn => ?_⟩⟩
  · rw [readNode_closed h, readNode_closed h]
    exact ⟨rfl, rfl⟩
  · obtain ⟨h0, h1⟩ := readNode_open hv hlt hn
    rw [h0, h1]
    exact ⟨rfl, congrArg some (BitVec.setWidth_eq_append (by decide))⟩
  · obtain ⟨h0, h1⟩ := readNode_open hv hlt hn
    rw [h0, h1, Node.word1_internal]
    exact ⟨rfl, rfl⟩

/-- Settles O17: the cases of a busy step, the held access of an idle one, and a completion that leaves the port alone. -/
theorem accessesAreHeldWhileBusy : Obligations.AccessesAreHeldWhileBusy := by
  refine ⟨fun s c n hr => ?_, fun s x hr hh => ?_, fun s t c hr ht => ?_⟩
  · rw [step_busy_succ hr]
    exact ⟨fun x rest hp hx hh => congrArg _ (busyStep_hold hh hp hx),
      fun x hh hp => congrArg _ (busyStep_waiting hh hp), fun rest hp hh => congrArg _ (busyStep_status hh hp)⟩
  · rw [step_idle hr, idleStep_held hh]
  · rw [step_busy_zero hr] at ht
    exact (execWord_idle ht).2

/-- Settles O18: the cases of an idle step that holds no access. -/
theorem idleBlockServesThePortInOrder : Obligations.IdleBlockServesThePortInOrder := by
  intro s hr hh
  rw [step_idle hr]
  exact ⟨fun hp => congrArg _ (idleStep_nothing hh hp), fun x rest hp => congrArg _ (idleStep_access hh hp)⟩

end Sys2Proof.Machine
end

section
/-! SUPPORT. The command words (30_encoding.md R90 to R94), ENCODE's payload, and the compressed file from COMPRESS to
DECOMPRESS (R103, R236 to R239); the proofs of the statements of that file. -/

namespace Sys2Proof.Machine

/-! ### The command word (R90 to R92, R94) -/

/-- A word is its two fields (R90). -/
theorem rsvdField_append_opcodeField (c : Word) : rsvdField c ++ opcodeField c = c := by
  refine BitVec.eq_of_getLsbD_eq fun i hi => ?_
  rw [BitVec.getLsbD_append, opcodeField, rsvdField, BitVec.getLsbD_extractLsb', BitVec.getLsbD_extractLsb', Nat.zero_add]
  rcases Nat.lt_or_ge i 8 with h | h
  · simp [h]
  · rw [show 8 + (i - 8) = i by omega]
    simp [Nat.not_lt.2 h, show i - 8 < 24 by omega]

@[simp] theorem rsvdField_encode (i : Instr) : rsvdField (encode i) = 0 := by cases i <;> rfl

/-- R91's table by the word of each command: an opcode selects the command in whose word it stands. -/
theorem opcodeMap_eq_ok_iff (op : BitVec 8) (i : Instr) : opcodeMap op = .ok i ↔ op = opcodeField (encode i) := by
  constructor
  · intro h
    apply BitVec.eq_of_toNat_eq
    unfold opcodeMap at h
    split at h <;> cases h <;> assumption
  · rintro rfl
    cases i <;> rfl

/-- The words that select a command, by their fields. -/
theorem decode_eq_ok_iff (c : Word) (i : Instr) : decode c = .ok i ↔ rsvdField c = 0 ∧ opcodeField c = opcodeField (encode i) := by
  unfold decode
  by_cases h : rsvdField c = 0
  · rw [if_pos h, opcodeMap_eq_ok_iff]
    exact (and_iff_right h).symm
  · rw [if_neg h]
    exact iff_of_false (by simp) fun he => h he.1

theorem decode_encode (i : Instr) : decode (encode i) = .ok i := (decode_eq_ok_iff _ _).2 ⟨rsvdField_encode i, rfl⟩

/-- A word that selects a command is that command's word. -/
theorem encode_of_decode {c : Word} {i : Instr} (h : decode c = .ok i) : encode i = c := by
  obtain ⟨hr, ho⟩ := (decode_eq_ok_iff c i).1 h
  rw [← rsvdField_append_opcodeField c, ← rsvdField_append_opcodeField (encode i), hr, ho, rsvdField_encode]

/-- Settles O1: the table written out holds each command's opcode beside it, and no other pair. -/
theorem commandWordsSelectTheirCommands : Obligations.CommandWordsSelectTheirCommands := by
  intro c i
  refine (decode_eq_ok_iff c i).trans (and_congr_right fun _ => ?_)
  show opcodeField c = _ ↔ (opcodeField c, i) ∈ _
  cases i <;> simp [opcodeField, encode]

/-- Settles O2, from the fields of a word. -/
theorem encodeAndDecodeAgree : Obligations.EncodeAndDecodeAgree := ⟨decode_encode, fun _ _ => encode_of_decode⟩

/-! ### What ENCODE leaves behind (R200 to R207) -/

/-- The payload registers and words in the block are those of a bit sequence (R101, R102): its length, the words it
takes, and its bits in order. What the last word holds beyond them is left open. -/
structure State.HoldsPayload (s : State) (bits : List Bool) : Prop where
  bitCount : s.bitCount.toNat = bits.length
  payWords : s.payWords.toNat = wordsFor bits.length
  payBit : ∀ i, i < bits.length → s.payBit i = bits.getD i false

theorem encodeEnded_tokCount (e : EncodeLocals) (s : State) : (s.encodeEnded e).tokCount = s.tokCount := by
  unfold State.encodeEnded
  split_ifs <;> rfl

/-- After the last byte ENCODE fails exactly when a partial last word has no room (R207). -/
theorem Packed.encodeEnded_err {s : State} {bits : List Bool} {e : EncodeLocals} (h : Packed s.mem bits e)
    (hw : e.w ≤ s.cfg.payCap) : (s.encodeEnded e).flags.err = false ↔ bits.length ≤ 32 * s.cfg.payCap := by
  have hp := h.p
  have hword := h.w
  unfold State.encodeEnded
  split_ifs with hfull hroom
  · exact iff_of_true rfl (by omega)
  · exact iff_of_false (by simp [State.encodeFailed, State.failed]) (by omega)
  · exact iff_of_true rfl (by omega)

/-- The padded last word reads back as the bits of the unfinished word (R206). -/
theorem Packed.lastWord {m0 : Memory} {bits : List Bool} {e : EncodeLocals} (h : Packed m0 bits e) (padding : Word) {i : Nat}
    (hi : i < bits.length) (hw : i / 32 = e.w) :
    (padWord e.acc (e.p % 32) padding).getLsbD (i % 32) = bits.getD i false := by
  have hword := h.w
  rw [padWord_getLsbD _ _ _ _ (by omega), if_pos (by rw [h.p]; omega), h.acc, wordOfBits_getLsbD]
  simp only [show i % 32 < 32 by omega, decide_true, Bool.true_and, List.getD_eq_getElem?_getD, List.getElem?_drop]
  rw [show 32 * e.w + i % 32 = i by omega]

/-- When its bits fit, ENCODE leaves them as the payload (R203, R206). -/
theorem Packed.encodeEnded_payload {s : State} {bits : List Bool} {e : EncodeLocals} (h : Packed s.mem bits e)
    (hcap : s.cfg.payCap ≤ 2 ^ 20) (hfit : bits.length ≤ 32 * s.cfg.payCap) : (s.encodeEnded e).HoldsPayload bits := by
  have hp := h.p
  have hw := h.w
  unfold State.encodeEnded
  split_ifs with hfull hroom
  · refine ⟨?_, ?_, fun i hi => h.payBit (fun _ _ _ => rfl) (by omega)⟩
    · simp only [BitVec.toNat_ofNat]
      omega
    · simp only [BitVec.toNat_ofNat, wordsFor]
      omega
  · omega
  · refine ⟨?_, ?_, fun i hi => ?_⟩
    · simp only [BitVec.toNat_ofNat]
      omega
    · simp only [BitVec.toNat_ofNat, wordsFor]
      omega
    · rcases Nat.lt_or_ge (i / 32) e.w with hlt | hge
      · refine h.payBit (fun x _ hx => ?_) hlt
        rw [Memory.get_setPay, if_neg (by omega)]
      · have hlast : i / 32 = e.w := by omega
        rw [← h.lastWord s.padBits hi hlast, State.payBit, hlast]
        exact congrArg (fun v : Word => v.getLsbD (i % 32)) (State.wordAt_of_setWord (m := e.mem) fun _ _ _ => rfl)

/-- ENCODE of an input whose bytes all have codes (R200 to R207): it succeeds exactly when the payload fits `PAY_BUF`, and
then the payload is the codes in order. -/
theorem exec_encode_codes {s : State} (h : s.Inv) (hv : s.flags.codesValid = true) (hin : s.inLen.toNat ≤ s.cfg.inCap)
    (hvalid : ∀ b ∈ s.input, (s.codeOf b).valid = true) :
    ∃ t, exec .encode s = .next t ∧ (t.flags.err = false ↔ (s.codeBits s.input).length ≤ 32 * s.cfg.payCap) ∧
      (t.flags.err = false → t.HoldsPayload (s.codeBits s.input)) ∧ t.tokCount = s.tokCount := by
  obtain ⟨-, -, -, hcap⟩ := (Config.wf_iff _).1 h.params
  rcases exec_encode_ends hv hin with
    ⟨e, -, -, hpack, hw, hexec⟩ | ⟨n, e, hn, -, hbad, -⟩ | ⟨n, e, hn, -, -, hspill, -, -, hexec⟩
  · have herr := hpack.encodeEnded_err hw
    exact ⟨_, hexec, herr, fun he => hpack.encodeEnded_payload hcap (herr.1 he), encodeEnded_tokCount e s⟩
  · have hgood := hvalid _ (List.mem_of_mem_take (s.inByte_mem_take n hn))
    rw [hgood] at hbad
    cases hbad
  · obtain ⟨rest, hrest⟩ := s.codeBits_take_add (n + 1) s.inLen.toNat hn
    rw [List.take_of_length_le (by simp)] at hrest
    refine ⟨_, hexec, iff_of_false (by simp [State.encodeFailed, State.failed]) ?_,
      fun he => by simp [State.encodeFailed, State.failed] at he, rfl⟩
    rw [hrest, List.length_append]
    omega

/-! ### COMPRESS (R236) -/

/-- The input is what the length and the bytes of the buffers say. -/
theorem State.input_congr {s t : State} (hlen : t.inLen = s.inLen) (hm : t.mem = s.mem) (hp : t.powerCycle = s.powerCycle) :
    t.input = s.input := by
  unfold State.input State.inByte State.byteAt
  rw [hlen, hm, hp]

/-- The commands of COMPRESS, once the input and its length are in the block. -/
def compressCommands : List HostLine :=
  [.command .freq, .command .build, .command .gencodes, .command .serialize, .command .encode]

theorem compress_eq_some_iff {x f : List Byte} {s : State} : compress x s = some f ↔
    ∃ t, runLines (compressLines s.cfg x) s = .next t ∧ t.flags.err = false ∧ (fileOf t).bytes = f := by
  unfold compress
  match runLines (compressLines s.cfg x) s with
  | .next t => cases h : t.flags.err <;> simp [h]
  | .fault r => simp
  | .refused r => simp

/-- On an empty input FREQ fails, and the sequence stops there (R137, R236). -/
theorem compressCommands_empty {b : State} (hlen : b.inLen = 0) :
    runLines compressCommands b = .next ((issued .freq b).freqFailed .emptyInput 0) := by
  have hissued := issued_carries .freq b
  have hexec := exec_freq (issued .freq b)
  rw [hissued.inLen, hlen, if_neg (by simp), if_pos rfl] at hexec
  exact (runLines_command hexec _).trans (if_pos rfl)

/-- What holds of a tree whose leaves are the bytes of the input, each once. -/
structure HTree.Covers (T : HTree) (x : List Byte) : Prop where
  mem : ∀ b, b ∈ T.leafSyms ↔ b ∈ x
  nodup : T.leafSyms.Nodup
  small : T.leafCount ≤ 256

theorem HTree.Covers.isLeaf {T : HTree} {x : List Byte} (h : T.Covers x) :
    T.isLeaf = false ↔ ∃ a ∈ x, ∃ b ∈ x, a ≠ b := by
  rw [HTree.isLeaf_of_syms h.nodup]
  simp only [h.mem]

/-- FREQ and BUILD succeed on an input that is not empty: the sequence goes on with a tree of its bytes. -/
theorem compressCommands_tree {b : State} (h : b.Inv) (hlen : b.inLen ≠ 0) (hin : b.inLen.toNat ≤ b.cfg.inCap) :
    ∃ t T, runLines compressCommands b = runLines [.command .gencodes, .command .serialize, .command .encode] t ∧
      t.Inv ∧ t.flags.treeValid = true ∧ t.tree = some T ∧ T.Covers b.input ∧ t.input = b.input ∧ t.cfg = b.cfg ∧
      t.inLen = b.inLen := by
  obtain ⟨s1, t, T, hfreq, herr1, hbuild, herr2, hinv, hvalid, hT, hmem, hnodup, hsmall, hinLen, hcfg, hm, hcycle⟩ :=
    freq_build (issued_carries .freq) (issued_carries .build) h hlen hin
  refine ⟨t, T, ?_, hinv, hvalid, hT, ⟨hmem, hnodup, hsmall⟩, State.input_congr hinLen hm hcycle, hcfg, hinLen⟩
  rw [compressCommands, runLines_command hfreq, herr1, if_neg (by simp), runLines_command hbuild, herr2, if_neg (by simp)]

/-- On a tree of a single leaf GENCODES fails, and the sequence stops there (R168, R236). -/
theorem runLines_gencodes_leaf {t : State} {T : HTree} (hv : t.flags.treeValid = true) (hT : t.tree = some T)
    (hl : T.isLeaf = true) (ls : List HostLine) :
    ∃ u, runLines (.command .gencodes :: ls) t = .next u ∧ u.flags.err = true := by
  have hissued := issued_carries .gencodes t
  obtain ⟨sym, w, hroot, -⟩ := State.root_of_leaf (s := issued .gencodes t) (by rw [hissued.tree, hT]) hl
  have hexec := exec_gencodes_leaf (by rw [hissued.treeValid, hv]) hroot
  exact ⟨_, (runLines_command hexec ls).trans (if_pos rfl), rfl⟩

/-- The block holds the serialized tree `T` and the payload `bits` (R238). -/
structure State.HoldsFile (s : State) (T : HTree) (bits : List Bool) : Prop where
  tokCount : s.tokCount.toNat = T.ser.length
  tokens : s.tokens = T.ser
  payload : s.HoldsPayload bits

/-- SERIALIZE keeps the input: its tokens lie below `IN_BUF`. -/
theorem exec_serialize_input {s t : State} (h : exec .serialize s = .next t) (hlen : t.inLen = s.inLen) :
    t.input = s.input := by
  unfold State.input
  rw [hlen]
  exact List.map_congr_left fun j _ => (exec_storesWithin h).byteAt (.inr (by
    simp only [storeWindow, tokBase, tokCap, inBase]
    omega))

/-- ENCODE keeps the tokens: its words lie above `TOK_BUF`. -/
theorem exec_encode_tokens {s t : State} (h : exec .encode s = .next t) (hcount : t.tokCount = s.tokCount)
    (hcap : s.tokCount.toNat ≤ tokCap) : t.tokens = s.tokens := by
  unfold State.tokens
  rw [hcount]
  refine List.map_congr_left fun k hk => ?_
  have hk : k < tokCap := Nat.lt_of_lt_of_le (List.mem_range.1 hk) hcap
  have byte : ∀ n, n < 2 → t.byteAt (tokBase + 2 * k + n) = s.byteAt (tokBase + 2 * k + n) :=
    fun n hn => (exec_storesWithin h).byteAt (.inl (by
      simp only [storeWindow, tokBase, payBase, tokCap] at hk ⊢
      omega))
  exact congrArg₂ (· ++ ·) (byte 1 (by decide)) (byte 0 (by decide))

/-- SERIALIZE of a tree whose tokens fit: the block holds them, and keeps its input and its codes (R180). -/
theorem exec_serialize_tokens {s : State} {T : HTree} (h : s.Inv) (hv : s.flags.treeValid = true) (hT : s.tree = some T)
    (hcap : T.ser.length ≤ tokCap) :
    ∃ t, exec .serialize s = .next t ∧ t.flags.err = false ∧ t.Inv ∧ t.tokCount.toNat = T.ser.length ∧ t.tokens = T.ser ∧
      t.input = s.input ∧ t.inLen = s.inLen ∧ t.cfg = s.cfg ∧ t.flags.codesValid = s.flags.codesValid ∧ t.codeOf = s.codeOf := by
  have hexec := exec_serialize hv hT
  have hcount : (BitVec.ofNat 64 T.ser.length).toNat = T.ser.length := by
    unfold tokCap at hcap
    rw [BitVec.toNat_ofNat]
    omega
  exact ⟨_, hexec, rfl, h.exec hexec, hcount, State.tokens_of_setTokens hcount hcap rfl, exec_serialize_input hexec rfl,
    rfl, rfl, rfl, rfl⟩

/-- SERIALIZE then ENCODE, as lines (R236): ENCODE succeeds exactly when the payload fits, and then the block holds the
file. -/
theorem runLines_serialize_encode {s : State} {T : HTree} (h : s.Inv) (hv : s.flags.treeValid = true) (hT : s.tree = some T)
    (hcap : T.ser.length ≤ tokCap) (hc : s.flags.codesValid = true) (hin : s.inLen.toNat ≤ s.cfg.inCap)
    (hvalid : ∀ b ∈ s.input, (s.codeOf b).valid = true) :
    ∃ u, runLines [.command .serialize, .command .encode] s = .next u ∧
      (u.flags.err = false ↔ (s.codeBits s.input).length ≤ 32 * s.cfg.payCap) ∧
      (u.flags.err = false → u.HoldsFile T (s.codeBits s.input)) := by
  have toSer := issued_carries .serialize s
  obtain ⟨t, hser, herr, hinv, hcount, htokens, hinput, hlen, hcfg, hcodes, hcodeOf⟩ :=
    exec_serialize_tokens (toSer.inv h) (toSer.treeValid.trans hv) (toSer.tree.trans hT) hcap
  have toEnc := issued_carries .encode t
  have cfg := toEnc.cfg.trans (hcfg.trans toSer.cfg)
  have inLen := toEnc.inLen.trans (hlen.trans toSer.inLen)
  have input := toEnc.input.trans (hinput.trans toSer.input)
  have codeOf := toEnc.codeOf.trans (hcodeOf.trans toSer.codeOf)
  have codeBits : (issued .encode t).codeBits = s.codeBits := by unfold State.codeBits; rw [codeOf]
  obtain ⟨u, henc, hfits, hpayload, huc⟩ := exec_encode_codes (toEnc.inv hinv)
    (toEnc.codesValid.trans (hcodes.trans (toSer.codesValid.trans hc))) (by rw [inLen, cfg]; exact hin)
    (by rw [input, codeOf]; exact hvalid)
  rw [codeBits, input, cfg] at hfits
  rw [codeBits, input] at hpayload
  have htoks := exec_encode_tokens henc huc (by rw [toEnc.tokCount, hcount]; exact hcap)
  refine ⟨u, ?_, hfits, fun hu => ⟨by rw [huc, toEnc.tokCount, hcount], htoks.trans htokens, hpayload hu⟩⟩
  rw [runLines_command hser, herr, if_neg (by simp), runLines_command henc]
  exact ite_self _

/-- The codes a tree gives the bytes of a sequence. -/
def HTree.Codes (T : HTree) (code : Byte → List Bool) (x : List Byte) : Prop :=
  ∀ b ∈ x, T.follow (code b) = some (.leaf b)

/-- COMPRESS from a tree of two leaves or more (R236): it fails only where the payload has no room, and else the block
holds the tree and the codes of the input. -/
theorem runLines_gencodes_node {t : State} {T : HTree} (h : t.Inv) (hv : t.flags.treeValid = true) (hT : t.tree = some T)
    (hcov : T.Covers t.input) (hl : T.isLeaf = false) (hin : t.inLen.toNat ≤ t.cfg.inCap) :
    ∃ u code, runLines [.command .gencodes, .command .serialize, .command .encode] t = .next u ∧
      T.Codes code t.input ∧ (u.flags.err = false ↔ (t.input.flatMap code).length ≤ 32 * t.cfg.payCap) ∧
      (u.flags.err = false → u.HoldsFile T (t.input.flatMap code)) := by
  have hstart := issued_carries .gencodes t
  obtain ⟨s, hgen, herr, hinv, hvalid, hcodes, hsT, hcode, hlen, hcfg, hm, hcycle⟩ :=
    gencodes_codes (s := issued .gencodes t) (hstart.inv h) (by rw [hstart.treeValid, hv]) (by rw [hstart.tree, hT]) hl
  have hinput : s.input = t.input := (State.input_congr hlen hm hcycle).trans hstart.input
  rw [hstart.cfg] at hcfg
  rw [hstart.inLen] at hlen
  have hleaf : ∀ b ∈ s.input, b ∈ T.leafSyms := fun b hb => (hcov.mem b).2 (hinput ▸ hb)
  have hsmall := hcov.small
  have hser := T.ser_length
  obtain ⟨u, hrun, hfits, hfile⟩ := runLines_serialize_encode hinv hvalid hsT (by unfold tokCap; omega) hcodes
    (by rw [hlen, hcfg]; exact hin) fun b hb => (hcode b (hleaf b hb)).1
  rw [hinput, hcfg] at hfits
  rw [hinput] at hfile
  refine ⟨u, fun b => (s.codeOf b).path, ?_, fun b hb => (hcode b ((hcov.mem b).2 hb)).2, hfits, hfile⟩
  rw [runLines_command hgen, herr, if_neg (by simp), hrun]

/-- What COMPRESS does with an input that fits `IN_BUF` (R236). It fails on an input without two distinct bytes; on any
other it fails only where the payload has no room, and else leaves a tree and the codes of the input in the block. -/
theorem compress_runs {x : List Byte} {s : State} (h : s.Inv) (hx : x.length ≤ s.cfg.inCap) :
    ∃ u, runLines (compressLines s.cfg x) s = .next u ∧
      ((¬ ∃ a ∈ x, ∃ b ∈ x, a ≠ b) → u.flags.err = true) ∧
      ((∃ a ∈ x, ∃ b ∈ x, a ≠ b) → ∃ T code, T.leafCount ≤ 256 ∧ T.isLeaf = false ∧ T.Codes code x ∧
        (u.flags.err = false ↔ (x.flatMap code).length ≤ 32 * s.cfg.payCap) ∧
        (u.flags.err = false → u.HoldsFile T (x.flatMap code))) := by
  obtain ⟨b, hload, hinv, hcfg, hlen, hinput⟩ := compress_loaded x s h
  have hinput := hinput hx
  have hin : b.inLen.toNat ≤ b.cfg.inCap := by rw [← State.input_length, hinput, hcfg]; exact hx
  by_cases hempty : b.inLen = 0
  · have hnil : x = [] := by
      rw [← hinput, ← List.length_eq_zero_iff, State.input_length, hempty]
      rfl
    subst hnil
    exact ⟨_, hload.trans (compressCommands_empty hempty), fun _ => rfl, fun ⟨_, ha, _⟩ => by cases ha⟩
  · obtain ⟨t, T, hrun, hinv', hv, hT, hcov, hinput', hcfg', hlen'⟩ := compressCommands_tree hinv hempty hin
    rw [hinput] at hcov hinput'
    rw [hcfg] at hcfg'
    have htwo := hcov.isLeaf
    cases hl : T.isLeaf with
    | true =>
      obtain ⟨u, hgen, herr⟩ := runLines_gencodes_leaf hv hT hl [.command .serialize, .command .encode]
      exact ⟨u, hload.trans (hrun.trans hgen), fun _ => herr, fun hd => by rw [htwo.2 hd] at hl; cases hl⟩
    | false =>
      obtain ⟨u, code, hgen, hcodes, hfits, hfile⟩ := runLines_gencodes_node hinv' hv hT (hinput' ▸ hcov) hl
        (by rw [hlen', hcfg', ← hcfg]; exact hin)
      rw [hinput', hcfg'] at hfits
      rw [hinput'] at hcodes hfile
      exact ⟨u, hload.trans (hrun.trans hgen), fun hd => absurd (htwo.1 hl) hd,
        fun _ => ⟨T, code, hcov.small, hl, hcodes, hfits, hfile⟩⟩

/-! ### The file (R103, R238, R239) -/

/-- The file is that of a tree and a payload; the padding of its last word is left open. -/
structure CompressedFile.Encodes (f : CompressedFile) (T : HTree) (bits : List Bool) : Prop where
  tokenCount : f.treeTokenCount.toNat = T.ser.length
  tokens : f.treeTokens = T.ser
  bitCount : f.totalBitCount.toNat = bits.length
  words : f.packedWords.length = wordsFor bits.length
  bit : ∀ i, i < bits.length → (f.packedWords.getD (i / 32) 0).getLsbD (i % 32) = bits.getD i false

/-- The host writes the file that is in the block (R238). -/
theorem State.HoldsFile.fileOf {s : State} {T : HTree} {bits : List Bool} (h : s.HoldsFile T bits) :
    (fileOf s).Encodes T bits := by
  refine ⟨h.tokCount, h.tokens, h.payload.bitCount, ?_, fun i hi => ?_⟩
  · simp only [Machine.fileOf, List.length_map, List.length_range, h.payload.payWords]
  · have hw : i / 32 < s.payWords.toNat := by rw [h.payload.payWords, wordsFor]; omega
    rw [← h.payload.payBit i hi, State.payBit]
    simp [Machine.fileOf, List.getD_eq_getElem?_getD, hw]

/-- The host reads back the file it wrote (R103, R239). -/
theorem CompressedFile.Encodes.parse {f : CompressedFile} {T : HTree} {bits : List Bool} (h : f.Encodes T bits) :
    parseFile f.bytes = some f :=
  parseFile_bytes f (by rw [h.tokenCount, h.tokens]) (by rw [h.words, h.bitCount])

/-! ### DECOMPRESS (R237) -/

theorem decompress_eq_some {f : List Byte} {F : CompressedFile} {u t : State} (hf : parseFile f = some F)
    (hrun : runLines (decompressLines u.cfg F) u = .next t) (herr : t.flags.err = false) :
    decompress f u = some t.output := by
  simp [decompress, hf, hrun, herr]

/-- Of a file within the capacities every token and every word is loaded. -/
theorem decompressLines_eq {cfg : Config} {f : CompressedFile} (ht : f.treeTokens.length ≤ tokCap)
    (hw : f.packedWords.length ≤ cfg.payCap) : decompressLines cfg f =
      loadLines tokBase (packTokens f.treeTokens) ++ (quadLines tokCountAddr f.treeTokenCount ++ (.command .deserialize ::
        (loadLines payBase f.packedWords ++ (quadLines bitCountAddr f.totalBitCount ++
          [.wr payWordsAddr (lengthWord f.packedWords.length), .command .decode])))) := by
  simp [decompressLines, List.take_of_length_le ht, List.take_of_length_le hw]

/-- A file of a tree and the codes of an input decompresses to the input, on any block with the room (R237, R295). -/
theorem CompressedFile.Encodes.decompress {f : CompressedFile} {T : HTree} {code : Byte → List Bool} {x : List Byte}
    (hf : f.Encodes T (x.flatMap code)) (hsmall : T.leafCount ≤ 256) (hl : T.isLeaf = false) (hcode : T.Codes code x)
    {u : State} (h : u.Inv) (hx : x.length ≤ u.cfg.outCap) (hroom : (x.flatMap code).length ≤ 32 * u.cfg.payCap) :
    decompress f.bytes u = some x := by
  have hlen := T.ser_length
  have hwords : f.packedWords.length ≤ u.cfg.payCap := by rw [hf.words, wordsFor]; omega
  have hlines := decompressLines_eq (by rw [hf.tokens]; unfold tokCap; omega) hwords
  obtain ⟨t, hrun, hinv, hv, hT, hcfg⟩ := decompress_tokens u h T f.treeTokenCount
    (loadLines payBase f.packedWords ++ (quadLines bitCountAddr f.totalBitCount ++
      [.wr payWordsAddr (lengthWord f.packedWords.length), .command .decode])) hsmall hf.tokenCount
  obtain ⟨d, hdec, herr, hout⟩ := decompress_payload x t hinv (by rw [hcfg]; exact hx) T code f.packedWords f.totalBitCount
    hv hT hl hcode hf.bitCount (by rw [hf.words, hf.bitCount]) (by rw [hcfg]; exact hwords) hf.bit
  rw [hf.tokens] at hlines
  rw [decompress_eq_some hf.parse (by rw [hlines, hrun, hdec]) herr, hout]

/-- Settles O58: a file is only written of an input with two distinct bytes, and it holds a tree and the codes of the
input in it, from which DECOMPRESS recovers the input. -/
theorem fileRoundTrip : Obligations.FileRoundTrip := by
  intro x s h _ hx
  obtain ⟨t, hrun, hfail, hfile⟩ := compress_runs h hx
  refine ⟨fun u f hu _ hout hpay hf => ?_, fun htwo hfits => ?_⟩
  · obtain ⟨t', hrun', herr, rfl⟩ := compress_eq_some_iff.1 hf
    obtain rfl : t = t' := by rw [hrun] at hrun'; exact Host.Outcome.next.inj hrun'
    have htwo : ∃ a ∈ x, ∃ b ∈ x, a ≠ b := by
      by_contra hno
      rw [hfail hno] at herr
      cases herr
    obtain ⟨T, code, hsmall, hl, hcode, hroom, hholds⟩ := hfile htwo
    exact (hholds herr).fileOf.decompress hsmall hl hcode hu hout ((hroom.1 herr).trans (by omega))
  · obtain ⟨T, code, hsmall, -, hcode, hroom, -⟩ := hfile htwo
    have hshort := codes_short hsmall x hcode
    exact ⟨_, compress_eq_some_iff.2 ⟨t, hrun, hroom.2 (by omega), rfl⟩⟩

end Sys2Proof.Machine
end

section
/-! SUPPORT. The dispatch of a command word (40_command_dispatch.md): its start at the write to CMD, its end in a next
state whatever the block holds, and what it leaves alone; the proofs of the statements of that file. -/

namespace Sys2Proof.Machine

/-! ### A command word runs whole (R120, R122) -/

/-- A word that decodes runs its command. -/
theorem execWord_of_decode_ok {c : Word} {i : Instr} (h : decode c = .ok i) (s : State) : execWord c s = exec i s := by
  rw [execWord, h]

theorem execWord_of_decode_error {c : Word} {e : Reject} (h : decode c = .error e) (s : State) :
    execWord c s = execIllegal c s := by
  rw [execWord, h]

/-- The rows of R91's table as the host places them are the decoder's words. -/
theorem decode_tableWord {nbits w : Nat} {i : Instr} (h : decodeTableWord nbits w = some i) :
    decode (tableWord nbits w) = .ok i := by
  unfold decodeTableWord at h
  split at h
  · next j hd => rw [hd, Option.some.inj h]
  · cases h

/-- The opcodes of R91's table are 0 to 8. -/
theorem opcodeField_encode_le (i : Instr) : (opcodeField (encode i)).toNat ≤ 8 := by
  cases i <;> decide

/-- A word with a reserved bit or a reserved opcode is no command (R92). -/
theorem decode_eq_error {c : Word} (h : rsvdField c ≠ 0 ∨ 8 < (opcodeField c).toNat) : ∃ e, decode c = .error e := by
  match hd : decode c with
  | .error e => exact ⟨e, rfl⟩
  | .ok i =>
    obtain ⟨hr, ho⟩ := (decode_eq_ok_iff c i).1 hd
    have hle := opcodeField_encode_le i
    rw [← ho] at hle
    rcases h with h | h
    · exact absurd hr h
    · omega

/-! ### No command is stuck (R128, R245) -/

/-- A missing flag ends any command (R123). -/
theorem exec_missing {i : Instr} {s : State} {b : Quad} (h : missingFlag i s.flags = some b) :
    exec i s = .next (s.failed i .sequence b) := by
  cases i with
  | nop | freq | deserialize | reset => cases h
  | build | gencodes | serialize | encode | decode => exact runCommand_missing _ h

/-- A valid tree is a tree (R54). -/
theorem State.Inv.tree {s : State} (h : s.Inv) (hv : s.flags.treeValid = true) : ∃ T, s.tree = some T := by
  obtain ⟨T, hT, -⟩ := (h.arena hv).tree
  exact ⟨T, hT⟩

/-- GENCODES walks a valid tree to its end, or rejects a single leaf (R165, R168). -/
theorem State.Inv.exec_gencodes_next {s : State} (h : s.Inv) (hv : s.flags.treeValid = true) :
    ∃ t, Machine.exec .gencodes s = .next t := by
  obtain ⟨T, hT⟩ := h.tree hv
  match hl : T.isLeaf with
  | true =>
    obtain ⟨sym, w, hroot, -⟩ := State.root_of_leaf hT hl
    exact ⟨_, exec_gencodes_leaf hv hroot⟩
  | false =>
    obtain ⟨code, -, hexec⟩ := exec_gencodes hv hT hl
    exact ⟨_, hexec⟩

/-- ENCODE's loop ends or fails, whatever the code table holds (R205 to R208). -/
theorem exec_encode_next {s : State} (hv : s.flags.codesValid = true) : ∃ t, exec .encode s = .next t := by
  rcases Nat.lt_or_ge s.cfg.inCap s.inLen.toNat with hin | hin
  · exact ⟨_, exec_encode_capacity hv hin⟩
  · rcases exec_encode_ends hv hin with ⟨e, -, -, -, -, hexec⟩ | ⟨n, e, -, -, -, -, -, hexec⟩ | ⟨n, e, -, -, -, -, -, -, hexec⟩
    all_goals exact ⟨_, hexec⟩

/-- DECODE never leaves a valid tree (R215 to R222). -/
theorem State.Inv.exec_decode_next {s : State} (h : s.Inv) (hv : s.flags.treeValid = true) :
    ∃ t, Machine.exec .decode s = .next t := by
  obtain ⟨T, hT⟩ := h.tree hv
  rcases Nat.lt_or_ge s.cfg.payCap s.payWords.toNat with hp | hp
  · exact ⟨_, exec_decode_capacity hv hp⟩
  · match hl : T.isLeaf with
    | true =>
      obtain ⟨sym, w, hroot, -⟩ := State.root_of_leaf hT hl
      exact ⟨_, exec_decode_leaf hv hroot hp⟩
    | false =>
      rcases exec_decode_tree hv (h.arena hv) hT hl hp rfl with ⟨-, d, -, -, -, hexec⟩ | ⟨-, i, d, -, -, -, -, -, -, hexec⟩
      all_goals exact ⟨_, hexec⟩

/-- DESERIALIZE takes or rejects any tokens (R185 to R190). -/
theorem exec_deserialize_next (s : State) : ∃ t, exec .deserialize s = .next t := by
  rcases Nat.lt_or_ge tokCap s.tokCount.toNat with hc | hc
  · exact ⟨_, exec_deserialize_capacity hc⟩
  · rcases exec_deserialize hc with ⟨T, d, r, -, -, -, -, -, hexec⟩ | ⟨n, -, -, hexec⟩ | ⟨n, -, -, -, hexec⟩
    all_goals exact ⟨_, hexec⟩

/-- Every command answers a next state: it lacks its flag, or its flag says that what it walks is whole. -/
theorem State.Inv.exec_next {s : State} (h : s.Inv) (i : Instr) : ∃ t, Machine.exec i s = .next t := by
  match hm : missingFlag i s.flags with
  | some b => exact ⟨_, exec_missing hm⟩
  | none =>
    cases i with
    | nop | reset => exact ⟨_, rfl⟩
    | freq => exact ⟨_, exec_freq s⟩
    | build =>
      have hv : s.flags.freqValid = true := by simpa [missingFlag] using hm
      obtain ⟨node, r, hexec, -⟩ := exec_build hv (leavesOf_ne_nil (h.counts hv))
      exact ⟨_, hexec⟩
    | gencodes => exact h.exec_gencodes_next (by simpa [missingFlag] using hm)
    | serialize =>
      have hv : s.flags.treeValid = true := by simpa [missingFlag] using hm
      obtain ⟨T, hT⟩ := h.tree hv
      exact ⟨_, exec_serialize hv hT⟩
    | deserialize => exact exec_deserialize_next s
    | encode => exact exec_encode_next (by simpa [missingFlag] using hm)
    | decode => exact h.exec_decode_next (by simpa [missingFlag] using hm)

/-- So does every command word: one that is no command fails (R122). -/
theorem State.Inv.execWord_next {s : State} (h : s.Inv) (c : Word) : ∃ t, Machine.execWord c s = .next t := by
  match hd : decode c with
  | .ok i => rw [execWord_of_decode_ok hd]; exact h.exec_next i
  | .error e => rw [execWord_of_decode_error hd]; exact ⟨_, rfl⟩

theorem State.Inv.step_next {s : State} (h : s.Inv) : ∃ t, Machine.step s = .next t := by
  match hr : s.run with
  | .idle => exact ⟨_, step_idle hr⟩
  | .busy c 0 => rw [step_busy_zero hr]; exact h.execWord_next c
  | .busy c (n + 1) => exact ⟨_, step_busy_succ hr⟩

/-! ### The busy time runs out (R128) -/

/-- With nothing for the outside world to do, only the busy time passes. -/
theorem busyStep_nothing {s : State} {c : Word} {n : Nat} (hp : s.port = []) :
    busyStep c n s = { s with run := .busy c n } := by
  rw [busyStep, hp]

/-- With no hard reset to come, a busy step counts down, and the host has no more to do than before. -/
theorem busyStep_counts_down (c : Word) (n : Nat) {s : State} (hp : ∀ e ∈ s.port, e ≠ .hardReset) :
    (busyStep c n s).run = .busy c n ∧ ∀ e ∈ (busyStep c n s).port, e ≠ .hardReset := by
  match hport : s.port with
  | [] =>
    rw [busyStep_nothing hport]
    exact ⟨rfl, hp⟩
  | .hardReset :: rest => exact absurd rfl (hp .hardReset (by simp [hport]))
  | .access x :: rest =>
    match hheld : s.held with
    | some y =>
      rw [busyStep_waiting hheld fun rest hr => hp .hardReset (by simp [hr]) rfl]
      exact ⟨rfl, hp⟩
    | none =>
      have hrest : ∀ e ∈ rest, e ≠ .hardReset := fun e he => hp e (by simp [hport, he])
      by_cases hx : x = .read statusAddr
      · subst hx
        rw [busyStep_status hheld hport]
        exact ⟨rfl, hrest⟩
      · rw [busyStep_hold hheld hport hx]
        exact ⟨rfl, hrest⟩

/-- A busy block is idle one step after its busy time, by induction on that time. -/
theorem State.Inv.run_to_idle {c : Word} (n : Nat) {s : State} (h : s.Inv) (hr : s.run = .busy c n)
    (hp : ∀ e ∈ s.port, e ≠ .hardReset) :
    ∃ t, Host.Core.run Sys2Proof.core (n + 1) s = .next t ∧ t.run = .idle := by
  induction n generalizing s with
  | zero =>
    obtain ⟨t, ht⟩ := h.execWord_next c
    exact ⟨t, core_run_next 0 ((step_busy_zero hr).trans ht), (execWord_idle ht).1⟩
  | succ n ih =>
    obtain ⟨hrun, hport⟩ := busyStep_counts_down c n hp
    rw [core_run_next _ (step_busy_succ hr)]
    exact ih (h.busyStep hr) hrun hport

/-! ### What a command leaves alone in the buffers (R129) -/

/-- The four buffers lie apart, in the order of their addresses (R8, R61). -/
theorem Config.buffers_apart {cfg : Config} (wf : cfg.wf = true) :
    tokBase + 2 * tokCap ≤ inBase ∧ inBase + cfg.inCap ≤ outBase ∧ outBase + cfg.outCap ≤ payBase := by
  obtain ⟨⟨-, -, hin⟩, ⟨-, -, hout⟩, -⟩ := (Config.wf_iff cfg).1 wf
  unfold tokBase tokCap inBase outBase payBase
  omega

/-- Only SERIALIZE, ENCODE and DECODE store, each in its buffer: a byte elsewhere stays. -/
theorem exec_byteAt {i : Instr} {s t : State} (h : exec i s = .next t) {a : Nat}
    (hser : i = .serialize → a < tokBase ∨ tokBase + 2 * tokCap ≤ a)
    (henc : i = .encode → a < payBase ∨ payBase + 4 * s.cfg.payCap ≤ a)
    (hdec : i = .decode → a < outBase ∨ outBase + s.cfg.outCap ≤ a) : t.byteAt a = s.byteAt a := by
  refine (exec_storesWithin h).byteAt ?_
  cases i with
  | serialize => exact hser rfl
  | encode => exact henc rfl
  | decode => exact hdec rfl
  | nop | freq | build | gencodes | deserialize | reset => exact .inr (Nat.zero_le a)

theorem State.halfAt_congr {s t : State} {a : Nat} (h : ∀ n, n < 2 → t.byteAt (a + n) = s.byteAt (a + n)) :
    t.halfAt a = s.halfAt a := congrArg₂ (· ++ ·) (h 1 (by decide)) (h 0 (by decide))

theorem State.wordAt_congr {s t : State} {a : Nat} (h : ∀ n, n < 4 → t.byteAt (a + n) = s.byteAt (a + n)) :
    t.wordAt a = s.wordAt a := by
  have byte0 : t.byteAt a = s.byteAt a := h 0 (by decide)
  rw [State.wordAt, State.wordAt, h 3 (by decide), h 2 (by decide), h 1 (by decide), byte0]

section
variable {i : Instr} {s t : State} (wf : s.cfg.wf = true) (h : exec i s = .next t)
include wf h

/-- No command writes `IN_BUF`. -/
theorem exec_inByte {j : Nat} (hj : j < s.cfg.inCap) : t.inByte j = s.inByte j := by
  obtain ⟨hin, hout, hpay⟩ := Config.buffers_apart wf
  exact exec_byteAt h (fun _ => by omega) (fun _ => by omega) (fun _ => by omega)

/-- Only SERIALIZE writes `TOK_BUF`. -/
theorem exec_token (hi : i ≠ .serialize) {k : Nat} (hk : k < tokCap) : t.token k = s.token k := by
  obtain ⟨hin, hout, hpay⟩ := Config.buffers_apart wf
  exact State.halfAt_congr fun n hn => exec_byteAt h (absurd · hi) (fun _ => by omega) (fun _ => by omega)

/-- Only ENCODE writes `PAY_BUF`. -/
theorem exec_payWord (hi : i ≠ .encode) (w : Nat) : t.payWord w = s.payWord w := by
  obtain ⟨hin, hout, hpay⟩ := Config.buffers_apart wf
  exact State.wordAt_congr fun n hn => exec_byteAt h (fun _ => by omega) (absurd · hi) (fun _ => by omega)

/-- Only DECODE writes `OUT_BUF`. -/
theorem exec_outByte (hi : i ≠ .decode) {j : Nat} (hj : j < s.cfg.outCap) : t.outByte j = s.outByte j := by
  obtain ⟨hin, hout, hpay⟩ := Config.buffers_apart wf
  exact exec_byteAt h (fun _ => by omega) (fun _ => by omega) (absurd · hi)

end

/-! ### What a command leaves alone in the registers and the tables (R129) -/

/-- From `s` to `t` the command `i` wrote no register, table or valid flag but its own. -/
structure KeepsOthers (i : Instr) (s t : State) : Prop where
  input : i ≠ .reset → t.inLen = s.inLen
  tokens : i ≠ .serialize → i ≠ .reset → t.tokCount = s.tokCount
  payload : i ≠ .encode → i ≠ .reset → t.bitCount = s.bitCount ∧ t.payWords = s.payWords
  output : i ≠ .decode → i ≠ .reset → t.outLen = s.outLen ∧ t.flags.partialEnd = s.flags.partialEnd
  counts : i ≠ .freq → i ≠ .reset → t.count = s.count ∧ t.total = s.total ∧ t.flags.freqValid = s.flags.freqValid
  arena : i ≠ .build → i ≠ .deserialize → i ≠ .reset → t.node = s.node ∧ t.root = s.root ∧
    t.nodeCount = s.nodeCount ∧ t.leafCount = s.leafCount ∧ t.flags.treeValid = s.flags.treeValid
  codes : i ≠ .gencodes → i ≠ .build → i ≠ .deserialize → i ≠ .reset →
    t.code = s.code ∧ t.flags.codesValid = s.flags.codesValid

theorem KeepsOthers.failed (i : Instr) (e : Err) (info : Quad) (s : State) : KeepsOthers i s (s.failed i e info) where
  input _ := rfl
  tokens _ _ := rfl
  payload _ _ := ⟨rfl, rfl⟩
  output _ _ := ⟨rfl, rfl⟩
  counts _ _ := ⟨rfl, rfl, rfl⟩
  arena _ _ _ := ⟨rfl, rfl, rfl, rfl, rfl⟩
  codes _ _ _ _ := ⟨rfl, rfl⟩

/-- A success writes the same fields as a failure: those of the record. -/
theorem KeepsOthers.succeeded (i : Instr) (s : State) : KeepsOthers i s (s.succeeded i) :=
  { KeepsOthers.failed i .sequence 0 s with }

theorem KeepsOthers.freqFailed (e : Err) (info : Quad) (s : State) : KeepsOthers .freq s (s.freqFailed e info) :=
  { KeepsOthers.failed .freq e info s with counts := fun hi => absurd rfl hi }

theorem KeepsOthers.treeInstalled {i : Instr} (hi : i = .build ∨ i = .deserialize) (node : List Node) (leaves root : Nat)
    (s : State) : KeepsOthers i s (s.treeInstalled i node leaves root) :=
  { KeepsOthers.succeeded i s with
    arena := fun hb hd _ => (hi.elim hb hd).elim
    codes := fun _ hb hd _ => (hi.elim hb hd).elim }

theorem KeepsOthers.encodeFailed (e : Err) (info : Quad) (m : Memory) (s : State) :
    KeepsOthers .encode s (s.encodeFailed e info m) :=
  { KeepsOthers.failed .encode e info s with payload := fun hi => absurd rfl hi }

theorem KeepsOthers.encodeEnded (e : EncodeLocals) (s : State) : KeepsOthers .encode s (s.encodeEnded e) := by
  unfold State.encodeEnded
  split_ifs
  · exact { KeepsOthers.succeeded .encode s with payload := fun hi => absurd rfl hi }
  · exact .encodeFailed _ _ _ s
  · exact { KeepsOthers.succeeded .encode s with payload := fun hi => absurd rfl hi }

theorem KeepsOthers.decodeResult {s u : State} (h : KeepsOthers .decode s u) (d : DecodeLocals) :
    KeepsOthers .decode s (State.decodeResult d u s) :=
  { h with output := fun hi => absurd rfl hi }

/-- Every end of a command is a failure or a success with its own registers and tables written besides. -/
theorem exec_keepsOthers {i : Instr} {s t : State} (h : exec i s = .next t) : KeepsOthers i s t := by
  cases i with
  | nop => cases h; exact .succeeded .nop s
  | freq =>
    rw [exec_freq] at h
    cases h
    split_ifs
    · exact .freqFailed _ _ s
    · exact .freqFailed _ _ s
    · exact { KeepsOthers.succeeded .freq s with counts := fun hi => absurd rfl hi }
  | build =>
    rcases exec_build_cases h with ⟨-, rfl⟩ | ⟨-, node, leaves, r, rfl⟩
    · exact .failed _ _ _ s
    · exact .treeInstalled (.inl rfl) _ _ _ s
  | gencodes =>
    rcases exec_gencodes_cases h with ⟨-, rfl⟩ | ⟨-, sym, w, -, rfl⟩ | ⟨-, code, w, l, r, -, -, rfl⟩
    · exact .failed _ _ _ s
    · exact { KeepsOthers.failed .gencodes .singleSymbol (sym.setWidth 64) s with codes := fun hi => absurd rfl hi }
    · exact { KeepsOthers.succeeded .gencodes s with codes := fun hi => absurd rfl hi }
  | serialize =>
    rcases exec_serialize_cases h with ⟨-, rfl⟩ | ⟨-, T, -, rfl⟩
    · exact .failed _ _ _ s
    · exact { KeepsOthers.succeeded .serialize s with tokens := fun hi => absurd rfl hi }
  | deserialize =>
    rcases exec_deserialize_cases h with ⟨e, info, rfl, -⟩ | ⟨T, d, r, -, -, -, -, rfl⟩
    · exact { KeepsOthers.failed .deserialize e info s with
        arena := fun _ hi => absurd rfl hi
        codes := fun _ _ hi => absurd rfl hi }
    · exact .treeInstalled (.inr rfl) _ _ _ s
  | encode =>
    rcases exec_encode_cases h with ⟨-, rfl⟩ | ⟨-, bits, e, -, -, rfl | ⟨x, info, rfl⟩⟩
    · exact .failed _ _ _ s
    · exact .encodeEnded e s
    · exact .encodeFailed _ _ _ s
  | decode =>
    rcases exec_decode_cases h with ⟨-, rfl⟩ | ⟨-, d, u, rfl, rfl | ⟨x, info, rfl⟩, -⟩
    · exact .failed _ _ _ s
    · exact (KeepsOthers.succeeded .decode s).decodeResult d
    · exact (KeepsOthers.failed .decode x info s).decodeResult d
  | reset =>
    exact ⟨absurd rfl, fun _ => absurd rfl, fun _ => absurd rfl, fun _ => absurd rfl, fun _ => absurd rfl,
      fun _ _ => absurd rfl, fun _ _ _ => absurd rfl⟩

/-! ### The statements -/

/-- Settles O19, by the count down to the command's completion. -/
theorem busyBlockReturnsToIdle : Obligations.BusyBlockReturnsToIdle := fun _ _ n h hr hp => h.run_to_idle n hr hp

/-- Settles O60: no command is stuck in a state that meets the invariant, and no other step can be. -/
theorem nothingStopsTheMachine : Obligations.NothingStopsTheMachine := fun _ h => ⟨h.step_next, h.exec_next⟩

/-- Settles O21: the buffers by the one window a command stores in, the rest by the ends of each command. -/
theorem commandsWriteOnlyTheirOwn : Obligations.CommandsWriteOnlyTheirOwn := by
  intro s t i wf h
  have hkeeps := exec_keepsOthers h
  exact ⟨(exec_storesWithin h).cfg, hkeeps.input, fun _ => exec_inByte wf h,
    fun hi => ⟨fun _ => exec_token wf h hi, hkeeps.tokens hi⟩,
    fun hi => ⟨fun w _ => exec_payWord wf h hi w, hkeeps.payload hi⟩,
    fun hi => ⟨fun _ => exec_outByte wf h hi, hkeeps.output hi⟩, hkeeps.counts, hkeeps.arena, hkeeps.codes⟩

/-- Settles O15: a block whose busy time is up runs its word, and the word is decoded first. -/
theorem stepRunsTheDecodedCommand : Obligations.StepRunsTheDecodedCommand :=
  ⟨fun s _ _ hr hd => (step_busy_zero hr).trans (execWord_of_decode_ok hd s),
    fun s _ _ hr hd => (step_busy_zero hr).trans (execWord_of_decode_error hd s),
    fun _ _ _ _ hd => (step_busy_zero rfl).trans (execWord_of_decode_ok (decode_tableWord hd) _)⟩

/-- Settles O16: the idle block serves the write, whose place is the register `CMD`. -/
theorem cmdWriteStartsTheCommand : Obligations.CmdWriteStartsTheCommand := by
  intro s c rest hr hh hp
  have cmd : locate s.cfg 0x000000 = some (.reg .cmd) := locate_reg s.cfg (n := 0) rfl
  rw [step_idle hr, idleStep_access hh hp, (performAccess_of_locate (s := { s with port := rest }) cmd c).2]
  exact ⟨_, _, rfl⟩

/-- Settles O24: the word does not decode. -/
theorem illegalWordFails : Obligations.IllegalWordFails := by
  intro s c h
  obtain ⟨e, he⟩ := decode_eq_error h
  exact execWord_of_decode_error he s

end Sys2Proof.Machine
end

section
/-! SUPPORT. FREQ (41_frequency.md): its counts as numbers, the entropy of an input (R141), and the mean code length of
BUILD's tree against it (70_reset_and_hazards.md R298); the proofs of the statements of that file. -/

namespace Sys2Proof.Machine

/-! ### The counts (R136) -/

theorem State.input_length_lt (s : State) : s.input.length < 2 ^ 32 := by
  rw [State.input_length]
  exact s.inLen.isLt

theorem State.inLen_ne_zero {s : State} (h : 1 ≤ s.inLen.toNat) : s.inLen ≠ 0 := fun h0 => by
  rw [h0] at h
  exact absurd h (by decide)

/-- FREQ on an input that is not empty and fits the buffer. -/
theorem exec_freq_fits {s : State} (hpos : 1 ≤ s.inLen.toNat) (hin : s.inLen.toNat ≤ s.cfg.inCap) :
    exec .freq s = .next { s.succeeded .freq with
      flags := { (s.succeeded .freq).flags with freqValid := true }, count := countBytes s.input, total := s.inLen } := by
  rw [exec_freq, if_neg (Nat.not_lt.2 hin), if_neg (State.inLen_ne_zero hpos)]

/-- FREQ on an empty input (R137). -/
theorem exec_freq_empty {s : State} (h : s.inLen = 0) : exec .freq s = .next (s.freqFailed .emptyInput 0) := by
  rw [exec_freq, if_neg (by rw [h]; exact Nat.not_lt_zero _), if_pos h]

/-- `COUNT[k]` of a byte sequence, as a number. -/
def countAt (x : List Byte) (k : Nat) : Nat := ((countBytes x).getD k 0).toNat

/-- No count wraps: an input is shorter than 2^32. -/
theorem countAt_toNat {x : List Byte} (hx : x.length < 2 ^ 32) (b : Byte) : countAt x b.toNat = x.count b := by
  have hle : x.count b ≤ x.length := List.count_le_length
  rw [countAt, countBytes_getD, BitVec.toNat_ofNat, Nat.mod_eq_of_lt (by omega)]

/-- The byte values of a sequence, as indices of `COUNT`. -/
def byteIndices (x : List Byte) : Finset Nat := x.toFinset.image BitVec.toNat

theorem sum_byteIndices {M : Type} [AddCommMonoid M] (x : List Byte) (f : Nat → M) :
    ∑ k ∈ byteIndices x, f k = ∑ b ∈ x.toFinset, f b.toNat :=
  Finset.sum_image fun _ _ _ _ => BitVec.eq_of_toNat_eq

/-- They are the indices whose count is not 0 (R136). -/
theorem mem_byteIndices {x : List Byte} (hx : x.length < 2 ^ 32) (k : Nat) :
    k ∈ byteIndices x ↔ k < 256 ∧ 0 < countAt x k := by
  simp only [byteIndices, Finset.mem_image, List.mem_toFinset]
  constructor
  · rintro ⟨b, hb, rfl⟩
    exact ⟨b.isLt, by rwa [countAt_toNat hx, List.count_pos_iff]⟩
  · rintro ⟨hk, hpos⟩
    have hnat : (BitVec.ofNat 8 k).toNat = k := Nat.mod_eq_of_lt hk
    rw [← hnat, countAt_toNat hx, List.count_pos_iff] at hpos
    exact ⟨_, hpos, hnat⟩

/-- A sum along a sequence, by its counts. -/
theorem sum_countAt {x : List Byte} (hx : x.length < 2 ^ 32) (f : Byte → Nat) :
    ∑ k ∈ byteIndices x, countAt x k * f (BitVec.ofNat 8 k) = (x.map f).sum := by
  rw [sum_byteIndices, Finset.sum_list_map_count]
  refine Finset.sum_congr rfl fun b _ => ?_
  rw [countAt_toNat hx, BitVec.ofNat_toNat, BitVec.setWidth_eq, smul_eq_mul]

theorem sum_countAt_eq_length {x : List Byte} (hx : x.length < 2 ^ 32) : ∑ k ∈ byteIndices x, countAt x k = x.length := by
  simpa using sum_countAt hx fun _ => 1

/-! ### The codes of a tree, weighed by the counts -/

theorem HTree.Covers.leafSyms_eq {T : HTree} {x : List Byte} (h : T.Covers x) : T.leafSyms = x.toFinset.val :=
  (Multiset.Nodup.ext h.nodup x.toFinset.nodup).2 fun b => by rw [h.mem, Finset.mem_val, List.mem_toFinset]

/-- A sum over the leaves is a sum over the byte values of the input. -/
theorem HTree.Covers.leafPaths_sum {T : HTree} {x : List Byte} (h : T.Covers x) (f : Byte → Nat) :
    ((T.leafPaths []).map fun y => f y.1).sum = ∑ b ∈ x.toFinset, f b := by
  rw [T.leafPaths_sum, h.leafSyms_eq]
  rfl

/-- With one leaf for each byte, the path to a leaf is the code of its byte. -/
theorem HTree.Covers.path_eq {T : HTree} {x : List Byte} (h : T.Covers x) {code : Byte → List Bool} (hcode : T.Codes code x)
    {y : Byte × List Bool} (hy : y ∈ T.leafPaths []) : y.2 = code y.1 := by
  have hnodup : ((T.leafPaths []).map Prod.fst).Nodup := by
    rw [← Multiset.coe_nodup, T.leafSyms_paths]
    exact h.nodup
  have hleaf : y.1 ∈ T.leafSyms := by
    rw [← T.leafSyms_paths [], Multiset.mem_coe]
    exact List.mem_map_of_mem hy
  have hcoded : (y.1, code y.1) ∈ T.leafPaths [] :=
    (T.mem_leafPaths [] _ _).2 ⟨_, rfl, hcode _ ((h.mem _).1 hleaf)⟩
  exact congrArg Prod.snd (List.inj_on_of_nodup_map hnodup hy hcoded rfl)

/-- The bits of the coded input are the weighted path length of the tree (R297). -/
theorem HTree.Covers.bits_length {T : HTree} {x : List Byte} (h : T.Covers x) {code : Byte → List Bool}
    (hcode : T.Codes code x) :
    (x.flatMap code).length = ((T.leafPaths []).map fun y => y.2.length * x.count y.1).sum := by
  rw [List.length_flatMap, Finset.sum_list_map_count, ← h.leafPaths_sum]
  refine congrArg List.sum (List.map_congr_left fun y hy => ?_)
  rw [h.path_eq hcode hy, smul_eq_mul, Nat.mul_comm]

/-- The codes of distinct bytes do not begin each other (R170), so Kraft's inequality holds of them. -/
theorem HTree.Codes.kraft {T : HTree} {x : List Byte} {code : Byte → List Bool} (h : T.Codes code x) :
    ∑ k ∈ byteIndices x, (1 / 2 : ℚ) ^ (code (BitVec.ofNat 8 k)).length ≤ 1 := by
  have apart : ∀ k ∈ (byteIndices x).toList, ∀ m ∈ (byteIndices x).toList, k ≠ m →
      ¬ code (BitVec.ofNat 8 k) <+: code (BitVec.ofNat 8 m) := by
    simp only [Finset.mem_toList, byteIndices, Finset.mem_image, List.mem_toFinset]
    rintro _ ⟨a, ha, rfl⟩ _ ⟨b, hb, rfl⟩ hab hpre
    rw [BitVec.ofNat_toNat, BitVec.ofNat_toNat, BitVec.setWidth_eq, BitVec.setWidth_eq] at hpre
    have hleaf := h a ha
    rw [HTree.follow_prefix hleaf (h b hb) hpre, h b hb] at hleaf
    cases hleaf
    exact hab rfl
  simpa using kraft_prefix (byteIndices x).nodup_toList _ apart

/-- BUILD's codes spend no more bits on the input than any lengths that Kraft's inequality allows (R298). -/
theorem build_bits_le {s t : State} {T : HTree} {x : List Byte} (hx : x.length < 2 ^ 32) (hv : s.flags.freqValid = true)
    (hcnt : CountsOk s.count s.total.toNat s.cfg.inCap) (hcount : s.count = countBytes x) (he : exec .build s = .next t)
    (hT : t.tree = some T) (hcov : T.Covers x) {code : Byte → List Bool} (hcode : T.Codes code x) {len : Nat → Nat}
    (kraft : ∑ k ∈ byteIndices x, (1 / 2 : ℚ) ^ len k ≤ 1) :
    (x.flatMap code).length ≤ ∑ k ∈ byteIndices x, countAt x k * len k := by
  have hset : ((List.range 256).filter fun k => s.count.getD k 0 != 0).toFinset = byteIndices x := by
    ext k
    simp [mem_byteIndices hx, countAt, hcount, Nat.pos_iff_ne_zero, ← BitVec.toNat_inj]
  have hle := build_cost_le hv hcnt he hT (fun b => len b.toNat) (by
    rw [hset, sum_byteIndices]
    rw [sum_byteIndices] at kraft
    simpa using kraft)
  have hnum : ∀ b : Byte, (s.count.getD b.toNat 0).toNat = x.count b := fun b => by rw [hcount]; exact countAt_toNat hx b
  simp only [hnum] at hle
  rw [hcov.bits_length hcode, sum_byteIndices]
  refine hle.trans_eq ?_
  rw [hcov.leafPaths_sum fun b => len b.toNat * x.count b]
  exact Finset.sum_congr rfl fun b _ => by rw [countAt_toNat hx, Nat.mul_comm]

/-! ### The entropy (R141) -/

/-- The entropy of the counts of an input, over the byte values that occur. -/
noncomputable def entropy (x : List Byte) : ℝ :=
  -∑ k ∈ byteIndices x, ((countAt x k : ℝ) / x.length) * Real.logb 2 (countAt x k / x.length)

/-- The mean code length of an input under a code. -/
noncomputable def meanLength (code : Byte → List Bool) (x : List Byte) : ℝ := ((x.flatMap code).length : ℝ) / x.length

section
variable {x : List Byte} (hx : x.length < 2 ^ 32) (hpos : 0 < x.length)
include hx hpos

/-- The codes of a tree do no better than the entropy: they meet Kraft's inequality. -/
theorem entropy_le_meanLength {T : HTree} {code : Byte → List Bool} (hcode : T.Codes code x) :
    entropy x ≤ meanLength code x := by
  have hlow := entropy_le_cost _ _ (fun k hk => ((mem_byteIndices hx k).1 hk).2) (sum_countAt_eq_length hx) hpos hcode.kraft
  rwa [sum_countAt hx fun b => (code b).length, ← List.length_flatMap] at hlow

/-- BUILD's codes are within one bit of the entropy: some lengths that Kraft's inequality allows are, and BUILD's are as
good as those. -/
theorem build_meanLength_lt {s t : State} {T : HTree} (hv : s.flags.freqValid = true)
    (hcnt : CountsOk s.count s.total.toNat s.cfg.inCap) (hcount : s.count = countBytes x) (he : exec .build s = .next t)
    (hT : t.tree = some T) (hcov : T.Covers x) {code : Byte → List Bool} (hcode : T.Codes code x) :
    meanLength code x < entropy x + 1 := by
  obtain ⟨len, hkraft, hnear⟩ := exists_lengths_near_entropy (countAt x) (fun k hk => ((mem_byteIndices hx k).1 hk).2)
    (sum_countAt_eq_length hx) hpos
  have hbits := build_bits_le hx hv hcnt hcount he hT hcov hcode hkraft
  refine lt_of_le_of_lt ?_ hnear
  exact div_le_div_of_nonneg_right (by exact_mod_cast hbits) (Nat.cast_nonneg _)

/-- The host's sum (R141), over the symbols of positive frequency, is the entropy. -/
theorem neg_sum_eq_entropy {p : Nat → ℝ} (hp : ∀ k, p k = (countAt x k : ℝ) / x.length) :
    -∑ k ∈ (Finset.range 256).filter (fun k => 0 < p k), p k * Real.logb 2 (p k) = entropy x := by
  have hlen : (0 : ℝ) < x.length := by exact_mod_cast hpos
  have hset : (Finset.range 256).filter (fun k => 0 < p k) = byteIndices x := by
    ext k
    rw [Finset.mem_filter, Finset.mem_range, mem_byteIndices hx, hp, div_pos_iff_of_pos_right hlen, Nat.cast_pos]
  rw [hset]
  simp only [hp, entropy]

end

/-! ### The statements -/

/-- What FREQ, BUILD and GENCODES leave, in `t`, of the input of `s`: its counts, and a code for each of its bytes, with a
mean length within one bit of the entropy. -/
structure State.CodesInput (t s : State) : Prop where
  inv : t.Inv
  codesValid : t.flags.codesValid = true
  cfg : t.cfg = s.cfg
  inLen : t.inLen = s.inLen
  input : t.input = s.input
  count : t.count = countBytes s.input
  total : t.total = s.inLen
  valid : ∀ b ∈ s.input, (t.codeOf b).valid = true
  low : entropy s.input ≤ meanLength (fun b => (t.codeOf b).path) s.input
  high : meanLength (fun b => (t.codeOf b).path) s.input < entropy s.input + 1

theorem freq_build_gencodes {s : State} (h : s.Inv) (hin : s.inLen.toNat ≤ s.cfg.inCap)
    (htwo : ∃ a ∈ s.input, ∃ b ∈ s.input, a ≠ b) :
    ∃ s1 s2 s3, exec .freq s = .next s1 ∧ exec .build s1 = .next s2 ∧ exec .gencodes s2 = .next s3 ∧ s3.CodesInput s := by
  have hx := s.input_length_lt
  have hpos : 0 < s.input.length := htwo.elim fun _ ha => List.length_pos_of_mem ha.1
  have hlen : 1 ≤ s.inLen.toNat := s.input_length ▸ hpos
  obtain ⟨s1, s2, T, hfreq, -, hbuild, -, hinv2, hv2, hT2, hmem, hnodup, hsmall, hlen2, hcfg2, hmem2, hcycle2⟩ :=
    freq_build Carries.refl Carries.refl h (State.inLen_ne_zero hlen) hin
  have hcov : T.Covers s.input := ⟨hmem, hnodup, hsmall⟩
  obtain ⟨s3, hgen, -, hinv3, -, hcodes3, -, hcode3, hlen3, hcfg3, hmem3, hcycle3⟩ :=
    gencodes_codes hinv2 hv2 hT2 (hcov.isLeaf.2 htwo)
  have hcode : T.Codes (fun b => (s3.codeOf b).path) s.input := fun b hb => (hcode3 b ((hmem b).2 hb)).2
  obtain ⟨hcount2, htotal2, -⟩ := (exec_keepsOthers hbuild).counts nofun nofun
  obtain ⟨hcount3, htotal3, -⟩ := (exec_keepsOthers hgen).counts nofun nofun
  obtain rfl := Host.Outcome.next.inj ((exec_freq_fits hlen hin).symm.trans hfreq)
  exact ⟨_, s2, s3, hfreq, hbuild, hgen,
    { inv := hinv3
      codesValid := hcodes3
      cfg := hcfg3.trans hcfg2
      inLen := hlen3.trans hlen2
      input := State.input_congr (hlen3.trans hlen2) (hmem3.trans hmem2) (hcycle3.trans hcycle2)
      count := hcount3.trans hcount2
      total := htotal3.trans htotal2
      valid := fun b hb => (hcode3 b ((hmem b).2 hb)).1
      low := entropy_le_meanLength hx hpos hcode
      high := build_meanLength_lt hx hpos rfl ((h.exec hfreq).counts rfl) rfl hbuild hT2 hcov hcode }⟩

/-- Settles O56: the codes of BUILD's tree meet Kraft's inequality, and no lengths that meet it cost less; Shannon's bounds
give the rest. -/
theorem meanCodeLengthMeetsTheEntropy : Obligations.MeanCodeLengthMeetsTheEntropy := by
  intro s h hin htwo
  obtain ⟨s1, s2, s3, hfreq, hbuild, hgen, hs⟩ := freq_build_gencodes h hin htwo
  obtain ⟨s4, henc, -, hpayload, -⟩ := exec_encode_codes hs.inv hs.codesValid (by rw [hs.inLen, hs.cfg]; exact hin)
    (by rw [hs.input]; exact hs.valid)
  refine ⟨s1, s2, s3, s4, hfreq, hbuild, hgen, henc, fun herr p H A hp hH hA => ?_⟩
  have hpos : 0 < s.input.length := htwo.elim fun _ ha => List.length_pos_of_mem ha.1
  obtain ⟨hcount, htotal, -⟩ := (exec_keepsOthers henc).counts nofun nofun
  have htot : s4.total.toNat = s.input.length := by rw [htotal, hs.total, State.input_length]
  have hbits : s4.bitCount.toNat = (s.input.flatMap fun b => (s3.codeOf b).path).length := by
    rw [(hpayload herr).bitCount, hs.input, State.codeBits]
  have hentropy : H = entropy s.input := by
    rw [hH]
    exact neg_sum_eq_entropy s.input_length_lt hpos fun k => by rw [hp, hcount, hs.count, htot, countAt]
  have hmean : A = meanLength (fun b => (s3.codeOf b).path) s.input := by rw [hA, hbits, htot, meanLength]
  rw [hentropy, hmean]
  exact ⟨hs.low, hs.high⟩

/-- Settles O28: no count wraps, as the input is shorter than 2^32. -/
theorem freqCountsTheInput : Obligations.FreqCountsTheInput := by
  intro s _ hpos hin
  exact ⟨_, exec_freq_fits hpos hin, rfl, countBytes_length _, countAt_toNat s.input_length_lt,
    (countBytes_sum _ s.input_length_lt).trans s.input_length⟩

/-- Settles O29: the two failures of FREQ, and BUILD's missing flag after them. -/
theorem freqRejectsEmptyAndTooLong : Obligations.FreqRejectsEmptyAndTooLong := by
  refine fun s => ⟨fun hempty => ⟨_, exec_freq_empty hempty, rfl, exec_missing rfl⟩, fun hlong => ?_⟩
  rw [exec_freq, if_pos hlong]
  rfl

end Sys2Proof.Machine
end

section
/-! SUPPORT. BUILD (42_tree_build.md): its arena is the leaves followed by internal nodes only, its weights add up to the
counts, and one distinct byte value makes a single leaf; the proofs of the statements of that file. -/

namespace Sys2Proof.Machine

/-! ### The leaves come first (R151) -/

/-- An arena that begins with as many leaves as it holds goes on with internal nodes only. -/
theorem ArenaOk.leaves_then_inner {leaves node : List Node} {nodeCount root : Nat}
    (h : ArenaOk node leaves.length nodeCount root) (hp : leaves <+: node) (hl : ∀ x ∈ leaves, x.isLeaf = true) :
    ∃ inner, node = leaves ++ inner ∧ ∀ x ∈ inner, x.isLeaf = false := by
  obtain ⟨inner, rfl⟩ := hp
  have hcount := h.leaves
  rw [List.countP_append, List.countP_eq_length.2 hl] at hcount
  have hnone : inner.countP Node.isLeaf = 0 := by omega
  exact ⟨inner, rfl, fun x hx => Bool.eq_false_iff.2 (List.countP_eq_zero.1 hnone x hx)⟩

/-- BUILD on valid counts: the leaves, then the internal nodes, in a valid arena (R151, R154, R155). -/
theorem exec_build_counts {s : State} (hv : s.flags.freqValid = true) (hc : CountsOk s.count s.total.toNat s.cfg.inCap) :
    ∃ inner root,
      exec .build s = .next (s.treeInstalled .build (leavesOf s.count ++ inner) (leavesOf s.count).length root) ∧
      (∀ x ∈ inner, x.isLeaf = false) ∧
      ArenaOk (leavesOf s.count ++ inner) (leavesOf s.count).length (leavesOf s.count ++ inner).length root := by
  obtain ⟨node, root, hexec, hstart, harena, -⟩ := exec_build hv (leavesOf_ne_nil hc)
  obtain ⟨inner, rfl, hinner⟩ := harena.leaves_then_inner hstart (leavesOf_isLeaf _)
  exact ⟨inner, root, hexec, hinner, harena⟩

/-! ### The weights (R154) -/

/-- Valid counts add up to `TOTAL` as words too: the sum does not wrap (R136). -/
theorem CountsOk.sum_eq_total {count : List Word} {total : Word} {cap : Nat} (h : CountsOk count total.toNat cap) :
    count.sum = total :=
  BitVec.eq_of_toNat_eq ((toNat_sum count (h.sum ▸ total.isLt)).trans h.sum)

/-- BUILD's leaves weigh `TOTAL` together. -/
theorem CountsOk.leaves_weigh_total {count : List Word} {total : Word} {cap : Nat} (h : CountsOk count total.toNat cap) :
    ((leavesOf count).map Node.weight).sum = total :=
  (leaves_sum count h.size).trans h.sum_eq_total

/-- The root of a valid arena weighs what the leaves it begins with weigh together. -/
theorem ArenaOk.rootWeight_leaves {leaves inner : List Node} {nodeCount root : Nat}
    (h : ArenaOk (leaves ++ inner) leaves.length nodeCount root) (hl : ∀ x ∈ leaves, x.isLeaf = true)
    (hinner : ∀ x ∈ inner, x.isLeaf = false) :
    weightAt (leaves ++ inner) root = (leaves.map Node.weight).sum := by
  have hleaves : (leaves ++ inner).filter Node.isLeaf = leaves := by
    rw [List.filter_append, List.filter_eq_self.2 hl, List.filter_eq_nil_iff.2 fun x hx => by simp [hinner x hx],
      List.append_nil]
  rw [h.rootWeight, sum_leaf_weights, hleaves]

/-! ### One distinct byte value (R156) -/

/-- The only byte value whose count is not 0, found by going through all of them. -/
theorem filter_range_eq_singleton {count : List Word} {sym : Byte}
    (h : ∀ b : Byte, count.getD b.toNat 0 ≠ 0 ↔ b = sym) :
    ((List.range 256).filter fun k => count.getD k 0 != 0) = [sym.toNat] := by
  have hiff : ∀ k ∈ List.range 256, (count.getD k 0 != 0) = (k == sym.toNat) := by
    intro k hk
    have hnat : (BitVec.ofNat 8 k).toNat = k := Nat.mod_eq_of_lt (List.mem_range.1 hk)
    have honly := h (BitVec.ofNat 8 k)
    rw [← BitVec.toNat_inj, hnat] at honly
    rw [Bool.eq_iff_iff, bne_iff_ne, beq_iff_eq]
    exact honly
  rw [List.filter_congr hiff, List.filter_beq,
    List.count_eq_one_of_mem List.nodup_range (List.mem_range.2 sym.isLt), List.replicate_one]

/-- BUILD's only leaf then weighs `TOTAL`. -/
theorem leavesOf_eq_singleton {count : List Word} {total : Word} {cap : Nat} {sym : Byte}
    (hc : CountsOk count total.toNat cap) (h : ∀ b : Byte, count.getD b.toNat 0 ≠ 0 ↔ b = sym) :
    leavesOf count = [.leaf sym total] := by
  have hleaf : leavesOf count = [.leaf sym (count.getD sym.toNat 0)] := by
    rw [leavesOf_eq, filter_range_eq_singleton h, List.map_singleton, BitVec.ofNat_toNat, BitVec.setWidth_eq]
  have hweight : count.getD sym.toNat 0 = total := by
    simpa only [hleaf, List.map_singleton, List.sum_singleton, Node.weight] using hc.leaves_weigh_total
  rw [hleaf, hweight]

/-- BUILD on counts of one byte value: no merge, and the root is the leaf. -/
theorem exec_build_singleton {s : State} {sym : Byte} (hv : s.flags.freqValid = true)
    (hc : CountsOk s.count s.total.toNat s.cfg.inCap) (h : ∀ b : Byte, s.count.getD b.toNat 0 ≠ 0 ↔ b = sym) :
    exec .build s = .next (s.treeInstalled .build [.leaf sym s.total] 1 0) := by
  obtain ⟨inner, root, hexec, -, harena⟩ := exec_build_counts hv hc
  rw [leavesOf_eq_singleton hc h] at hexec harena
  have htwice := harena.twice
  have hroot := harena.rootLast
  simp only [List.length_append, List.length_singleton] at htwice hroot
  obtain rfl : inner = [] := List.length_eq_zero_iff.1 (by omega)
  obtain rfl : root = 0 := by simpa using hroot
  exact hexec

/-! ### The statements -/

/-- Settles O30: BUILD's leaves are the start of its arena, and a valid arena holds no others. -/
theorem buildMakesOneLeafPerByte : Obligations.BuildMakesOneLeafPerByte := by
  intro s hv hc
  obtain ⟨inner, root, hexec, hinner, harena⟩ := exec_build_counts hv hc
  obtain ⟨hleaves, -, -⟩ := treeInstalled_arena (i := .build) (s := s) harena
  refine ⟨_, hexec, ?_, ?_⟩
  · rw [hleaves, ← leavesOf_eq]
    exact List.take_left
  · rw [hleaves]
    show ∀ x ∈ (leavesOf s.count ++ inner).drop (leavesOf s.count).length, x.isLeaf = false
    rw [List.drop_left]
    exact hinner

/-- Settles O32: the weight of the root of a valid arena is that of its leaves, and the leaves weigh what the counts add
up to. -/
theorem buildRootWeighsTotal : Obligations.BuildRootWeighsTotal := by
  intro s hv hc
  obtain ⟨inner, root, hexec, hinner, harena⟩ := exec_build_counts hv hc
  obtain ⟨hleaves, hnodes, hroot⟩ := treeInstalled_arena (i := .build) (s := s) harena
  refine ⟨_, hexec, ?_⟩
  rw [hleaves, hnodes, hroot]
  refine ⟨harena.rootLast, ?_, ?_, harena.twice, rfl⟩
  · exact (harena.rootWeight_leaves (leavesOf_isLeaf _) hinner).trans hc.leaves_weigh_total
  · rw [leavesOf_eq, List.length_map, List.countP_eq_length_filter]

/-- Settles O33: the arena is one leaf, which GENCODES rejects and SERIALIZE writes as its one token. -/
theorem buildOfOneByteIsASingleLeaf : Obligations.BuildOfOneByteIsASingleLeaf := by
  intro s sym hv hc hsym
  refine ⟨_, exec_build_singleton hv hc hsym, rfl, ⟨_, exec_gencodes_leaf rfl rfl, rfl, exec_missing rfl⟩,
    _, exec_serialize (t := .leaf sym) rfl rfl, ?_⟩
  exact State.tokens_of_setTokens rfl (show 1 ≤ tokCap by decide) rfl

end Sys2Proof.Machine
end

section
/-! SUPPORT. GENCODES (43_code_table.md): the fields of an entry that records a path, the size of the table, and the
entries of a tree's table; the proofs of the statements of that file. -/

namespace Sys2Proof.Machine

/-! ### The fields of an entry (R46, R167) -/

theorem CodeEntry.len_ofPath {p : List Bool} (h : p.length < 512) : (CodeEntry.ofPath p).len.toNat = p.length :=
  Nat.mod_eq_of_lt h

theorem CodeEntry.bits_ofPath (p : List Bool) {k : Nat} (hk : k < 256) :
    (CodeEntry.ofPath p).bits.getLsbD k = p.getD k false := by
  rw [CodeEntry.ofPath, BitVec.getLsbD_ofNat, pathNumber_testBit, decide_eq_true hk, Bool.true_and]

/-! ### The table of a tree (R165, R169) -/

theorem codeTableOf_length {node : List Node} {root : Nat} {code : List CodeEntry}
    (h : codeTableOf node root = some code) : code.length = 256 := by
  rw [codeTableOf_eq] at h
  obtain ⟨t, -, rfl⟩ := Option.map_eq_some_iff.1 h
  rw [recordPaths_length, List.length_replicate, alphabet]

/-- The code of a byte fits in an entry's 256 bits: the tree of a valid arena has at most 256 leaves (R170 (b)). -/
theorem State.Inv.codeOf_length {s : State} (h : s.Inv) (hv : s.flags.treeValid = true) {T : HTree}
    (hT : s.tree = some T) {sym : Byte} {p : List Bool} (hp : T.codeOf sym = some p) : p.length < 256 := by
  have harena := h.arena hv
  obtain ⟨T', hT', hcount⟩ := harena.tree
  obtain rfl : T' = T := Option.some.inj (hT'.symm.trans hT)
  have hbound : T'.leafCount ≤ 256 := hcount ▸ harena.bound
  have hdepth := HTree.follow_length (T'.codeOf_follow hp)
  omega

/-! ### The statements -/

/-- Settles O36: the root is a leaf. -/
theorem gencodesRejectsASingleLeaf : Obligations.GencodesRejectsASingleLeaf := fun _ _ _ hv hroot =>
  exec_gencodes_leaf hv hroot

/-- Settles O35: the table is that of the tree, byte by byte, and an entry has room for each path. -/
theorem gencodesRecordsThePaths : Obligations.GencodesRecordsThePaths := by
  intro s T h hv hT hl
  obtain ⟨code, htable, hexec⟩ := exec_gencodes hv hT hl
  refine ⟨_, hexec, rfl, codeTableOf_length htable, fun sym => ?_⟩
  have hentry := codeTableOf_getD hT htable sym
  rw [State.codeOf, hentry]
  constructor
  · intro p hp
    have hfits := h.codeOf_length hv hT hp
    rw [hp]
    exact ⟨rfl, CodeEntry.len_ofPath (by omega), fun k hk => CodeEntry.bits_ofPath p hk⟩
  · intro hnone
    rw [hnone]
    rfl

end Sys2Proof.Machine
end

section
/-! SUPPORT. SERIALIZE and DESERIALIZE (44_serialize.md): the tokens of the tree in the block, the tree of the tokens in
the buffer, writing tokens over themselves, and that GENCODES depends on the tree alone; the proofs of the statements
of that file. -/

namespace Sys2Proof.Machine

/-! ### The tokens of the tree in the block (R180, R181) -/

/-- The tree in the block has a token for each node of the arena. -/
theorem State.Inv.ser_length {s : State} (h : s.Inv) (hv : s.flags.treeValid = true) {T : HTree} (hT : s.tree = some T) :
    T.ser.length = s.nodeCount.toNat := by
  have harena := h.arena hv
  obtain ⟨T', hT', hcount⟩ := harena.tree
  obtain rfl : T' = T := Option.some.inj (hT'.symm.trans hT)
  have hlen := T'.ser_length
  have htwice := harena.twice
  omega

/-- The tokens of the tree in the block fit `TOK_BUF`: a valid arena has at most 256 leaves. -/
theorem State.Inv.nodeCount_le {s : State} (h : s.Inv) (hv : s.flags.treeValid = true) : s.nodeCount.toNat ≤ tokCap := by
  obtain ⟨-, -, -, htwice, hbound, -, -⟩ := h.arena hv
  unfold alphabet at hbound
  unfold tokCap
  omega

/-! ### The tree of the tokens in the buffer (R185) -/

theorem State.tokens_length (s : State) : s.tokens.length = s.tokCount.toNat := by
  rw [State.tokens, List.length_map, List.length_range]

theorem tokenDepth_tree (T : HTree) : tokenDepth T.ser 0 = some 1 := by
  simpa [tokenDepth] using tokenDepth_ser T [] 0

/-- No token of a tree is malformed. -/
theorem tokenDepth_take_tree (T : HTree) (n : Nat) : tokenDepth (T.ser.take n) 0 ≠ none := by
  intro hnone
  have hwhole := tokenDepth_tree T
  rw [← List.take_append_drop n T.ser, tokenDepth_append, hnone] at hwhole
  cases hwhole

/-- DESERIALIZE of the tokens of a tree, from any state: an arena with a node for each token, which holds that tree. -/
theorem exec_deserialize_ser {s : State} {T : HTree} (hcap : s.tokCount.toNat ≤ tokCap) (htokens : s.tokens = T.ser) :
    ∃ node leaves r, exec .deserialize s = .next (s.treeInstalled .deserialize node leaves r) ∧ treeOf node r = some T ∧
      ArenaOk node leaves node.length r ∧ node.map Node.token = s.tokens ∧ ∀ x ∈ node, x.weight = 0 := by
  rcases exec_deserialize hcap with ⟨T', d, r, hser, htree, harena, hzero, hkinds, hexec⟩ | ⟨n, hdepth, hn, -⟩ |
    ⟨n, -, -, hbad, -⟩
  · obtain rfl := HTree.ser_injective (hser.symm.trans htokens)
    exact ⟨d.node, d.leaves, r, hexec, htree, harena, hkinds, hzero⟩
  · rw [htokens, tokenDepth_tree] at hdepth
    exact absurd (Option.some.inj hdepth).symm hn
  · rw [htokens] at hbad
    exact absurd hbad (tokenDepth_take_tree T _)

/-- An installed arena holds in the block the tree that it holds by itself. -/
theorem treeInstalled_tree {i : Instr} {s : State} {node : List Node} {leaves r : Nat} {T : HTree}
    (harena : ArenaOk node leaves node.length r) (htree : treeOf node r = some T) :
    (s.treeInstalled i node leaves r).tree = some T := by
  obtain ⟨-, -, hroot⟩ := treeInstalled_arena (i := i) (s := s) harena
  rw [State.tree, hroot]
  exact htree

/-! ### Tokens written over themselves -/

/-- The tokens depend on the bytes only. -/
theorem State.token_congr {s t : State} (hb : t.byteAt = s.byteAt) : t.token = s.token :=
  funext fun _ => State.halfAt_congr fun _ _ => congrFun hb _

theorem State.tokens_congr {s t : State} (hc : t.tokCount = s.tokCount) (hb : t.byteAt = s.byteAt) :
    t.tokens = s.tokens := by
  rw [State.tokens, State.tokens, hc, State.token_congr hb]

/-- Writing to a cell the token that stands there changes no byte as it reads. -/
theorem State.byteAt_setToken_token (s : State) (t : Nat) :
    ({ s with mem := s.mem.setToken t (s.token t) } : State).byteAt = s.byteAt := by
  funext a
  rw [State.byteAt, Memory.get_setToken]
  split_ifs with hlow hhigh
  · rw [hlow.2]
    exact low_append _ _
  · rw [hhigh.2]
    exact high_append _ _
  · rfl

/-- The same for a run of `n` cells from cell `t` on. -/
theorem State.byteAt_setTokens_tokens (n t : Nat) (s : State) :
    ({ s with mem := s.mem.setTokens t ((List.range' t n).map s.token) } : State).byteAt = s.byteAt := by
  induction n generalizing t s with
  | zero => rfl
  | succ n ih =>
    have hbytes := s.byteAt_setToken_token t
    have htoken := State.token_congr hbytes
    have hrest := ih (t + 1) { s with mem := s.mem.setToken t (s.token t) }
    rw [htoken, hbytes] at hrest
    exact hrest

/-! ### GENCODES after DESERIALIZE (R191) -/

/-- GENCODES depends on the tree, not on its numbering or weights: two blocks with the same tree end with the same code
table, or both without one. -/
theorem exec_gencodes_agree {s u : State} {T : HTree} (hvs : s.flags.treeValid = true) (hvu : u.flags.treeValid = true)
    (hts : s.tree = some T) (htu : u.tree = some T) :
    ∃ a b, exec .gencodes s = .next a ∧ exec .gencodes u = .next b ∧ a.code = b.code ∧
      a.flags.codesValid = b.flags.codesValid := by
  cases hl : T.isLeaf with
  | true =>
    obtain ⟨_, _, hs, -⟩ := State.root_of_leaf hts hl
    obtain ⟨_, _, hu, -⟩ := State.root_of_leaf htu hl
    exact ⟨_, _, exec_gencodes_leaf hvs hs, exec_gencodes_leaf hvu hu, rfl, rfl⟩
  | false =>
    obtain ⟨code, hcode, hs⟩ := exec_gencodes hvs hts hl
    obtain ⟨code', hcode', hu⟩ := exec_gencodes hvu htu hl
    have htree : treeOf s.node s.root.toNat = treeOf u.node u.root.toNat := hts.trans htu.symm
    rw [codeTableOf_eq, htree, ← codeTableOf_eq, hcode'] at hcode
    exact ⟨_, _, hs, hu, (Option.some.inj hcode).symm, rfl⟩

/-! ### The two round trips (R191) -/

/-- Only ENCODE changes the payload bits. -/
theorem exec_payBit {i : Instr} {s t : State} (wf : s.cfg.wf = true) (h : exec i s = .next t) (hi : i ≠ .encode) (k : Nat) :
    t.payBit k = s.payBit k := by
  rw [State.payBit, State.payBit, exec_payWord wf h hi]

/-- DESERIALIZE that succeeds, then SERIALIZE: the tokens are written over themselves. -/
theorem deserialize_serialize {s t : State} (h : exec .deserialize s = .next t) (herr : t.flags.err = false) :
    ∃ u, exec .serialize t = .next u ∧ u.tokCount = s.tokCount ∧ u.byteAt = s.byteAt := by
  rcases exec_deserialize_cases h with ⟨e, info, rfl, -⟩ | ⟨T, d, r, -, htokens, htree, harena, rfl⟩
  · cases herr
  · have hlen : T.ser.length = s.tokCount.toNat := htokens ▸ s.tokens_length
    have hcount : BitVec.ofNat 64 T.ser.length = s.tokCount := by rw [hlen, BitVec.ofNat_toNat, BitVec.setWidth_eq]
    have hbytes := s.byteAt_setTokens_tokens s.tokCount.toNat 0
    rw [← List.range_eq_range', show (List.range s.tokCount.toNat).map s.token = T.ser from htokens] at hbytes
    exact ⟨_, exec_serialize rfl (treeInstalled_tree harena htree), hcount, hbytes⟩

/-! ### The statements -/

/-- Settles O42: each command undoes the other, and GENCODES and DECODE depend on the tree, not on its numbering. -/
theorem treeRoundTrip : Obligations.TreeRoundTrip := by
  refine ⟨fun s h hv => ?_, fun s t h herr => ?_⟩
  · obtain ⟨T, hT⟩ := h.tree hv
    obtain ⟨t, u, hser, hdes, huv, huT, hzero, -, -, node, leaves, r, hu, ht⟩ := serialize_deserialize h hv hT
    have htinv := h.exec hser
    have huinv := htinv.exec hdes
    have hbits : ∀ k, u.payBit k = s.payBit k := fun k =>
      (exec_payBit htinv.params hdes (by decide) k).trans (exec_payBit h.params hser (by decide) k)
    subst hu ht
    obtain ⟨a, b, hda, hdb, hout, hlen, hcode, hinfo, hpartial, -⟩ := exec_decode_agree hv huv (h.arena hv)
      (huinv.arena huv) hT huT rfl h.params rfl rfl fun k _ _ => hbits k
    exact ⟨_, _, hser, hdes, huv, huT.trans hT.symm, hzero, exec_gencodes_agree hv huv hT huT,
      a, b, hda, hdb, hout, hlen, hcode, hinfo, hpartial⟩
  · obtain ⟨u, hser, hcount, hbytes⟩ := deserialize_serialize h herr
    exact ⟨u, hser, hcount, State.tokens_congr hcount hbytes, congrFun hbytes⟩

/-- Settles O38: the tokens are those of the tree, one for each node, and a run of tokens touches only its own cells. -/
theorem serializeWritesPostOrder : Obligations.SerializeWritesPostOrder := by
  intro s T h hv hT
  have hlen := h.ser_length hv hT
  have hcap := h.nodeCount_le hv
  have hcount : BitVec.ofNat 64 T.ser.length = s.nodeCount.setWidth 64 := by rw [hlen, BitVec.ofNat_toNat]
  have hexec := exec_serialize hv hT
  rw [hcount] at hexec
  refine ⟨_, hexec, rfl, State.tokens_of_setTokens ?_ (hlen ▸ hcap) rfl, fun a ha => State.byteAt_congr a ?_ rfl⟩
  · rw [hlen]
    exact BitVec.toNat_setWidth_of_le (by decide)
  · exact Memory.get_setTokens_outside _ _ _ _ (by omega)

/-- Settles O39: the installed arena holds the tree, and its registers hold what was installed. -/
theorem deserializeRebuildsTheTree : Obligations.DeserializeRebuildsTheTree := by
  intro s T hcap htokens
  obtain ⟨node, leaves, r, hexec, htree, harena, hkinds, hzero⟩ := exec_deserialize_ser hcap htokens
  obtain ⟨hleaves, hnodes, hroot⟩ := treeInstalled_arena (i := .deserialize) (s := s) harena
  have hlen : node.length = s.tokCount.toNat := by rw [← s.tokens_length, ← hkinds, List.length_map]
  refine ⟨_, hexec, rfl, treeInstalled_tree harena htree, ?_, hnodes.trans hlen, hkinds, hzero⟩
  rw [hleaves, hnodes, hroot]
  exact harena

/-- Settles O41: the count is checked before any token is read. -/
theorem deserializeRejectsTooManyTokens : Obligations.DeserializeRejectsTooManyTokens := fun _ h =>
  exec_deserialize_capacity h

end Sys2Proof.Machine
end

section
/-! SUPPORT. How far ENCODE gets in its input, which determines how it ends (45_encode.md R200 to R208), and what each end
leaves in the block; the proofs of the statements of that file. -/

namespace Sys2Proof.Machine

/-! ### How far ENCODE gets -/

/-- ENCODE packs the codes of the first `n` input bytes: each of these bytes has a code, and no full word of their codes is
beyond `PAY_BUF` (R205, R207). -/
structure State.EncodeReaches (s : State) (n : Nat) : Prop where
  valid : ∀ b ∈ s.input.take n, (s.codeOf b).valid = true
  fits : (s.codeBits (s.input.take n)).length < 32 * (s.cfg.payCap + 1)

theorem State.EncodeReaches.mono {s : State} {m n : Nat} (h : s.EncodeReaches n) (hmn : m ≤ n) : s.EncodeReaches m := by
  obtain ⟨rest, hrest⟩ := s.codeBits_take_add m n hmn
  have hfits := h.fits
  rw [hrest, List.length_append] at hfits
  exact ⟨fun b hb => h.valid b (State.mem_take_mono hmn hb), by omega⟩

@[simp] theorem State.input_take_inLen (s : State) : s.input.take s.inLen.toNat = s.input :=
  List.take_of_length_le s.input_length.le

/-- Byte `n` stops ENCODE if it has no code (R205). -/
theorem State.not_encodeReaches_of_noCode {s : State} {n : Nat} (hn : n < s.inLen.toNat)
    (hbad : (s.codeOf (s.inByte n)).valid = false) : ¬ s.EncodeReaches (n + 1) := fun h => by
  rw [h.valid _ (s.inByte_mem_take n hn)] at hbad
  cases hbad

/-- When the whole input is packed, ENCODE ends after its last byte (R203). -/
theorem exec_encode_of_reaches {s : State} (hv : s.flags.codesValid = true) (hin : s.inLen.toNat ≤ s.cfg.inCap)
    (h : s.EncodeReaches s.inLen.toNat) :
    ∃ e, Packed s.mem (s.codeBits s.input) e ∧ exec .encode s = .next (s.encodeEnded e) := by
  rcases exec_encode_ends hv hin with
    ⟨e, -, -, hpack, -, hexec⟩ | ⟨n, -, hn, -, hbad, -⟩ | ⟨n, -, hn, -, -, hspill, -⟩
  · exact ⟨e, hpack, hexec⟩
  · exact absurd (h.mono hn) (State.not_encodeReaches_of_noCode hn hbad)
  · exact absurd (h.mono hn).fits (Nat.not_lt.2 hspill)

/-- When byte `j` is the first that is not packed, ENCODE ends there: the byte has no code, or fills a word that has no
room (R205, R207). -/
theorem exec_encode_of_stop {s : State} {j : Nat} (hv : s.flags.codesValid = true) (hin : s.inLen.toNat ≤ s.cfg.inCap)
    (hj : j < s.inLen.toNat) (hreach : s.EncodeReaches j) (hstop : ¬ s.EncodeReaches (j + 1)) :
    (∃ e, (s.codeOf (s.inByte j)).valid = false ∧ Packed s.mem (s.codeBits (s.input.take j)) e ∧
      exec .encode s = .next (s.encodeFailed .noCode (BitVec.ofNat 64 j) e.mem)) ∨
    (∃ e, (s.codeOf (s.inByte j)).valid = true ∧
      Packed s.mem ((s.codeBits (s.input.take (j + 1))).take (32 * s.cfg.payCap + 31)) e ∧ e.w = s.cfg.payCap ∧
      exec .encode s = .next (s.encodeFailed .capacity (BitVec.ofNat 64 j) e.mem)) := by
  have unique : ∀ n, s.EncodeReaches n → ¬ s.EncodeReaches (n + 1) → n = j := fun n hn hn' =>
    Nat.le_antisymm (Nat.le_of_not_lt fun hlt => hstop (hn.mono hlt)) (Nat.le_of_not_lt fun hlt => hn' (hreach.mono hlt))
  rcases exec_encode_ends hv hin with
    ⟨e, hvalid, hfits, -⟩ | ⟨n, e, hn, hvalid, hbad, hfits, hpack, hexec⟩ |
    ⟨n, e, hn, hvalid, hfits, hspill, hpack, hw, hexec⟩
  · have hall : s.EncodeReaches s.inLen.toNat := by
      rw [← s.input_take_inLen] at hvalid hfits
      exact ⟨hvalid, hfits⟩
    exact absurd (hall.mono hj) hstop
  · obtain rfl := unique n ⟨hvalid, hfits⟩ (State.not_encodeReaches_of_noCode hn hbad)
    exact .inl ⟨e, hbad, hpack, hexec⟩
  · obtain rfl := unique n ⟨fun b hb => hvalid b (State.mem_take_mono n.le_succ hb), hfits⟩
      fun h => Nat.not_lt.2 hspill h.fits
    exact .inr ⟨e, hvalid _ (s.inByte_mem_take n hn), hpack, hw, hexec⟩

/-! ### What a failing ENCODE leaves (R208) -/

/-- After a failure the complete words stand in `PAY_BUF`, and every other byte is as it was. -/
theorem Packed.encodeFailed_bytes {s : State} {bits : List Bool} {e : EncodeLocals} (h : Packed s.mem bits e) (x : Err)
    (info : Quad) :
    (∀ i, i < 32 * e.w → (s.encodeFailed x info e.mem).payBit i = bits.getD i false) ∧
      ∀ a, a < payBase ∨ payBase + 4 * e.w ≤ a → (s.encodeFailed x info e.mem).byteAt a = s.byteAt a :=
  ⟨fun _ hi => h.payBit (fun _ _ _ => rfl) (Nat.div_lt_of_lt_mul hi),
    fun _ ha => h.outside (t := s.encodeFailed x info e.mem) rfl rfl rfl ha⟩

/-- The codes of the first bytes are the first bits of the codes of the input. -/
theorem State.codeBits_take_getD (s : State) {n i : Nat} (hn : n ≤ s.inLen.toNat)
    (hi : i < (s.codeBits (s.input.take n)).length) :
    (s.codeBits (s.input.take n)).getD i false = (s.codeBits s.input).getD i false := by
  obtain ⟨rest, hrest⟩ := s.codeBits_take_add n s.inLen.toNat hn
  rw [s.input_take_inLen] at hrest
  rw [hrest, List.getD_append _ _ _ _ hi]

/-! ### What ENCODE leaves after its last byte (R203, R206, R207) -/

/-- A partial last word that has no room is an error at `IN_LEN` (R207). -/
theorem Packed.encodeEnded_noRoom {s : State} {bits : List Bool} {e : EncodeLocals} (h : Packed s.mem bits e)
    (hpart : bits.length % 32 ≠ 0) (hroom : s.cfg.payCap ≤ e.w) :
    s.encodeEnded e = s.encodeFailed .capacity (s.inLen.setWidth 64) e.mem := by
  rw [State.encodeEnded, h.p, if_neg hpart, if_pos hroom]

/-- Without a partial last word, the complete words are the payload (R203). -/
theorem Packed.encodeEnded_complete {s : State} {bits : List Bool} {e : EncodeLocals} (h : Packed s.mem bits e)
    (hpart : bits.length % 32 = 0) :
    s.encodeEnded e =
      { s.succeeded .encode with bitCount := BitVec.ofNat 64 e.p, payWords := BitVec.ofNat 32 e.w, mem := e.mem } := by
  rw [State.encodeEnded, if_pos (h.p ▸ hpart)]

/-- A partial last word that has room is written with the next padding (R206). -/
theorem Packed.encodeEnded_partial {s : State} {bits : List Bool} {e : EncodeLocals} (h : Packed s.mem bits e)
    (hpart : bits.length % 32 ≠ 0) (hroom : e.w < s.cfg.payCap) :
    s.encodeEnded e =
      { s.succeeded .encode with
        bitCount := BitVec.ofNat 64 e.p
        payWords := BitVec.ofNat 32 (e.w + 1)
        mem := e.mem.setPay e.w (padWord e.acc (e.p % 32) s.padBits)
        padChoices := s.padChoices.tail } := by
  rw [State.encodeEnded, if_neg (h.p ▸ hpart), if_neg (Nat.not_le.2 hroom)]

/-- The padding stands above the last payload bit (R206), and the bytes outside the payload words are as they were. -/
theorem Packed.encodeEnded_bytes {s : State} {bits : List Bool} {e : EncodeLocals} (h : Packed s.mem bits e)
    (hfit : bits.length ≤ 32 * s.cfg.payCap) :
    (∀ i, bits.length ≤ i → i < 32 * wordsFor bits.length →
      (s.encodeEnded e).payBit i = (s.padChoices.headD 0).getLsbD (i % 32)) ∧
    ∀ a, a < payBase ∨ payBase + 4 * wordsFor bits.length ≤ a → (s.encodeEnded e).byteAt a = s.byteAt a := by
  have hp := h.p
  have hw := h.w
  unfold wordsFor
  by_cases hpart : bits.length % 32 = 0
  · rw [h.encodeEnded_complete hpart]
    exact ⟨fun i hlo hhi => by omega,
      fun a ha => h.outside (t := { s.succeeded .encode with mem := e.mem }) rfl rfl rfl (by omega)⟩
  · rw [h.encodeEnded_partial hpart (by omega)]
    refine ⟨fun i hlo hhi => ?_, fun a ha => State.byteAt_congr a ?_ rfl⟩
    · have hlast : i / 32 = e.w := by omega
      have hword := State.wordAt_of_setWord (s := { s with mem := e.mem.setPay e.w (padWord e.acc (e.p % 32) s.padBits) })
        (m := e.mem) fun _ _ _ => rfl
      calc _ = (padWord e.acc (e.p % 32) s.padBits).getLsbD (i % 32) := by
            rw [State.payBit, hlast]
            exact congrArg (fun v : Word => v.getLsbD (i % 32)) hword
        _ = (s.padChoices.headD 0).getLsbD (i % 32) := by
            rw [padWord_getLsbD _ _ _ _ (by omega), if_neg (by omega)]
            rfl
    · rw [Memory.get_setPay, if_neg (by omega), h.mem, if_neg (by omega)]

/-- Beside the payload and its registers a successful ENCODE only uses up a choice of the padding, for a partial word. -/
theorem Packed.encodeEnded_frame {s : State} {bits : List Bool} {e : EncodeLocals} (h : Packed s.mem bits e)
    (hfit : bits.length ≤ 32 * s.cfg.payCap) :
    s.encodeEnded e =
      { s.succeeded .encode with
        bitCount := (s.encodeEnded e).bitCount, payWords := (s.encodeEnded e).payWords, mem := (s.encodeEnded e).mem
        padChoices := if bits.length % 32 = 0 then s.padChoices else s.padChoices.tail } := by
  by_cases hpart : bits.length % 32 = 0
  · rw [if_pos hpart, h.encodeEnded_complete hpart]
    rfl
  · rw [if_neg hpart, h.encodeEnded_partial hpart (by rw [h.w]; omega)]

/-- An ENCODE that succeeds leaves the codes of the input as the payload. -/
theorem exec_encode_holdsPayload {s t : State} (h : s.Inv) (hin : s.inLen.toNat ≤ s.cfg.inCap)
    (hexec : exec .encode s = .next t) (herr : t.flags.err = false) : t.HoldsPayload (s.codeBits s.input) := by
  obtain ⟨-, -, -, hcap⟩ := (Config.wf_iff _).1 h.params
  have hv : s.flags.codesValid = true := by
    rcases exec_encode_cases hexec with ⟨-, rfl⟩ | ⟨hv, -⟩
    · cases herr
    · exact hv
  rcases exec_encode_ends hv hin with
    ⟨e, -, -, hpack, hw, he⟩ | ⟨n, e, -, -, -, -, -, he⟩ | ⟨n, e, -, -, -, -, -, -, he⟩ <;>
    (rw [he] at hexec; cases hexec)
  · exact hpack.encodeEnded_payload hcap ((hpack.encodeEnded_err hw).1 herr)
  · cases herr
  · cases herr

/-! ### The statements -/

/-- Settles O43: the whole input is packed, and its last word padded. -/
theorem encodePacksTheCodes : Obligations.EncodePacksTheCodes := by
  intro s wf hv hin hvalid hfit
  obtain ⟨-, -, -, hcap⟩ := (Config.wf_iff _).1 wf
  have hreach : s.EncodeReaches s.inLen.toNat :=
    ⟨by rwa [s.input_take_inLen], by rw [s.input_take_inLen]; omega⟩
  obtain ⟨e, hpack, hexec⟩ := exec_encode_of_reaches hv hin hreach
  obtain ⟨hcount, hwords, hbits⟩ := hpack.encodeEnded_payload hcap hfit
  obtain ⟨hpad, houtside⟩ := hpack.encodeEnded_bytes hfit
  refine ⟨_, hexec, hpack.encodeEnded_frame hfit, hcount, hcount.trans (s.codeBits_length _), ?_, ?_, ?_, ?_⟩ <;>
    simp only [hcount, hwords]
  · rfl
  · exact hbits
  · exact hpad
  · exact houtside

/-- Settles O44: the bytes before it are packed, and it is not. -/
theorem encodeStopsAtAByteWithoutCode : Obligations.EncodeStopsAtAByteWithoutCode := by
  intro s j _ hv hin hj hvalid hbad hroom
  rcases exec_encode_of_stop hv hin hj ⟨hvalid, by omega⟩ (State.not_encodeReaches_of_noCode hj hbad) with
    ⟨e, -, hpack, hexec⟩ | ⟨e, hgood, -⟩
  · rw [← hpack.w]
    exact ⟨_, hexec, rfl, hpack.encodeFailed_bytes _ _⟩
  · rw [hbad] at hgood
    cases hgood

/-- Settles O45: the word that has no room is a full one in the loop, or the partial one after it. -/
theorem encodeStopsWhenThePayloadIsFull : Obligations.EncodeStopsWhenThePayloadIsFull := by
  rintro s j _ hv hin (⟨hj, hvalid, hroom, hspill⟩ | ⟨rfl, hvalid, hfull, hpart⟩)
  · have hreach : s.EncodeReaches j := ⟨fun b hb => hvalid b (State.mem_take_mono j.le_succ hb), by omega⟩
    rcases exec_encode_of_stop hv hin hj hreach fun h => by have := h.fits; omega with
      ⟨e, hbad, -⟩ | ⟨e, -, hpack, hw, hexec⟩
    · rw [hvalid _ (s.inByte_mem_take j hj)] at hbad
      cases hbad
    · obtain ⟨hbits, houtside⟩ := hpack.encodeFailed_bytes .capacity (BitVec.ofNat 64 j)
      rw [hw] at hbits houtside
      refine ⟨_, hexec, rfl, fun i hi => ?_, houtside⟩
      rw [hbits i hi, ← s.codeBits_take_getD (n := j + 1) hj (by omega), List.getD_eq_getElem?_getD,
        List.getElem?_take_of_lt (by omega), List.getD_eq_getElem?_getD]
  · have hreach : s.EncodeReaches s.inLen.toNat :=
      ⟨by rwa [s.input_take_inLen], by rw [s.input_take_inLen]; omega⟩
    obtain ⟨e, hpack, hexec⟩ := exec_encode_of_reaches hv hin hreach
    have hw : e.w = s.cfg.payCap := hpack.w.trans hfull
    rw [hpack.encodeEnded_noRoom hpart hw.ge] at hexec
    rw [BitVec.ofNat_toNat, ← hw]
    exact ⟨_, hexec, rfl, hpack.encodeFailed_bytes _ _⟩

/-- Settles O46: the loop has nothing to do, or is not entered. -/
theorem encodeOfEmptyAndOfTooLongInput : Obligations.EncodeOfEmptyAndOfTooLongInput := by
  refine fun s hv => ⟨fun hlen => ?_, fun hlong => exec_encode_capacity hv hlong⟩
  rw [exec_encode hv (by simp [hlen]), hlen]
  rfl

/-- Settles O47: the bit count is the number of bits of the codes, summed by byte value. -/
theorem bitCountIsSumOfLengthTimesCount : Obligations.BitCountIsSumOfLengthTimesCount := by
  intro s t h _ hin hcounts hexec herr
  rw [(exec_encode_holdsPayload h hin hexec herr).bitCount, s.codeBits_length,
    sum_over_bytes s.input _ 256 le_rfl fun a _ => a.isLt]
  refine congrArg List.sum (List.map_congr_left fun b hb => ?_)
  have hb : (BitVec.ofNat 8 b).toNat = b := Nat.mod_eq_of_lt (List.mem_range.1 hb)
  rw [← hcounts, hb]

end Sys2Proof.Machine
end

section
/-! SUPPORT. How DECODE ends (46_decode.md R215 to R225) by what its payload bits decode to, and the way from an input to its
payload and back (R226); the proofs of the statements of that file. -/

namespace Sys2Proof.Machine

/-! ### The bytes DECODE has emitted (R218, R223) -/

/-- From `s` on, DECODE's loop has emitted the bytes `bs`. -/
structure State.Emitted (s : State) (bs : List Byte) (d : DecodeLocals) : Prop where
  outLen : d.outLen = bs.length
  mem : d.mem = s.mem.setOuts 0 bs

/-- Before the first bit nothing has been emitted (R215). -/
theorem State.emitted_start (s : State) : s.Emitted [] { mem := s.mem, outLen := 0, cur := s.root } := ⟨rfl, rfl⟩

section
variable {s : State} {bs : List Byte} {d : DecodeLocals} (h : s.Emitted bs d) (wf : s.cfg.wf = true)
  (hroom : bs.length ≤ s.cfg.outCap)
include h wf hroom

theorem State.Emitted.outLen_decodeResult (t : State) : (State.decodeResult d t s).outLen.toNat = bs.length := by
  obtain ⟨-, ⟨-, -, hcap⟩, -⟩ := (Config.wf_iff _).1 wf
  rw [State.decodeResult, h.outLen]
  exact Nat.mod_eq_of_lt (by omega)

theorem State.Emitted.output (t : State) : (State.decodeResult d t s).output = bs :=
  State.output_of_setOuts (h.outLen_decodeResult wf hroom t) h.mem

/-- Every byte outside the output is as it was. -/
theorem State.Emitted.byteAt {t : State} (hp : t.powerCycle = s.powerCycle) (a : Nat)
    (ha : a < outBase ∨ outBase + (State.decodeResult d t s).outLen.toNat ≤ a) :
    (State.decodeResult d t s).byteAt a = s.byteAt a := by
  rw [h.outLen_decodeResult wf hroom] at ha
  exact State.decodeResult_byteAt h.mem hp ha

end

/-- A loop that has done nothing leaves `OUT_LEN` and `PARTIAL` at 0 (R215). -/
theorem State.decodeResult_start (t s : State) :
    State.decodeResult { mem := s.mem, outLen := 0, cur := s.root } t s =
      { t with outLen := 0, mem := s.mem, flags := { t.flags with partialEnd := false } } := by
  simp [State.decodeResult]

/-! ### How DECODE ends (R219 to R222) -/

/-- With no bit to read the loop does nothing, whatever the arena is (R219). -/
theorem exec_decode_noBits {s : State} (hv : s.flags.treeValid = true) (hp : s.payWords.toNat ≤ s.cfg.payCap)
    (hb : s.bitCount = 0) :
    exec .decode s = .next (State.decodeResult { mem := s.mem, outLen := 0, cur := s.root } (s.succeeded .decode) s) := by
  have hread : s.bitsToRead = 0 := by simp [State.bitsToRead, hb]
  rw [exec_decode hv hp, hread]
  rfl

/-- With no word for the first bit it is truncated, whatever the arena is (R220, R257). -/
theorem exec_decode_noWords {s : State} (hv : s.flags.treeValid = true) (hb : 1 ≤ s.bitCount.toNat) (hw : s.payWords = 0) :
    exec .decode s = .next
      (State.decodeResult { mem := s.mem, outLen := 0, cur := s.root } (s.failed .decode .truncatedData 0) s) := by
  have hread : s.bitsToRead = 1 := by
    rw [State.bitsToRead, hw]
    exact Nat.min_eq_right hb
  rw [exec_decode hv (by simp [hw]), hread, decodeLoop, decodeStep_truncated _ _ _ (by simp [hw])]
  rfl

/-- On a single leaf the first bit that is there has no path (R221). -/
theorem exec_decode_noPath {s : State} {sym : Byte} {w : Word} (hv : s.flags.treeValid = true)
    (hroot : s.node[s.root.toNat]? = some (.leaf sym w)) (hp : s.payWords.toNat ≤ s.cfg.payCap)
    (hb : 1 ≤ s.bitCount.toNat) (hw : 1 ≤ s.payWords.toNat) :
    exec .decode s = .next
      (State.decodeResult { mem := s.mem, outLen := 0, cur := s.root } (s.failed .decode .invalidPath 0) s) := by
  have hb0 : s.bitCount ≠ 0 := fun h0 => by simp [h0] at hb
  have hw0 : s.payWords ≠ 0 := fun h0 => by simp [h0] at hw
  rw [exec_decode_leaf hv hroot hp, if_neg hb0, if_neg hw0]

/-- A single leaf decodes to no byte (R221). -/
theorem HTree.decodeFrom_leaf {T : HTree} (hl : T.isLeaf = true) (bits : List Bool) : (T.decodeFrom T bits).1 = [] := by
  cases T with
  | leaf sym => cases bits <;> rfl
  | node l r => cases hl

/-- As long as just `cap` bytes are emitted, the bit that completes one more is not reached. -/
theorem State.le_of_emitted {s : State} {T : HTree} {cap i j : Nat}
    (hfull : (T.decodeFrom T (s.payBits i)).1.length = cap)
    (hover : (T.decodeFrom T (s.payBits (j + 1))).1.length = cap + 1) : i ≤ j := by
  refine Nat.le_of_not_lt fun hlt => ?_
  have hmono := s.emitted_mono T (show j + 1 ≤ i from hlt)
  omega

section
variable {s : State} {T : HTree} (hv : s.flags.treeValid = true)
  (ha : ArenaOk s.node s.leafCount.toNat s.nodeCount.toNat s.root.toNat) (hT : s.tree = some T)
  (hp : s.payWords.toNat ≤ s.cfg.payCap)
include hv ha hT hp

/-- When all bits are there and every symbol has room, DECODE emits what the bits decode to (R219). -/
theorem exec_decode_whole (hl : T.isLeaf = false) (hbits : s.bitCount.toNat ≤ 32 * s.payWords.toNat)
    (hroom : (T.decodeFrom T (s.payBits s.bitCount.toNat)).1.length ≤ s.cfg.outCap) :
    ∃ d, s.Emitted (T.decodeFrom T (s.payBits s.bitCount.toNat)).1 d ∧
      (d.cur ≠ s.root ↔ (T.decodeFrom T (s.payBits s.bitCount.toNat)).2 ≠ T) ∧
      exec .decode s = .next (State.decodeResult d (s.succeeded .decode) s) := by
  rcases exec_decode_tree hv ha hT hl hp (Nat.min_eq_left hbits).symm with
    ⟨-, d, hlen, hmem, hcur, hexec⟩ | ⟨hover, -⟩
  · rw [if_pos hbits] at hexec
    exact ⟨d, ⟨hlen, hmem⟩, not_congr hcur, hexec⟩
  · omega

/-- When the words end before the bit count, DECODE emits what the bits that are there decode to, and fails (R220). -/
theorem exec_decode_truncated (hl : T.isLeaf = false ∨ s.payWords = 0) (hbits : 32 * s.payWords.toNat < s.bitCount.toNat)
    (hroom : (T.decodeFrom T (s.payBits (32 * s.payWords.toNat))).1.length ≤ s.cfg.outCap) :
    ∃ d, s.Emitted (T.decodeFrom T (s.payBits (32 * s.payWords.toNat))).1 d ∧
      (d.cur ≠ s.root ↔ (T.decodeFrom T (s.payBits (32 * s.payWords.toNat))).2 ≠ T) ∧
      exec .decode s = .next
        (State.decodeResult d (s.failed .decode .truncatedData (BitVec.ofNat 64 (32 * s.payWords.toNat))) s) := by
  rcases hl with hl | hw
  · rcases exec_decode_tree hv ha hT hl hp (Nat.min_eq_right hbits.le).symm with
      ⟨-, d, hlen, hmem, hcur, hexec⟩ | ⟨hover, -⟩
    · rw [if_neg (Nat.not_le.2 hbits)] at hexec
      exact ⟨d, ⟨hlen, hmem⟩, not_congr hcur, hexec⟩
    · omega
  · have hexec := exec_decode_noWords hv (by omega) hw
    have hnone : s.payBits (32 * s.payWords.toNat) = [] := by rw [hw]; rfl
    rw [hnone, HTree.decodeFrom_nil, hw]
    exact ⟨_, ⟨rfl, rfl⟩, by simp, hexec⟩

/-- A symbol that completes at bit `i` without room ends DECODE there, away from the root (R222). -/
theorem exec_decode_full {i : Nat} (hbit : i < s.bitCount.toNat) (hword : i < 32 * s.payWords.toNat)
    (hfull : (T.decodeFrom T (s.payBits i)).1.length = s.cfg.outCap)
    (hover : (T.decodeFrom T (s.payBits (i + 1))).1.length = s.cfg.outCap + 1) :
    ∃ d, s.Emitted (T.decodeFrom T (s.payBits i)).1 d ∧ d.cur ≠ s.root ∧
      exec .decode s = .next (State.decodeResult d (s.failed .decode .capacity (BitVec.ofNat 64 i)) s) := by
  have hl : T.isLeaf = false := Bool.eq_false_iff.2 fun hl => by
    rw [HTree.decodeFrom_leaf hl] at hover
    simp at hover
  rcases exec_decode_tree hv ha hT hl hp rfl with ⟨hle, -⟩ | ⟨-, j, d, -, hfull', hover', hlen, hmem, hcur, hexec⟩
  · have hmono := s.emitted_mono T (show i + 1 ≤ min s.bitCount.toNat (32 * s.payWords.toNat) by omega)
    omega
  · obtain rfl : i = j := Nat.le_antisymm (State.le_of_emitted hfull hover') (State.le_of_emitted hfull' hover)
    exact ⟨d, ⟨hlen.trans hfull.symm, hmem⟩, hcur, hexec⟩

end

/-! ### What DECODE depends on (R225) -/

/-- `s` with other memory and another `PAY_WORDS`. -/
def State.withPayload (m : Memory) (pw : Word) (s : State) : State := { s with mem := m, payWords := pw }

@[simp] theorem State.withPayload_bitCount (m : Memory) (pw : Word) (s : State) :
    (s.withPayload m pw).bitCount = s.bitCount := rfl

/-- DECODE ends alike with `m` for memory and `pw` for `PAY_WORDS`: the same registers and flags, and the same output. -/
def State.DecodesAlike (m : Memory) (pw : Word) (s : State) : Prop :=
  ∃ a b, exec .decode s = .next a ∧ exec .decode (s.withPayload m pw) = .next b ∧
    b = { a with mem := b.mem, payWords := pw } ∧ a.output = b.output

section
variable {s : State} {m : Memory} {pw : Word} (wf : s.cfg.wf = true)
include wf

/-- It does if its loops emit the same bytes, and leave the cursor both at the root or both away from it. -/
theorem State.Emitted.alike {bs : List Byte} {d e : DecodeLocals} (hd : s.Emitted bs d)
    (he : (s.withPayload m pw).Emitted bs e) (hcur : e.cur ≠ s.root ↔ d.cur ≠ s.root) (hroom : bs.length ≤ s.cfg.outCap)
    {t : State} (hexec : exec .decode s = .next (State.decodeResult d t s))
    (hexec' : exec .decode (s.withPayload m pw) =
      .next (State.decodeResult e (t.withPayload m pw) (s.withPayload m pw))) : s.DecodesAlike m pw := by
  have hpartial : (e.cur != s.root) = (d.cur != s.root) := by rwa [Bool.eq_iff_iff, bne_iff_ne, bne_iff_ne]
  refine ⟨_, _, hexec, hexec', ?_, (hd.output wf hroom t).trans (he.output wf hroom _).symm⟩
  simp only [State.decodeResult, State.withPayload, he.outLen, hd.outLen, hpartial]

variable (hv : s.flags.treeValid = true) (hp : s.payWords.toNat ≤ s.cfg.payCap) (hp' : pw.toNat ≤ s.cfg.payCap)
  (hbits : s.bitCount.toNat ≤ 32 * s.payWords.toNat) (hbits' : s.bitCount.toNat ≤ 32 * pw.toNat)
include hv hp hp' hbits hbits'

/-- On a single leaf no bit is looked at. -/
theorem State.decodesAlike_leaf {sym : Byte} {w : Word} (hroot : s.node[s.root.toNat]? = some (.leaf sym w)) :
    s.DecodesAlike m pw := by
  have alike {t : State} := s.emitted_start.alike (t := t) wf (s.withPayload m pw).emitted_start Iff.rfl (Nat.zero_le _)
  rcases Nat.eq_zero_or_pos s.bitCount.toNat with hb | hb
  · have hb : s.bitCount = 0 := BitVec.eq_of_toNat_eq hb
    exact alike (exec_decode_noBits hv hp hb) (exec_decode_noBits hv hp' hb)
  · have hw : 1 ≤ pw.toNat := by omega
    exact alike (exec_decode_noPath hv hroot hp hb (by omega)) (exec_decode_noPath hv hroot hp' hb hw)

/-- Inside a tree the bits below `BIT_COUNT` tell whether there is room, and where it ends. -/
theorem State.decodesAlike_tree {T : HTree} (ha : ArenaOk s.node s.leafCount.toNat s.nodeCount.toNat s.root.toNat)
    (hT : s.tree = some T) (hl : T.isLeaf = false)
    (hpay : ∀ n, n ≤ s.bitCount.toNat → (s.withPayload m pw).payBits n = s.payBits n) : s.DecodesAlike m pw := by
  rcases exec_decode_tree hv ha hT hl hp (Nat.min_eq_left hbits).symm with ⟨hroom, -⟩ | ⟨-, i, -, hi, hfull, hover, -⟩
  · have hother := exec_decode_whole (s := s.withPayload m pw) hv ha hT hp' hl hbits'
    rw [State.withPayload_bitCount, hpay _ le_rfl] at hother
    obtain ⟨d, hd, hcur, hexec⟩ := exec_decode_whole hv ha hT hp hl hbits hroom
    obtain ⟨e, he, hcur', hexec'⟩ := hother hroom
    exact hd.alike wf he (hcur'.trans hcur.symm) hroom hexec hexec'
  · have hother := exec_decode_full (s := s.withPayload m pw) hv ha hT hp' hi (hi.trans_le hbits')
    rw [hpay i hi.le, hpay (i + 1) hi] at hother
    obtain ⟨d, hd, hcur, hexec⟩ := exec_decode_full hv ha hT hp hi (hi.trans_le hbits) hfull hover
    obtain ⟨e, he, hcur', hexec'⟩ := hother hfull hover
    exact hd.alike wf he (iff_of_true hcur' hcur) hfull.le hexec hexec'

end

/-! ### From an input to its payload and back (R226) -/

/-- The block holds the tree `T` and, as its payload, the codes of `x`, all of it within the capacities. -/
structure State.HoldsCoded (s : State) (T : HTree) (code : Byte → List Bool) (x : List Byte) : Prop where
  inv : s.Inv
  treeValid : s.flags.treeValid = true
  tree : s.tree = some T
  inner : T.isLeaf = false
  codes : T.Codes code x
  payload : s.HoldsPayload (x.flatMap code)
  words : (x.flatMap code).length ≤ 32 * s.cfg.payCap
  room : x.length ≤ s.cfg.outCap

theorem State.HoldsCoded.exec_decode {s : State} {T : HTree} {code : Byte → List Bool} {x : List Byte}
    (h : s.HoldsCoded T code x) :
    ∃ d, exec .decode s = .next d ∧ d.flags.err = false ∧ d.flags.partialEnd = false ∧ d.outLen.toNat = x.length ∧
      d.output = x := by
  obtain ⟨hinv, hv, hT, hl, hcodes, ⟨hcount, hwords, hbits⟩, hfit, hroom⟩ := h
  unfold wordsFor at hwords
  exact exec_decode_codes hv (hinv.arena hv) hT hl hinv.params x code hcodes hcount (hcount ▸ hbits) (by omega) (by omega)
    hroom

/-- A command that keeps the tree keeps the coded input, but for ENCODE and RESET (R129). -/
theorem State.HoldsCoded.exec {s t : State} {T : HTree} {code : Byte → List Bool} {x : List Byte} {i : Instr}
    (h : s.HoldsCoded T code x) (hexec : Machine.exec i s = .next t) (henc : i ≠ .encode) (hres : i ≠ .reset)
    (hv : t.flags.treeValid = true) (hT : t.tree = some T) : t.HoldsCoded T code x := by
  obtain ⟨hcount, hwords⟩ := (exec_keepsOthers hexec).payload henc hres
  have hcfg := (exec_storesWithin hexec).cfg
  exact
    { inv := h.inv.exec hexec
      treeValid := hv
      tree := hT
      inner := h.inner
      codes := h.codes
      payload :=
        { bitCount := hcount ▸ h.payload.bitCount
          payWords := hwords ▸ h.payload.payWords
          payBit := fun k hk => (exec_payBit h.inv.params hexec henc k).trans (h.payload.payBit k hk) }
      words := hcfg ▸ h.words
      room := hcfg ▸ h.room }

/-- A command that neither makes nor drops a tree keeps the one in the block (R129). -/
theorem exec_keeps_tree {i : Instr} {s t : State} (h : exec i s = .next t) (hbuild : i ≠ .build) (hdes : i ≠ .deserialize)
    (hres : i ≠ .reset) : t.flags.treeValid = s.flags.treeValid ∧ t.tree = s.tree := by
  obtain ⟨hnode, hroot, -, -, hv⟩ := (exec_keepsOthers h).arena hbuild hdes hres
  exact ⟨hv, by rw [State.tree, State.tree, hnode, hroot]⟩

/-- While the code table is valid its entries are paths in the tree in the block, which has two leaves or more. -/
theorem State.Inv.tree_of_codes {s : State} (h : s.Inv) (hv : s.flags.codesValid = true) :
    ∃ T, s.flags.treeValid = true ∧ s.tree = some T ∧ T.isLeaf = false ∧
      ∀ b, (s.codeOf b).valid = true → T.follow (s.codeOf b).path = some (.leaf b) := by
  obtain ⟨htree, htable, -⟩ := h.codes hv
  obtain ⟨T, hT⟩ := h.tree htree
  obtain ⟨-, htwo, h256⟩ := h.leafCount_tree hv hT
  exact ⟨T, htree, hT, HTree.isLeaf_eq_false htwo, fun b => (codeOf_path hT htable h256 b).2⟩

/-- ENCODE of the input that the codes are of: it succeeds exactly when the payload fits, and then the block holds it. -/
theorem State.CodesInput.exec_encode {s t : State} (h : t.CodesInput s) (hin : s.inLen.toNat ≤ s.cfg.inCap)
    (hout : s.inLen.toNat ≤ s.cfg.outCap) :
    ∃ u T, Machine.exec .encode t = .next u ∧
      (u.flags.err = false ↔ (t.codeBits s.input).length ≤ 32 * s.cfg.payCap) ∧
      (u.flags.err = false → u.HoldsCoded T (fun b => (t.codeOf b).path) s.input) := by
  obtain ⟨T, hv, hT, hl, hcodes⟩ := h.inv.tree_of_codes h.codesValid
  obtain ⟨u, henc, hfits, hpayload, -⟩ := exec_encode_codes h.inv h.codesValid (by rw [h.inLen, h.cfg]; exact hin)
    (by rw [h.input]; exact h.valid)
  rw [h.input, h.cfg] at hfits
  rw [h.input] at hpayload
  obtain ⟨hvu, hTu⟩ := exec_keeps_tree henc nofun nofun nofun
  have hcfg := (exec_storesWithin henc).cfg.trans h.cfg
  exact ⟨u, T, henc, hfits, fun herr =>
    { inv := h.inv.exec henc
      treeValid := hvu.trans hv
      tree := hTu.trans hT
      inner := hl
      codes := fun b hb => hcodes b (h.valid b hb)
      payload := hpayload herr
      words := hcfg ▸ hfits.1 herr
      room := by rw [State.input_length, hcfg]; exact hout }⟩

/-! ### The statements -/

/-- Settles O55: the codes are paths to the leaves of their bytes, so each is decoded to its byte (`decodeFrom_codes`), by
the tree itself and by the one DESERIALIZE rebuilds. -/
theorem payloadRoundTrip : Obligations.PayloadRoundTrip := by
  intro s h hin hout htwo
  obtain ⟨s1, s2, s3, hfreq, hbuild, hgen, hcodes⟩ := freq_build_gencodes h hin htwo
  obtain ⟨s4, T, henc, hfits, hholds⟩ := hcodes.exec_encode hin hout
  have decodes : ∀ {u : State}, u.HoldsCoded T (fun b => (s3.codeOf b).path) s.input →
      ∃ d, exec .decode u = .next d ∧ d.flags.err = false ∧ d.flags.partialEnd = false ∧ d.outLen = s.inLen ∧
        d.output = s.input := fun hu => by
    obtain ⟨d, hdec, herr, hpartial, hlen, houtput⟩ := hu.exec_decode
    exact ⟨d, hdec, herr, hpartial, BitVec.eq_of_toNat_eq (hlen.trans s.input_length), houtput⟩
  refine ⟨s1, s2, s3, s4, hfreq, hbuild, hgen, henc, hfits, fun herr => ⟨decodes (hholds herr), ?_⟩⟩
  have h4 := hholds herr
  obtain ⟨s5, s6, hser, hdes, hv6, hT6, -⟩ := serialize_deserialize h4.inv h4.treeValid h4.tree
  obtain ⟨hv5, hT5⟩ := exec_keeps_tree hser nofun nofun nofun
  have h5 := h4.exec hser nofun nofun (hv5.trans h4.treeValid) (hT5.trans h4.tree)
  obtain ⟨d, hd⟩ := decodes (h5.exec hdes nofun nofun hv6 hT6)
  exact ⟨s5, s6, d, hser, hdes, hd⟩

/-- Settles O48: the loop is the tree's decoding, and its cursor is at the root exactly when the decoding is. -/
theorem decodeWalksTheTree : Obligations.DecodeWalksTheTree := by
  intro s T h hv hT hl hp hbits hroom
  obtain ⟨d, hd, hcur, hexec⟩ := exec_decode_whole hv (h.arena hv) hT hp hl hbits hroom
  exact ⟨_, hexec, rfl, hd.output h.params hroom _, bne_iff_ne.trans hcur, hd.byteAt h.params hroom rfl⟩

/-- Settles O50: the bits that are there are decoded, and the next one is truncated. -/
theorem decodeOfTruncatedPayload : Obligations.DecodeOfTruncatedPayload := by
  intro s T h hv hT hl hp hbits hroom
  obtain ⟨d, hd, hcur, hexec⟩ := exec_decode_truncated hv (h.arena hv) hT hp hl hbits hroom
  exact ⟨_, hexec, rfl, hd.output h.params hroom _, bne_iff_ne.trans hcur, hd.byteAt h.params hroom rfl⟩

/-- Settles O52: the cursor stays on the leaf that has no room, which is not the root. -/
theorem decodeIntoAFullBuffer : Obligations.DecodeIntoAFullBuffer := by
  intro s T i h hv hT hp hbit hword hfull hover
  obtain ⟨d, hd, hcur, hexec⟩ := exec_decode_full hv (h.arena hv) hT hp hbit hword hfull hover
  refine ⟨_, hexec, ?_, hd.output h.params hfull.le _, fun a ha => State.decodeResult_byteAt hd.mem rfl (hfull ▸ ha)⟩
  simp only [State.decodeResult, hd.outLen, hfull, bne_iff_ne.2 hcur]
  rfl

/-- Settles O54: the end of DECODE is told by the tree and the bits below `BIT_COUNT`. -/
theorem decodeNeverReadsThePadding : Obligations.DecodeNeverReadsThePadding := by
  intro s m pw h hv hsame hw hp hw' hp'
  have hbits : s.bitCount.toNat ≤ 32 * s.payWords.toNat := by omega
  have hbits' : s.bitCount.toNat ≤ 32 * pw.toNat := by omega
  obtain ⟨T, hT⟩ := h.tree hv
  cases hl : T.isLeaf with
  | true =>
    obtain ⟨sym, w, hroot, -⟩ := State.root_of_leaf hT hl
    exact State.decodesAlike_leaf h.params hv hp hp' hbits hbits' hroot
  | false =>
    exact State.decodesAlike_tree h.params hv hp hp' hbits hbits' (h.arena hv) hT hl fun n hn =>
      List.map_congr_left fun i hi => hsame i (Nat.lt_of_lt_of_le (List.mem_range.1 hi) hn)

/-- Settles O49: the loop has nothing to do. -/
theorem decodeOfNoBits : Obligations.DecodeOfNoBits := by
  intro s hv hb hp
  rw [exec_decode_noBits hv hp hb, State.decodeResult_start]
  rfl

/-- Settles O51: the first bit is truncated or has no path. -/
theorem decodeOnASingleLeaf : Obligations.DecodeOnASingleLeaf := by
  intro s sym w hv hroot hb hp
  refine ⟨fun hw => ?_, fun hw => ?_⟩
  · rw [exec_decode_noPath hv hroot hp hb hw, State.decodeResult_start]
    rfl
  · rw [exec_decode_noWords hv hb hw, State.decodeResult_start]
    rfl

/-- Settles O53: the words are counted before any bit is read. -/
theorem decodeOfTooManyWords : Obligations.DecodeOfTooManyWords := fun _ hv hw => exec_decode_capacity hv hw

end Sys2Proof.Machine
end

section
/-! SUPPORT. NOP and RESET (47_control.md R230, R231), and the commands at which COMPRESS stops (R236); the proofs of the
statements about them. -/

namespace Sys2Proof.Machine

/-! ### NOP and RESET (R230, R231) -/

/-- NOP needs no flag and its body writes nothing. -/
theorem exec_nop (s : State) : exec .nop s = .next (s.succeeded .nop) :=
  runCommand_done_eq rfl rfl (complete_start .nop s)

/-- What RESET's start actions write, its body clears again. -/
theorem exec_reset (s : State) : exec .reset s = .next (resetRegisters s) := rfl

/-! ### Where COMPRESS stops (R236) -/

/-- The command last started is `i`, and it has failed with `e` (R121, R126). -/
structure State.StoppedAt (t : State) (i : Instr) (e : Err) : Prop where
  err : t.flags.err = true
  errCode : t.errCode = e.code
  lastCmd : t.lastCmd = encode i

theorem State.freqFailed_stoppedAt (e : Err) (info : Quad) (s : State) : (s.freqFailed e info).StoppedAt .freq e :=
  ⟨rfl, rfl, rfl⟩

/-- GENCODES stops on a tree of a single leaf (R168). -/
theorem exec_gencodes_stoppedAt {s : State} {T : HTree} (hv : s.flags.treeValid = true) (hT : s.tree = some T)
    (hl : T.isLeaf = true) : ∃ t, exec .gencodes s = .next t ∧ t.StoppedAt .gencodes .singleSymbol := by
  obtain ⟨sym, w, hroot, -⟩ := State.root_of_leaf hT hl
  exact ⟨_, exec_gencodes_leaf hv hroot, rfl, rfl, rfl⟩

/-- After a command that failed the host carries out no further line. -/
theorem runLines_of_stoppedAt {i : Instr} {e : Err} {s t : State} (h : exec i (issued i s) = .next t)
    (ht : t.StoppedAt i e) (ls : List HostLine) : runLines (.command i :: ls) s = .next t :=
  (runLines_command h ls).trans (if_pos ht.err)

/-- On an input longer than `IN_BUF` FREQ fails, and the sequence stops there (R138, R236). -/
theorem compressCommands_tooLong {b : State} (hlong : b.cfg.inCap < b.inLen.toNat) :
    ∃ t, runLines compressCommands b = .next t ∧ t.StoppedAt .freq .capacity := by
  have hissued := issued_carries .freq b
  have hexec := exec_freq (issued .freq b)
  rw [if_pos (by rw [hissued.cfg, hissued.inLen]; exact hlong)] at hexec
  have hstop := State.freqFailed_stoppedAt .capacity ((issued .freq b).inLen.setWidth 64) (issued .freq b)
  exact ⟨_, runLines_of_stoppedAt hexec hstop _, hstop⟩

/-- On an input of a single byte value FREQ and BUILD succeed and GENCODES fails, and the sequence stops there (R168,
R236). -/
theorem compressCommands_single {b : State} (h : b.Inv) (hlen : b.inLen ≠ 0) (hin : b.inLen.toNat ≤ b.cfg.inCap)
    (hsingle : ∀ x ∈ b.input, ∀ y ∈ b.input, x = y) :
    ∃ t, runLines compressCommands b = .next t ∧ t.StoppedAt .gencodes .singleSymbol := by
  obtain ⟨s, T, hrun, -, hv, hT, hcov, -⟩ := compressCommands_tree h hlen hin
  have hl : T.isLeaf = true := by
    rw [← Bool.not_eq_false, hcov.isLeaf]
    exact fun ⟨x, hx, y, hy, hne⟩ => hne (hsingle x hx y hy)
  have hissued := issued_carries .gencodes s
  obtain ⟨t, hexec, hstop⟩ := exec_gencodes_stoppedAt (hissued.treeValid.trans hv) (hissued.tree.trans hT) hl
  exact ⟨t, hrun.trans (runLines_of_stoppedAt hexec hstop _), hstop⟩

/-- COMPRESS writes no file when one of its commands stopped it. -/
theorem compress_eq_none {x : List Byte} {s t : State} (hrun : runLines (compressLines s.cfg x) s = .next t)
    (herr : t.flags.err = true) : compress x s = none := by
  simp [compress, hrun, herr]

/-! ### The statements -/

/-- Settles O57: the host loads the input and its length, and then the first command that cannot do with them stops the
sequence. -/
theorem compressStopsOnWhatItCannotCode : Obligations.CompressStopsOnWhatItCannotCode := by
  intro x s h _
  obtain ⟨⟨-, -, hcap⟩, -⟩ := (Config.wf_iff _).1 h.params
  obtain ⟨b, hload, hinv, hcfg, hlen, hinput⟩ := compress_loaded x s h
  have stops : ∀ {i e}, (∃ t, runLines compressCommands b = .next t ∧ t.StoppedAt i e) →
      compress x s = none ∧ ∃ t, runLines (compressLines s.cfg x) s = .next t ∧
        t.flags.err = true ∧ t.errCode = e.code ∧ t.lastCmd = encode i := fun ⟨t, hrun, hstop⟩ =>
    ⟨compress_eq_none (hload.trans hrun) hstop.err, t, hload.trans hrun, hstop.err, hstop.errCode, hstop.lastCmd⟩
  refine ⟨fun hnil => stops ?_, fun hlong => stops ?_, fun hne hfits hsingle => stops ?_⟩
  · subst hnil
    exact ⟨_, compressCommands_empty hlen, State.freqFailed_stoppedAt _ _ _⟩
  · refine compressCommands_tooLong ?_
    rw [hcfg, hlen]
    exact lt_lengthWord hcap hlong
  · have hinput := hinput hfits
    have hlength : b.inLen.toNat = x.length := by rw [← State.input_length, hinput]
    refine compressCommands_single hinv (State.inLen_ne_zero ?_) (by rw [hlength, hcfg]; exact hfits) (hinput ▸ hsingle)
    exact hlength ▸ List.length_pos_of_ne_nil hne

/-- Settles O22: NOP's end is its start followed by the common completion. -/
theorem nopOnlyClearsTheRecord : Obligations.NopOnlyClearsTheRecord := exec_nop

/-- Settles O23: RESET writes the registers only, so the buffers' bytes are read from the same memory. -/
theorem resetCommandKeepsTheBuffers : Obligations.ResetCommandKeepsTheBuffers := fun s =>
  ⟨_, exec_reset s, resetRegisters_atReset s, fun a => State.byteAt_congr a rfl rfl, rfl⟩

end Sys2Proof.Machine
end

section
/-! SUPPORT. The malformed token streams (60_exceptions.md R248), prefix codes over the bytes that occur
(70_reset_and_hazards.md R298), and the hard reset at the port (R275, R277); the proofs of the statements of those files. -/

namespace Sys2Proof.Machine

/-! ### Malformed token streams (R248) -/

/-- Tokens that follow do not mend a malformed stream. -/
theorem tokenDepth_eq_none_of_prefix {a b : List Token} {n : Nat} (hab : a <+: b) (h : tokenDepth a n = none) :
    tokenDepth b n = none := by
  obtain ⟨c, rfl⟩ := hab
  rw [tokenDepth_append, h, Option.bind_none]

/-- Token `n` is the first malformed one. -/
def FirstMalformed (toks : List Token) (n : Nat) : Prop :=
  (tokenDepth (toks.take n) 0).isSome = true ∧ tokenDepth (toks.take (n + 1)) 0 = none

theorem FirstMalformed.depth_eq_none {toks : List Token} {n : Nat} (h : FirstMalformed toks n) : tokenDepth toks 0 = none :=
  tokenDepth_eq_none_of_prefix (List.take_prefix _ _) h.2

/-- The tokens before a first malformed one are read whole, so none of them is malformed. -/
theorem FirstMalformed.le {toks : List Token} {m n : Nat} (hm : FirstMalformed toks m) (hn : FirstMalformed toks n) :
    n ≤ m := by
  by_contra hlt
  have hnone := tokenDepth_eq_none_of_prefix (List.take_prefix_take_left (l := toks) (by omega : m + 1 ≤ n)) hm.2
  simpa [hnone] using hn.1

theorem FirstMalformed.unique {toks : List Token} {m n : Nat} (hm : FirstMalformed toks m) (hn : FirstMalformed toks n) :
    m = n :=
  Nat.le_antisymm (hn.le hm) (hm.le hn)

section
variable {s : State} (hcap : s.tokCount.toNat ≤ tokCap)
include hcap

/-- A stream is a tree's exactly when its tokens reduce to one node (R185, R191). -/
theorem State.exists_tokens_eq_ser_iff : (∃ T : HTree, s.tokens = T.ser) ↔ tokenDepth s.tokens 0 = some 1 := by
  constructor
  · rintro ⟨T, hT⟩
    rw [hT, tokenDepth_tree]
  · intro hone
    rcases exec_deserialize hcap with ⟨T, -, -, hT, -⟩ | ⟨d, hd, hne, -⟩ | ⟨n, -, hread, hbad, -⟩
    · exact ⟨T, hT⟩
    · exact absurd (Option.some.inj (hd.symm.trans hone)) hne
    · have hnone := FirstMalformed.depth_eq_none ⟨hread, hbad⟩
      rw [hone] at hnone
      cases hnone

/-- DESERIALIZE stops at the first malformed token, with its index (R186, R187). -/
theorem exec_deserialize_malformed {n : Nat} (h : FirstMalformed s.tokens n) :
    exec .deserialize s = .next (s.deserializeFailed .malformedTree (BitVec.ofNat 64 n)) := by
  have hnone := h.depth_eq_none
  rcases exec_deserialize hcap with ⟨T, -, -, hT, -⟩ | ⟨d, hd, -⟩ | ⟨m, -, hread, hbad, hexec⟩
  · rw [hT, tokenDepth_tree] at hnone
    cases hnone
  · rw [hd] at hnone
    cases hnone
  · rwa [h.unique ⟨hread, hbad⟩]

/-- DESERIALIZE that has read every token and is left with no node or with several fails with `TOK_COUNT` (R188). -/
theorem exec_deserialize_leftover {d : Nat} (hd : tokenDepth s.tokens 0 = some d) (hne : d ≠ 1) :
    exec .deserialize s = .next (s.deserializeFailed .malformedTree s.tokCount) := by
  rcases exec_deserialize hcap with ⟨T, -, -, hT, -⟩ | ⟨-, -, -, hexec⟩ | ⟨n, -, hread, hbad, -⟩
  · rw [hT, tokenDepth_tree] at hd
    exact absurd (Option.some.inj hd).symm hne
  · exact hexec
  · have hnone := FirstMalformed.depth_eq_none ⟨hread, hbad⟩
    rw [hd] at hnone
    cases hnone

end

/-! ### Prefix codes over the bytes that occur (R298) -/

/-- Kraft's inequality for a prefix code over the bytes whose count is not 0. -/
theorem kraft_of_counts {count : List Word} {code : Byte → List Bool}
    (h : ∀ a b : Byte, count.getD a.toNat 0 ≠ 0 → count.getD b.toNat 0 ≠ 0 → a ≠ b → ¬ code a <+: code b) :
    ∑ k ∈ ((List.range 256).filter fun k => count.getD k 0 != 0).toFinset,
      (1 / 2 : ℚ) ^ (code (BitVec.ofNat 8 k)).length ≤ 1 := by
  refine kraft_prefix (List.nodup_range.filter _) (fun k => code (BitVec.ofNat 8 k)) fun k hk m hm hkm => ?_
  simp only [List.mem_filter, List.mem_range, bne_iff_ne] at hk hm
  have hknat : (BitVec.ofNat 8 k).toNat = k := Nat.mod_eq_of_lt hk.1
  have hmnat : (BitVec.ofNat 8 m).toNat = m := Nat.mod_eq_of_lt hm.1
  refine h _ _ (by rw [hknat]; exact hk.2) (by rw [hmnat]; exact hm.2) fun heq => hkm ?_
  rw [← hknat, heq, hmnat]

/-! ### The hard reset (R275, R277) -/

/-- A hard reset is RESET on a block whose buffers hold nothing and which has no access held. -/
theorem hardReset_eq (s : State) :
    hardReset s = resetRegisters { s with mem := [], powerCycle := s.powerCycle + 1, held := none } := rfl

theorem hardReset_atReset (s : State) : (hardReset s).AtReset := by
  rw [hardReset_eq]
  exact resetRegisters_atReset _

theorem busyStep_hardReset {s : State} {rest : List HostEvent} (c : Word) (n : Nat) (hp : s.port = .hardReset :: rest) :
    busyStep c n s = hardReset { s with port := rest } := by
  simp only [busyStep, hp]

theorem idleStep_hardReset {s : State} {rest : List HostEvent} (hh : s.held = none) (hp : s.port = .hardReset :: rest) :
    idleStep s = hardReset { s with port := rest } := by
  rw [idleStep, hh, hp]

/-- The two ways in which a hard reset is served at once. -/
theorem step_hardReset {s : State} {rest : List HostEvent} (hp : s.port = .hardReset :: rest)
    (h : (∃ c n, s.run = .busy c (n + 1)) ∨ (s.run = .idle ∧ s.held = none)) :
    step s = .next (hardReset { s with port := rest }) := by
  rcases h with ⟨c, n, hr⟩ | ⟨hr, hh⟩
  · rw [step_busy_succ hr, busyStep_hardReset c n hp]
  · rw [step_idle hr, idleStep_hardReset hh hp]

/-! ### The statements -/

/-- Settles O34: a prefix code meets Kraft's inequality, and no lengths that meet it cost less than BUILD's tree. -/
theorem buildCodeIsOptimal : Obligations.BuildCodeIsOptimal := by
  intro s t T code hv hc he hT hprefix
  exact build_cost_le hv hc he hT (fun b => (code b).length) (kraft_of_counts hprefix)

/-- Settles O40: a stream has one first malformed token at most, and has no depth when it has one; so the statement's two
ways to fail are the two of DESERIALIZE's loop. -/
theorem deserializeRejectsMalformedStreams : Obligations.DeserializeRejectsMalformedStreams := by
  intro s hcap
  refine ⟨State.exists_tokens_eq_ser_iff hcap, fun info hinfo => ?_⟩
  rcases hinfo with ⟨n, -, hread, hbad, rfl⟩ | ⟨d, hd, hne, rfl⟩
  · exact exec_deserialize_malformed hcap ⟨hread, hbad⟩
  · exact exec_deserialize_leftover hcap hd hne

/-- Settles O20: the flag's bit number is what the check before the command's body answers. -/
theorem missingPrerequisiteFails : Obligations.MissingPrerequisiteFails := by
  intro s i b h
  refine exec_missing ?_
  rcases h with ⟨rfl, hv, rfl⟩ | ⟨rfl | rfl | rfl, hv, rfl⟩ | ⟨rfl, hv, rfl⟩ <;> simp [missingFlag, hv]

/-- Settles O25: the registers are those of RESET. -/
theorem hardResetState : Obligations.HardResetState := hardReset_atReset

/-- Settles O26: the step is the hard reset alone, so no reply is added. -/
theorem hardResetAbandonsTheCommand : Obligations.HardResetAbandonsTheCommand := fun _ _ hp h =>
  ⟨_, step_hardReset hp h, hardReset_atReset _, rfl, rfl, rfl, rfl⟩

end Sys2Proof.Machine
end
